-- ==== Sys2Proof/Word.lean ====
section
/-! DEFINITION. The plain word types of the block: bytes, 16-bit fields, 32-bit registers and the two kinds of
address (00_scope.md R9, R11). -/

namespace Sys2Proof

/-- One byte of a buffer or of a frame. -/
abbrev Byte := BitVec 8

/-- A 16-bit big-endian field, or a 16-bit checksum (R9). -/
abbrev Half := BitVec 16

/-- A 32-bit host-interface register or 32-bit field (10_state.md R26). -/
abbrev Word := BitVec 32

/-- An IPv4 address: its 4 bytes in wire order, the first in the most significant bits (20_memory.md R65). -/
abbrev Ip := BitVec 32

/-- A MAC address: its 6 bytes in wire order, the first in the most significant bits (20_memory.md R65). -/
abbrev Mac := BitVec 48

end Sys2Proof
end

