-- ==== Sys2Proof/Syntax.lean ====
section
/-! DEFINITION. The syntax: the instructions (one constructor per row of spec/opcode_table.json), the six formats
their keys come in, the disposition codes a command can end with, and the decoded headers of the wire formats. -/

namespace Sys2Proof

/-- The format of a row of the opcode table: which key selects it (30_encoding.md R92, R108). -/
inductive Format where
  | cmd        -- `CMD[7:0]`
  | etype      -- `rd16(frame, 12)`
  | arpop      -- `rd16(arp, 6)`
  | ipproto    -- `ip[9]`
  | icmptype   -- `icmp[0]`
  | tcpflags   -- `rd16(seg, 12)[8:0]`
deriving DecidableEq, Repr

/-- The instructions: six commands (R92) and the 25 frame classes a `PROCESS` selects (R109). The five default
classes carry the key that selected them, so that no bit of a key is lost. -/
inductive Instr where
  | csum16
  | csum16p
  | csumPseudo
  | cacheLookup
  | cacheUpdate
  | process
  | ethArp
  | ethIpv4
  | ethOther (key : BitVec 16)
  | arpRequest
  | arpReply
  | arpRarpRequest
  | arpRarpReply
  | arpBadOpcode (key : BitVec 16)
  | ipIcmp
  | ipIgmp
  | ipTcp
  | ipUdp
  | ipOther (key : BitVec 8)
  | icmpEchoRequest
  | icmpEchoReply
  | icmpType3
  | icmpType4
  | icmpType5
  | icmpType9
  | icmpType10
  | icmpType11
  | icmpType12
  | icmpOther (key : BitVec 8)
  | tcpPureSyn
  | tcpOther (key : BitVec 9)
deriving DecidableEq, Repr

/-- The disposition codes of 60_exceptions.md R303, in the order of its table. A value outside the table is never
written to `REPORT.DISP`, and this type has none. -/
inductive Disposition where
  | ok
  | arpReply
  | icmpEchoReply
  | tcpSynAck
  | arpReplySeen
  | arpRequestNotLocal
  | arpUnsupported
  | icmpEchoReplySeen
  | icmpUnhandled
  | tcpUnhandled
  | ipv4Udp
  | ipv4Igmp
  | ipv4UnknownProto
  | ethUnsupportedType
  | ethTooShort
  | arpTooShort
  | arpBadOpcode
  | ipv4TooShort
  | ipv4BadVersion
  | ipv4BadIhl
  | icmpTooShort
  | tcpTooShort
  | tcpBadDataOffset
  | cmdIllegal
  | cmdRange
  | cmdCsumOdd
deriving DecidableEq, Repr

/-- The decoded Ethernet II header (30_encoding.md R101, 41_ethernet.md R160). -/
structure EthHeader where
  dst : Mac
  src : Mac
  ethertype : Half
deriving DecidableEq, Repr

/-- The decoded ARP message (30_encoding.md R102, 43_arp.md R192). -/
structure ArpMessage where
  hardwareType : Half
  protoType : Half
  hardwareSize : Byte
  protoSize : Byte
  opcode : Half
  senderMac : Mac
  senderIp : Ip
  targetMac : Mac
  targetIp : Ip
deriving DecidableEq, Repr

/-- The decoded IPv4 header (30_encoding.md R103, 44_ipv4.md R211); `raw20` is its first 20 bytes. -/
structure Ipv4Header where
  version : BitVec 4
  ihl : BitVec 4
  dscp : BitVec 6
  ecn : BitVec 2
  totalLength : Half
  identification : Half
  flags : BitVec 3
  fragmentOffset : BitVec 13
  ttl : Byte
  protocol : Byte
  headerChecksum : Half
  sourceIp : Ip
  destIp : Ip
  raw20 : List Byte
deriving DecidableEq, Repr

/-- The decoded ICMP message (30_encoding.md R104, 45_icmp.md R231); `rest` is the 4-byte rest-of-header. -/
structure IcmpMessage where
  type : Byte
  code : Byte
  checksum : Half
  rest : List Byte
  payload : List Byte
deriving DecidableEq, Repr

/-- The decoded TCP header (30_encoding.md R105, 46_tcp.md R251). -/
structure TcpHeader where
  sport : Half
  dport : Half
  seq : Word
  ack : Word
  doff : BitVec 4
  reserved : BitVec 3
  flags9 : BitVec 9
  window : Half
  checksum : Half
  urgent : Half
  options : List Byte
  payload : List Byte
deriving DecidableEq, Repr

end Sys2Proof
end

