-- ==== Sys2Proof/Decode.lean ====
section
/-! DEFINITION. Decoding: byte order, the header decoders of the wire formats (each total, rejecting by the name of its
malformed disposition), the decoder of the six key formats, the classes a whole frame selects, and then the encoder:
the key word of every instruction and a frame that carries it. -/

namespace Sys2Proof

/-! ## Byte order (00_scope.md R11, 20_memory.md R64) -/

/-- Byte `i` of a view. Every caller has checked the view's length first (20_memory.md R68). -/
def rd8 (b : List Byte) (i : Nat) : Byte := b.getD i 0

/-- `rd16(b, i)`: the big-endian 16-bit number at `i` (R11). -/
def rd16 (b : List Byte) (i : Nat) : Half := rd8 b i ++ rd8 b (i + 1)

/-- `rd32(b, i)`: the big-endian 32-bit number at `i` (R11). -/
def rd32 (b : List Byte) (i : Nat) : Word := rd16 b i ++ rd16 b (i + 2)

/-- The 6-byte MAC address at `i`, first wire byte most significant (20_memory.md R65). -/
def rdMac (b : List Byte) (i : Nat) : Mac := rd16 b i ++ rd32 b (i + 2)

/-- `be16(v)` (R11). -/
def be16 (v : Half) : List Byte := [v.extractLsb' 8 8, v.extractLsb' 0 8]

/-- `be32(v)` (R11). -/
def be32 (v : Word) : List Byte := be16 (v.extractLsb' 16 16) ++ be16 (v.extractLsb' 0 16)

/-- The 6 wire bytes of a MAC address (R65). -/
def macBytes (m : Mac) : List Byte := be16 (m.extractLsb' 32 16) ++ be32 (m.extractLsb' 0 32)

/-- `zeros(n)` (R11). -/
def zeros (n : Nat) : List Byte := List.replicate n 0

/-- `b[i..j)` (R11). -/
def slice (b : List Byte) (i j : Nat) : List Byte := (b.drop i).take (j - i)

/-- `b with [i..i+len(c)) := c` (R11). -/
def patch (b : List Byte) (i : Nat) (c : List Byte) : List Byte := b.take i ++ c ++ b.drop (i + c.length)

/-! ## The header decoders -/

/-- `eth_decode(f)` (41_ethernet.md R160). -/
def ethDecode (f : List Byte) : Except Disposition EthHeader :=
  if f.length < 14 then .error .ethTooShort
  else .ok { dst := rdMac f 0, src := rdMac f 6, ethertype := rd16 f 12 }

/-- Steps 1 and 3 of `arp_handle(a)`: the length check and the fields (43_arp.md R190, R192). Bytes after offset 27
are ignored. -/
def arpDecode (a : List Byte) : Except Disposition ArpMessage :=
  if a.length < 28 then .error .arpTooShort
  else .ok
    { hardwareType := rd16 a 0
      protoType := rd16 a 2
      hardwareSize := rd8 a 4
      protoSize := rd8 a 5
      opcode := rd16 a 6
      senderMac := rdMac a 8
      senderIp := rd32 a 14
      targetMac := rdMac a 18
      targetIp := rd32 a 24 }

/-- `header(p)` (44_ipv4.md R211). -/
def ipv4Header (p : List Byte) : Ipv4Header :=
  { version := (rd8 p 0).extractLsb' 4 4
    ihl := (rd8 p 0).extractLsb' 0 4
    dscp := (rd8 p 1).extractLsb' 2 6
    ecn := (rd8 p 1).extractLsb' 0 2
    totalLength := rd16 p 2
    identification := rd16 p 4
    flags := (rd16 p 6).extractLsb' 13 3
    fragmentOffset := (rd16 p 6).extractLsb' 0 13
    ttl := rd8 p 8
    protocol := rd8 p 9
    headerChecksum := rd16 p 10
    sourceIp := rd32 p 12
    destIp := rd32 p 16
    raw20 := slice p 0 20 }

/-- `ipv4_decode(p)`, its four checks in their order (44_ipv4.md R210). -/
def ipv4Decode (p : List Byte) : Except Disposition Ipv4Header :=
  if p.length < 20 then .error .ipv4TooShort
  else if (ipv4Header p).version ≠ 4 then .error .ipv4BadVersion
  else if (ipv4Header p).ihl.toNat < 5 then .error .ipv4BadIhl
  else if p.length < (ipv4Header p).ihl.toNat * 4 then .error .ipv4TooShort
  else .ok (ipv4Header p)

/-- The upper-layer view `p[ihl·4 .. len(p))`; `total_length` does not bound it (44_ipv4.md R212). -/
def upperView (h : Ipv4Header) (p : List Byte) : List Byte := p.drop (h.ihl.toNat * 4)

/-- Steps 1 and 2 of `icmp_handle(u)`: the length check and the fields (45_icmp.md R230, R231). -/
def icmpDecode (u : List Byte) : Except Disposition IcmpMessage :=
  if u.length < 8 then .error .icmpTooShort
  else .ok
    { type := rd8 u 0, code := rd8 u 1, checksum := rd16 u 2, rest := slice u 4 8, payload := u.drop 8 }

/-- `tcp_header(seg)` (46_tcp.md R251). -/
def tcpHeader (seg : List Byte) : TcpHeader :=
  { sport := rd16 seg 0
    dport := rd16 seg 2
    seq := rd32 seg 4
    ack := rd32 seg 8
    doff := (rd16 seg 12).extractLsb' 12 4
    reserved := (rd16 seg 12).extractLsb' 9 3
    flags9 := (rd16 seg 12).extractLsb' 0 9
    window := rd16 seg 14
    checksum := rd16 seg 16
    urgent := rd16 seg 18
    options := slice seg 20 (((rd16 seg 12).extractLsb' 12 4).toNat * 4)
    payload := seg.drop (((rd16 seg 12).extractLsb' 12 4).toNat * 4) }

/-- `tcp_decode(seg)`, its three checks in their order (46_tcp.md R250). -/
def tcpDecode (seg : List Byte) : Except Disposition TcpHeader :=
  if seg.length < 20 then .error .tcpTooShort
  else if (tcpHeader seg).doff.toNat < 5 then .error .tcpBadDataOffset
  else if seg.length < (tcpHeader seg).doff.toNat * 4 then .error .tcpTooShort
  else .ok (tcpHeader seg)

/-! ## The keys (30_encoding.md R92, R108, R109) -/

/-- Why a key selects no instruction. Only a command word can be illegal (R93); every frame format has a default. -/
inductive DecodeError where
  | illegalOpcode (opc : BitVec 8)
deriving DecidableEq, Repr

/-- The opcode map of the command word (R92, R93). -/
def decodeCommand (opc : BitVec 8) : Except DecodeError Instr :=
  if opc = 0x01 then .ok .csum16
  else if opc = 0x02 then .ok .csum16p
  else if opc = 0x03 then .ok .csumPseudo
  else if opc = 0x10 then .ok .cacheLookup
  else if opc = 0x11 then .ok .cacheUpdate
  else if opc = 0x20 then .ok .process
  else .error (.illegalOpcode opc)

/-- The format `ETYPE` (R107, R109). -/
def decodeEtype (k : BitVec 16) : Instr :=
  if k = 0x0806 then .ethArp
  else if k = 0x0800 then .ethIpv4
  else .ethOther k

/-- The format `ARPOP` (R109, R114). -/
def decodeArpOp (k : BitVec 16) : Instr :=
  if k = 1 then .arpRequest
  else if k = 2 then .arpReply
  else if k = 3 then .arpRarpRequest
  else if k = 4 then .arpRarpReply
  else .arpBadOpcode k

/-- The format `IPPROTO` (R109). -/
def decodeIpProto (k : BitVec 8) : Instr :=
  if k = 1 then .ipIcmp
  else if k = 2 then .ipIgmp
  else if k = 6 then .ipTcp
  else if k = 17 then .ipUdp
  else .ipOther k

/-- The format `ICMPTYPE` (R109). -/
def decodeIcmpType (k : BitVec 8) : Instr :=
  if k = 8 then .icmpEchoRequest
  else if k = 0 then .icmpEchoReply
  else if k = 3 then .icmpType3
  else if k = 4 then .icmpType4
  else if k = 5 then .icmpType5
  else if k = 9 then .icmpType9
  else if k = 10 then .icmpType10
  else if k = 11 then .icmpType11
  else if k = 12 then .icmpType12
  else .icmpOther k

/-- The format `TCPFLAGS` (R109). -/
def decodeTcpFlags (k : BitVec 9) : Instr :=
  if k = 0x002 then .tcpPureSyn
  else .tcpOther k

/-- The decoder: the instruction a key word selects in a format. Of a command word only bits [7:0] count (R90, R94);
of any key only the bits of its width (R108). -/
def decode (fmt : Format) (w : Word) : Except DecodeError Instr :=
  match fmt with
  | .cmd => decodeCommand (w.setWidth 8)
  | .etype => .ok (decodeEtype (w.setWidth 16))
  | .arpop => .ok (decodeArpOp (w.setWidth 16))
  | .ipproto => .ok (decodeIpProto (w.setWidth 8))
  | .icmptype => .ok (decodeIcmpType (w.setWidth 8))
  | .tcpflags => .ok (decodeTcpFlags (w.setWidth 9))

/-! ## The classes a frame selects (R108: "each read only after the decode that precedes it has succeeded") -/

/-- The class an ARP view selects (43_arp.md R190, R191). -/
def arpClasses (a : List Byte) : List Instr :=
  match arpDecode a with
  | .error _ => []
  | .ok m => [decodeArpOp m.opcode]

/-- The class an ICMP message selects (45_icmp.md R230, R232). -/
def icmpClasses (u : List Byte) : List Instr :=
  match icmpDecode u with
  | .error _ => []
  | .ok m => [decodeIcmpType m.type]

/-- The class a TCP segment selects (46_tcp.md R250, R253). -/
def tcpClasses (u : List Byte) : List Instr :=
  match tcpDecode u with
  | .error _ => []
  | .ok t => [decodeTcpFlags t.flags9]

/-- The classes an IPv4 view selects (44_ipv4.md R210, R214). -/
def ipv4Classes (p : List Byte) : List Instr :=
  match ipv4Decode p with
  | .error _ => []
  | .ok h =>
    match decodeIpProto h.protocol with
    | .ipIcmp => .ipIcmp :: icmpClasses (upperView h p)
    | .ipTcp => .ipTcp :: tcpClasses (upperView h p)
    | c => [c]

/-- The frame classes a frame selects, outermost first (R108, R109; 47_dispatcher.md R270). -/
def frameClasses (f : List Byte) : List Instr :=
  match ethDecode f with
  | .error _ => []
  | .ok e =>
    match decodeEtype e.ethertype with
    | .ethArp => .ethArp :: arpClasses (f.drop 14)
    | .ethIpv4 => .ethIpv4 :: ipv4Classes (f.drop 14)
    | c => [c]

/-! ## The encoder -/

/-- The format and the key word of an instruction, from the same tables (R92, R109). -/
def encode : Instr → Format × Word
  | .csum16 => (.cmd, 0x01)
  | .csum16p => (.cmd, 0x02)
  | .csumPseudo => (.cmd, 0x03)
  | .cacheLookup => (.cmd, 0x10)
  | .cacheUpdate => (.cmd, 0x11)
  | .process => (.cmd, 0x20)
  | .ethArp => (.etype, 0x0806)
  | .ethIpv4 => (.etype, 0x0800)
  | .ethOther k => (.etype, k.setWidth 32)
  | .arpRequest => (.arpop, 1)
  | .arpReply => (.arpop, 2)
  | .arpRarpRequest => (.arpop, 3)
  | .arpRarpReply => (.arpop, 4)
  | .arpBadOpcode k => (.arpop, k.setWidth 32)
  | .ipIcmp => (.ipproto, 1)
  | .ipIgmp => (.ipproto, 2)
  | .ipTcp => (.ipproto, 6)
  | .ipUdp => (.ipproto, 17)
  | .ipOther k => (.ipproto, k.setWidth 32)
  | .icmpEchoRequest => (.icmptype, 8)
  | .icmpEchoReply => (.icmptype, 0)
  | .icmpType3 => (.icmptype, 3)
  | .icmpType4 => (.icmptype, 4)
  | .icmpType5 => (.icmptype, 5)
  | .icmpType9 => (.icmptype, 9)
  | .icmpType10 => (.icmptype, 10)
  | .icmpType11 => (.icmptype, 11)
  | .icmpType12 => (.icmptype, 12)
  | .icmpOther k => (.icmptype, k.setWidth 32)
  | .tcpPureSyn => (.tcpflags, 0x002)
  | .tcpOther k => (.tcpflags, k.setWidth 32)

/-- A row of the opcode table: its format, match and mask (R108). -/
structure Row where
  format : Format
  mtch : Word
  mask : Word
deriving DecidableEq, Repr

/-- The row of each instruction, as spec/opcode_table.json lists it. -/
def rowOf : Instr → Row
  | .csum16 => ⟨.cmd, 0x01, 0xFF⟩
  | .csum16p => ⟨.cmd, 0x02, 0xFF⟩
  | .csumPseudo => ⟨.cmd, 0x03, 0xFF⟩
  | .cacheLookup => ⟨.cmd, 0x10, 0xFF⟩
  | .cacheUpdate => ⟨.cmd, 0x11, 0xFF⟩
  | .process => ⟨.cmd, 0x20, 0xFF⟩
  | .ethArp => ⟨.etype, 0x0806, 0xFFFF⟩
  | .ethIpv4 => ⟨.etype, 0x0800, 0xFFFF⟩
  | .ethOther _ => ⟨.etype, 0, 0⟩
  | .arpRequest => ⟨.arpop, 0x0001, 0xFFFF⟩
  | .arpReply => ⟨.arpop, 0x0002, 0xFFFF⟩
  | .arpRarpRequest => ⟨.arpop, 0x0003, 0xFFFF⟩
  | .arpRarpReply => ⟨.arpop, 0x0004, 0xFFFF⟩
  | .arpBadOpcode _ => ⟨.arpop, 0, 0⟩
  | .ipIcmp => ⟨.ipproto, 0x01, 0xFF⟩
  | .ipIgmp => ⟨.ipproto, 0x02, 0xFF⟩
  | .ipTcp => ⟨.ipproto, 0x06, 0xFF⟩
  | .ipUdp => ⟨.ipproto, 0x11, 0xFF⟩
  | .ipOther _ => ⟨.ipproto, 0, 0⟩
  | .icmpEchoRequest => ⟨.icmptype, 0x08, 0xFF⟩
  | .icmpEchoReply => ⟨.icmptype, 0x00, 0xFF⟩
  | .icmpType3 => ⟨.icmptype, 0x03, 0xFF⟩
  | .icmpType4 => ⟨.icmptype, 0x04, 0xFF⟩
  | .icmpType5 => ⟨.icmptype, 0x05, 0xFF⟩
  | .icmpType9 => ⟨.icmptype, 0x09, 0xFF⟩
  | .icmpType10 => ⟨.icmptype, 0x0A, 0xFF⟩
  | .icmpType11 => ⟨.icmptype, 0x0B, 0xFF⟩
  | .icmpType12 => ⟨.icmptype, 0x0C, 0xFF⟩
  | .icmpOther _ => ⟨.icmptype, 0, 0⟩
  | .tcpPureSyn => ⟨.tcpflags, 0x002, 0x1FF⟩
  | .tcpOther _ => ⟨.tcpflags, 0, 0⟩

/-- The Ethernet header, with zero addresses, of the frame that carries a key. -/
def keyEthHeader (ethertype : Half) : List Byte := zeros 12 ++ be16 ethertype

/-- The IPv4 header, version 4 and IHL 5 and otherwise zero but for its protocol, of the frame that carries a key. -/
def keyIpv4Header (protocol : Byte) : List Byte := 0x45#8 :: zeros 8 ++ [protocol] ++ zeros 10

/-- A frame whose dispatch reads the key `w` in the format `fmt`: the keys before it select the path that leads there,
and every byte that is no key, length or version is zero. A command needs no frame. -/
def keyFrame (fmt : Format) (w : Word) : List Byte :=
  match fmt with
  | .cmd => []
  | .etype => keyEthHeader (w.setWidth 16) ++ zeros 28
  | .arpop => keyEthHeader 0x0806 ++ zeros 6 ++ be16 (w.setWidth 16) ++ zeros 20
  | .ipproto => keyEthHeader 0x0800 ++ keyIpv4Header (w.setWidth 8) ++ zeros 20
  | .icmptype => keyEthHeader 0x0800 ++ keyIpv4Header 1 ++ [w.setWidth 8] ++ zeros 19
  | .tcpflags =>
    keyEthHeader 0x0800 ++ keyIpv4Header 6 ++ zeros 12 ++ be16 (0x5#4 ++ 0#3 ++ w.setWidth 9) ++ zeros 6

/-- The format in which a table word of `nbits` bits is read. The table numbers the keys of each format apart, so the
same word can stand for rows of several formats; the word is then read in the first format of its width, in the order
of the table, that has a row of its own for it, and else in the first frame format of that width. `none`: no row of the
table has a key of that width. Log entry 11. -/
def tableFormat (nbits w : Nat) : Option Format :=
  if nbits = 8 then
    if (decodeCommand (BitVec.ofNat 8 w)).toOption.isSome then some .cmd
    else if decodeIpProto (BitVec.ofNat 8 w) ≠ .ipOther (BitVec.ofNat 8 w) then some .ipproto
    else if decodeIcmpType (BitVec.ofNat 8 w) ≠ .icmpOther (BitVec.ofNat 8 w) then some .icmptype
    else some .ipproto
  else if nbits = 16 then
    if decodeEtype (BitVec.ofNat 16 w) ≠ .ethOther (BitVec.ofNat 16 w) then some .etype
    else if decodeArpOp (BitVec.ofNat 16 w) ≠ .arpBadOpcode (BitVec.ofNat 16 w) then some .arpop
    else some .etype
  else if nbits = 32 then some .cmd
  else none

/-- The instruction the decoder reads from a word of the opcode table (log entry 11). -/
def decodeTableWord (nbits w : Nat) : Option Instr :=
  match tableFormat nbits w with
  | some fmt => (decode fmt (BitVec.ofNat 32 w)).toOption
  | none => none

end Sys2Proof
end

