-- ==== Sys2Proof/Config.lean ====
section
/-! DEFINITION. What an implementation fixes and the free values: the parameters of 00_scope.md R8, and uninterpreted
constants for every value the spec leaves open. Nothing in Lean can compute or prove a value of an `opaque` constant
here, so a claim proved over the model holds whatever the value is. -/

namespace Sys2Proof

/-- The parameters of 00_scope.md R8 that the spec leaves OPEN: "fixed constants supplied by the surrounding process"
(10_state.md R23). `cacheCapacity = none` is the unbounded cache. -/
structure Params where
  localMac : Mac
  localIp : Ip
  isnConst : Word
  prefixLen : Nat
  maxFrameLen : Nat
  cacheCapacity : Option Nat
  extraStatic : List (Ip × Mac)
deriving DecidableEq, Repr, Inhabited

/-- What the surrounding process supplies (R8, R343 "configure"); `configured` (Machine/Cache.lean) makes it a legal
parameter set. Free value, log entry 1. -/
opaque Config.supplied : Params

/-- The unspecified bytes of `IN` (10_state.md R49, 93 I12): the byte of draw `d` at address `a` is
`Config.freeIn d a`. Free value, log entry 2. -/
opaque Config.freeIn : Nat → Nat → BitVec 8

/-- The unspecified bytes of `OUT` (R49, 20_memory.md R83, 93 I11, I12): the byte of draw `d` at address `a` is
`Config.freeOut d a`. Free value, log entries 2 and 3. -/
opaque Config.freeOut : Nat → Nat → BitVec 8

/-- How many host moves come between the acceptance of the `n`-th command and the engine's step for it: "a finite but
unbounded number of host moves" (70_reset_and_hazards.md R347, 93 I14). Free value, log entry 5. -/
opaque Config.engineDelay : Nat → Nat

/-- What `CACHE_COUNT` reads when the number of entries does not fit its 32 bits (10_state.md R38 states no value
there). Free value, log entry 9. -/
opaque Config.countOverflow : BitVec 32

end Sys2Proof
end

