-- ==== Sys2Proof/Machine/Cache.lean ====
section
/-! DEFINITION. The address-resolution cache (10_state.md R40 to R45): a finite map from IPv4 address to MAC address,
held as a list in one canonical form, its two operations (42_arp_cache.md R170 to R174), the initial cache (R43), and
the legal parameter set the block is configured with (00_scope.md R8). -/

namespace Sys2Proof.Machine

/-- The cache as data: (IPv4 address, MAC) pairs, keys strictly rising, so that equal maps are equal lists and no
result can depend on an order of entries (R40, R41). -/
abbrev Cache := List (Ip × Mac)

/-- The canonical form: keys strictly rising, hence unique (R40). -/
def cacheWf : Cache → Bool
  | [] => true
  | [_] => true
  | (k, _) :: (k', m') :: rest => decide (k.toNat < k'.toNat) && cacheWf ((k', m') :: rest)

/-- `cache.lookup(ip)` (42_arp_cache.md R171). -/
def cacheLookup : Cache → Ip → Option Mac
  | [], _ => none
  | (k, m) :: rest, ip => if k = ip then some m else cacheLookup rest ip

/-- `cache(ip) <- mac`: insert the binding or overwrite the one there, keeping the canonical form. -/
def cacheBind : Cache → Ip → Mac → Cache
  | [], ip, mac => [(ip, mac)]
  | (k, m) :: rest, ip, mac =>
    if ip.toNat < k.toNat then (ip, mac) :: (k, m) :: rest
    else if ip = k then (ip, mac) :: rest
    else (k, m) :: cacheBind rest ip mac

/-- What a cache update did (42_arp_cache.md R172). -/
inductive CacheOutcome where
  | inserted
  | changed
  | unchanged
  | full
deriving DecidableEq, Repr

/-- Whether the cache holds `CACHE_CAPACITY` entries (R172, R174); never when it is unbounded. -/
def cacheIsFull (capacity : Option Nat) (c : Cache) : Bool :=
  match capacity with
  | none => false
  | some n => n == c.length

/-- `cache.update(ip, mac)` (42_arp_cache.md R172). -/
def cacheUpdate (capacity : Option Nat) (c : Cache) (ip : Ip) (mac : Mac) : Cache × CacheOutcome :=
  match cacheLookup c ip with
  | none => if cacheIsFull capacity c then (c, .full) else (cacheBind c ip mac, .inserted)
  | some m => if m ≠ mac then (cacheBind c ip mac, .changed) else (c, .unchanged)

/-- `LOOPBACK_IP` = 127.0.0.1 (00_scope.md R8, D11). -/
def loopbackIp : Ip := 0x7F000001

/-- `LOOPBACK_MAC` = 00:00:00:00:00:00 (00_scope.md R8, D11). -/
def loopbackMac : Mac := 0

/-- The initial cache: loopback, then each extra static entry in list order, then the local binding, each overwriting
any earlier binding of its key (10_state.md R43). -/
def initialCache (p : Params) : Cache :=
  cacheBind (p.extraStatic.foldl (fun c e => cacheBind c e.1 e.2) (cacheBind [] loopbackIp loopbackMac))
    p.localIp p.localMac

/-- The parameter sets R8 allows: 74 ≤ `MAX_FRAME_LEN` ≤ 65535 (20_memory.md R61), `CACHE_CAPACITY` ≥ 2 or unbounded,
and an initial cache that the capacity holds (R42 with R43; log entry 10). -/
def legalParams (p : Params) : Bool :=
  decide (74 ≤ p.maxFrameLen) && decide (p.maxFrameLen ≤ 65535) &&
    match p.cacheCapacity with
    | none => true
    | some n => decide (2 ≤ n) && decide ((initialCache p).length ≤ n)

/-- A legal parameter set from any parameter set: what is supplied as `MAX_FRAME_LEN` is read as the room above the
least value 74, and a capacity below the least allowed is raised to it. Every legal parameter set arises from some
supplied one. Log entries 1 and 10. -/
def legalise (q : Params) : Params :=
  { q with
    maxFrameLen := min q.maxFrameLen 65461 + 74
    cacheCapacity := q.cacheCapacity.map fun n => n + max 2 (initialCache q).length }

/-- The parameters the block is configured with before reset (R8, R343 "configure"). -/
def configured : Params := legalise Config.supplied

end Sys2Proof.Machine
end

