-- ==== Sys2Proof/Machine/State.lean ====
section
/-! DEFINITION. The state of the block as plain data (10_state.md R22: the host-interface registers, the cache, `IN` and
`OUT`), the parameters it is configured with, the second agent (the host and its program), the reasons a step can stop,
and the state after reset (R49). -/

namespace Sys2Proof.Machine

/-- One of the two buffer spaces of 20_memory.md R60; bit `SP` of `ARG0` names them (30_encoding.md R95). -/
inductive Space where
  | inbound    -- `IN`
  | outbound   -- `OUT`
deriving DecidableEq, Repr

/-- The bytes of a buffer space that something has written, as (address, byte) pairs with addresses strictly rising.
An address that is not listed holds an unspecified byte (R49, R83). -/
abbrev Memory := List Host.Cell

/-- The canonical form of a buffer: addresses strictly rising. No entry equals what an unlisted address holds, since
that is no particular byte. -/
def Memory.wf : Memory → Bool
  | [] => true
  | [_] => true
  | (a, _) :: (a', b') :: rest => decide (a < a') && Memory.wf ((a', b') :: rest)

/-- `REPORT.CACHE_EVENT` (10_state.md R33, 42_arp_cache.md R173). -/
inductive CacheEvent where
  | none        -- 0
  | inserted    -- 1
  | changed     -- 2
  | unchanged   -- 3
deriving DecidableEq, Repr

/-- The fields of `REPORT` (10_state.md R33); its reserved bits hold nothing. -/
structure Report where
  disp : Disposition
  csumMismatch : Bool
  cacheEvent : CacheEvent
  cacheFull : Bool
deriving DecidableEq, Repr

/-- One move of the host (10_state.md R21, 70_reset_and_hazards.md R343): one bus transaction of 30_encoding.md R120,
the conditional branch `bz` of a host program, or reset. A register access says its width in bytes. -/
inductive HostMove where
  | regWrite (width offset : Nat) (value : BitVec 32)
  | regRead (width offset : Nat)
  | inWrite (addr : Nat) (value : BitVec 8)
  | inRead (addr : Nat)
  | outWrite (addr : Nat) (value : BitVec 8)
  | outRead (addr : Nat)
  | branchZero (offset bit target : Nat)
  | reset
deriving DecidableEq, Repr

/-- The state. The first group is the spec's (R22); `cfg` holds the parameters of 00_scope.md R8, which nothing writes
(log entry 1); the last group is the model's own: the free values and the host (log entries 2, 3, 5, 6). -/
structure State where
  opc : BitVec 8
  busy : Bool
  done : Bool
  err : Bool
  arg0 : BitVec 32
  arg1 : BitVec 32
  arg2 : BitVec 32
  arg3 : BitVec 32
  res0 : BitVec 32
  res1 : BitVec 32
  report : Report
  inLen : BitVec 16
  outLen : BitVec 16
  cache : Cache
  inMem : Memory
  outMem : Memory
  cfg : Params
  inDraw : Nat
  outDraw : Nat
  delay : Nat
  issued : Nat
  hostProg : List HostMove
  hostPc : Nat
  seen : List (BitVec 32)
deriving DecidableEq, Repr

/-- Why a step can stop with a fault. -/
inductive Fault where
  /-- Raised by the engine's buffer reads and writes (Machine/Ops.lean) when they would leave the `MAX_FRAME_LEN` bytes
  of the space, where 20_memory.md R66 does not define them. Safe: the hardware's `IN_LEN` and `OUT_LEN` never hold a
  length that leads there (R34, R61), and no state that meets `Inv` (Safety.lean) raises it. Log entry 7. -/
  | bufferRange
deriving DecidableEq, Repr

/-- Why a step can be refused. -/
inductive Refusal where
  /-- Raised by `exec` for an instruction that has no meaning yet; safe. No arm uses it. -/
  | notModelled (mnemonic : String)
  /-- Raised by the host's turn for a host access that has no move: another width than 32 bits, an unaligned offset or
  an offset of 0x100 or more in `REG` (10_state.md R27), or an address at or above `MAX_FRAME_LEN` in `IN` or `OUT`
  (20_memory.md R62). "Refuse, as a host move" (93 I15, I16). Safe for what the block does; it errs toward proving as
  R27 says. Log entry 8. -/
  | hostAccess
deriving DecidableEq, Repr

/-- The outcome of a meaning or a step. -/
abbrev Result := Host.Outcome State Fault Refusal

/-- `REPORT` after reset: 0, that is `OK` with every flag 0 (R49). -/
def Report.zero : Report :=
  { disp := .ok, csumMismatch := false, cacheEvent := .none, cacheFull := false }

/-- The state after reset under the parameters `p` (10_state.md R49): every register 0, the initial cache of R43, no
byte of `IN` or `OUT` written, no command latched, and a host that has no program. -/
def State.resetWith (p : Params) : State :=
  { opc := 0
    busy := false
    done := false
    err := false
    arg0 := 0
    arg1 := 0
    arg2 := 0
    arg3 := 0
    res0 := 0
    res1 := 0
    report := Report.zero
    inLen := 0
    outLen := 0
    cache := initialCache p
    inMem := []
    outMem := []
    cfg := p
    inDraw := 0
    outDraw := 0
    delay := 0
    issued := 0
    hostProg := []
    hostPc := 0
    seen := [] }

/-- The machine right after reset (R49), configured with what the surrounding process supplies. -/
def State.reset : State := State.resetWith configured

end Sys2Proof.Machine
end

