-- ==== Sys2Proof/Machine/Flags.lean ====
section
/-! DEFINITION. The flags (10_state.md R39): the disposition codes and their error classes (60_exceptions.md R303), the
fields of `REPORT` and `STATUS` and the words the host reads them as (10_state.md R30, R33), and what a cache update
reports (42_arp_cache.md R173, R174). -/

namespace Sys2Proof.Machine

/-- The code of a disposition (60_exceptions.md R303). -/
def dispCode : Disposition → BitVec 8
  | .ok => 0x00
  | .arpReply => 0x01
  | .icmpEchoReply => 0x02
  | .tcpSynAck => 0x03
  | .arpReplySeen => 0x10
  | .arpRequestNotLocal => 0x11
  | .arpUnsupported => 0x12
  | .icmpEchoReplySeen => 0x13
  | .icmpUnhandled => 0x14
  | .tcpUnhandled => 0x15
  | .ipv4Udp => 0x16
  | .ipv4Igmp => 0x17
  | .ipv4UnknownProto => 0x18
  | .ethUnsupportedType => 0x19
  | .ethTooShort => 0x20
  | .arpTooShort => 0x21
  | .arpBadOpcode => 0x22
  | .ipv4TooShort => 0x23
  | .ipv4BadVersion => 0x24
  | .ipv4BadIhl => 0x25
  | .icmpTooShort => 0x26
  | .tcpTooShort => 0x27
  | .tcpBadDataOffset => 0x28
  | .cmdIllegal => 0x30
  | .cmdRange => 0x31
  | .cmdCsumOdd => 0x32

/-- Whether a disposition is in the malformed class (0x20 to 0x2F) or the command-error class (0x30 to 0x3F): the
value `STATUS.ERR` has after the command (10_state.md R30). -/
def dispIsError (d : Disposition) : Bool :=
  decide (0x20 ≤ (dispCode d).toNat) && decide ((dispCode d).toNat ≤ 0x3F)

/-- The two bits of `REPORT.CACHE_EVENT` (10_state.md R33). -/
def cacheEventCode : CacheEvent → BitVec 2
  | .none => 0
  | .inserted => 1
  | .changed => 2
  | .unchanged => 3

/-- `REPORT.CACHE_EVENT` after a cache update: 0 when the update found no room (42_arp_cache.md R173, R174). -/
def cacheEventOf : CacheOutcome → CacheEvent
  | .inserted => .inserted
  | .changed => .changed
  | .unchanged => .unchanged
  | .full => .none

/-- `REPORT.CACHE_FULL` after a cache update (42_arp_cache.md R174). -/
def cacheFullOf : CacheOutcome → Bool
  | .inserted => false
  | .changed => false
  | .unchanged => false
  | .full => true

/-- A report with a disposition and every flag 0 (40_checksum.md R143 "`REPORT` = `DISP` only"). -/
def plainReport (d : Disposition) : Report :=
  { disp := d, csumMismatch := false, cacheEvent := .none, cacheFull := false }

/-- The word a read of `REPORT` returns: `DISP` [7:0], `CSUM_MISMATCH` [8], `CACHE_EVENT` [10:9], `CACHE_FULL` [11],
the rest 0 (10_state.md R33). -/
def reportWord (r : Report) : Word :=
  0#20 ++ BitVec.ofBool r.cacheFull ++ cacheEventCode r.cacheEvent ++ BitVec.ofBool r.csumMismatch ++ dispCode r.disp

/-- The word a read of `STATUS` returns: `BUSY` [0], `DONE` [1], `ERR` [2], the rest 0 (10_state.md R30). -/
def statusWord (s : State) : Word :=
  0#29 ++ BitVec.ofBool s.err ++ BitVec.ofBool s.done ++ BitVec.ofBool s.busy

end Sys2Proof.Machine
end

