-- ==== Sys2Proof/Machine/Ops.lean ====
section
/-! DEFINITION. The named operations every meaning shares: the buffers (20_memory.md R66, R67), the end of a command
(10_state.md R46), the command errors (60_exceptions.md R306), and the three ends of a `PROCESS` (47_dispatcher.md R274).
The block takes no trap and has no trap return (60_exceptions.md R307, R308): `commandError` and `raiseMalformed` are the
two ways it reports an error, and each is a next state. -/

namespace Sys2Proof.Machine

/-! ## Buffers -/

/-- The byte written at an address, if one was. -/
def memLookup : Memory → Nat → Option Byte
  | [], _ => none
  | (x, b) :: rest, a => if x = a then some b else memLookup rest a

/-- Write one byte, keeping the canonical form. -/
def memStore : Memory → Nat → Byte → Memory
  | [], a, b => [(a, b)]
  | (x, y) :: rest, a, b =>
    if a < x then (a, b) :: (x, y) :: rest
    else if a = x then (a, b) :: rest
    else (x, y) :: memStore rest a b

/-- Write a byte sequence at `a`, lowest address first. -/
def memStoreBytes : Memory → Nat → List Byte → Memory
  | m, _, [] => m
  | m, a, b :: bs => memStoreBytes (memStore m a b) (a + 1) bs

/-- The byte of a buffer at an address: the one written there, or else the unspecified byte of the draw in force
(10_state.md R49, 20_memory.md R83). Reading changes nothing (R73). -/
def byteAt (s : State) (sp : Space) (a : Nat) : Byte :=
  match sp with
  | .inbound => (memLookup s.inMem a).getD (Config.freeIn s.inDraw a)
  | .outbound => (memLookup s.outMem a).getD (Config.freeOut s.outDraw a)

/-- The bytes at `a` to `a + n - 1`. -/
def bytesAt (s : State) (sp : Space) (a n : Nat) : List Byte :=
  (List.range n).map fun i => byteAt s sp (a + i)

/-- `MemRead(space, a, n)`, "defined only when `a + n ≤ MAX_FRAME_LEN`" (20_memory.md R66). -/
def memRead (s : State) (sp : Space) (a n : Nat) : Option (List Byte) :=
  if s.cfg.maxFrameLen < a + n then none else some (bytesAt s sp a n)

/-- Go on with a view, or stop where the view is not defined (R66, R67; log entry 7). -/
def withView (v : Option (List Byte)) (k : List Byte → Result) : Result :=
  match v with
  | none => .fault .bufferRange
  | some b => k b

/-! ## The end of a command -/

/-- The end of every command: the results, every field of `REPORT`, `STATUS.ERR`, `BUSY <- 0`, `DONE <- 1`
(10_state.md R30, R32, R33, R46). -/
def endCommand (s : State) (r : Report) (res0 res1 : Word) (err : Bool) : State :=
  { s with res0 := res0, res1 := res1, report := r, err := err, busy := false, done := true }

/-- A command error: `REPORT.DISP <- code` with every flag 0, `STATUS.ERR <- 1`, `RES0`, `RES1 <- 0`, and nothing else
changes (60_exceptions.md R306). -/
def commandError (s : State) (code : Disposition) : Result :=
  .next (endCommand s (plainReport code) 0 0 true)

/-- A command other than `PROCESS` completes with `OK` (R303), a report and two results. -/
def commandOk (s : State) (r : Report) (res0 res1 : Word) : Result :=
  .next (endCommand s r res0 res1 false)

/-- The step of a latched command whose opcode is in no row of the opcode map (30_encoding.md R93, 60_exceptions.md
R306): found before any operand is read. -/
def illegalCommand (s : State) : Result := commandError s .cmdIllegal

/-! ## The ends of `PROCESS` -/

/-- `OUT` with no byte specified any more: every `PROCESS` leaves the bytes it does not write unspecified, drawn afresh
(20_memory.md R83; log entry 3). -/
def forgetOut (s : State) : State := { s with outMem := [], outDraw := s.outDraw + 1 }

/-- `emit(code, r)`: the reply at `OUT` 0, its length, `(should_send, outbound_length) = (true, len(r))`
(47_dispatcher.md R274). `MemWrite` is defined only up to `MAX_FRAME_LEN` (20_memory.md R66; log entry 7). -/
def emitReply (s : State) (rep : Report) (r : List Byte) : Result :=
  if s.cfg.maxFrameLen < r.length then .fault .bufferRange
  else .next
    { endCommand (forgetOut s) rep 1 (BitVec.ofNat 32 r.length) false with
      outMem := memStoreBytes [] 0 r, outLen := BitVec.ofNat 16 r.length }

/-- `finish(code)`: no reply, not an error (47_dispatcher.md R274, 60_exceptions.md R302). -/
def finishQuiet (s : State) (rep : Report) : Result :=
  .next { endCommand (forgetOut s) rep 0 0 false with outLen := 0 }

/-- `raise Malformed(code)`: no reply, an error (47_dispatcher.md R274, 60_exceptions.md R301). -/
def raiseMalformed (s : State) (rep : Report) : Result :=
  .next { endCommand (forgetOut s) rep 0 0 true with outLen := 0 }

/-- How a `PROCESS` ends (R274). -/
inductive Ending where
  | emit (code : Disposition) (reply : List Byte)
  | finish (code : Disposition)
  | raise (code : Disposition)
deriving DecidableEq, Repr

/-- The disposition of an ending (R274: all three write `REPORT.DISP <- code`). -/
def endingCode : Ending → Disposition
  | .emit d _ => d
  | .finish d => d
  | .raise d => d

/-- What one `PROCESS` did up to its end: the flags already written in the step and the cache as it left it. -/
structure Run where
  ending : Ending
  csumMismatch : Bool
  cacheEvent : CacheEvent
  cacheFull : Bool
  cache : Cache
deriving DecidableEq, Repr

/-- A run that has written no flag and not touched the cache. -/
def plainRun (c : Cache) (e : Ending) : Run :=
  { ending := e, csumMismatch := false, cacheEvent := .none, cacheFull := false, cache := c }

/-- The report of a run: "flags already written in the step are kept by all three" ends (R274). -/
def runReport (r : Run) : Report :=
  { disp := endingCode r.ending, csumMismatch := r.csumMismatch, cacheEvent := r.cacheEvent, cacheFull := r.cacheFull }

/-- End a `PROCESS` (47_dispatcher.md R274): the cache as the run left it, and its ending. -/
def endProcess (s : State) (r : Run) : Result :=
  match r.ending with
  | .emit _ reply => emitReply { s with cache := r.cache } (runReport r) reply
  | .finish _ => finishQuiet { s with cache := r.cache } (runReport r)
  | .raise _ => raiseMalformed { s with cache := r.cache } (runReport r)

end Sys2Proof.Machine
end

