-- ==== Sys2Proof/Machine/Operands.lean ====
section
/-! DEFINITION. The operand forms: the fields of `ARG0` to `ARG3` (30_encoding.md R95, R96), the views of the checksum
commands and of `PROCESS` (20_memory.md R67, R69; 47_dispatcher.md R271), and the decodes every frame class repeats
before its own key is read (30_encoding.md R108). -/

namespace Sys2Proof.Machine

/-! ## Argument fields (R95, R96) -/

/-- `OFF = ARG0[15:0]`, a byte count. -/
def argOff (s : State) : Nat := (s.arg0.extractLsb' 0 16).toNat

/-- `SP = ARG0[16]`: 0 is `IN`, 1 is `OUT`. -/
def argSpace (s : State) : Space := if s.arg0.getLsbD 16 then .outbound else .inbound

/-- `LEN = ARG1[15:0]`, a byte count. -/
def argLen (s : State) : Nat := (s.arg1.extractLsb' 0 16).toNat

/-- `mac = be16(ARG0[15:0]) ++ be32(ARG1)`. -/
def argMac (s : State) : Mac := s.arg0.extractLsb' 0 16 ++ s.arg1

/-- `ip = be32(ARG2)`: the key of the cache commands, and the source of `CSUM_PSEUDO`. -/
def argIp (s : State) : Ip := s.arg2

/-- `be32(ARG3)`: the destination of `CSUM_PSEUDO`. -/
def argDst (s : State) : Ip := s.arg3

/-- `RES0` of a MAC result that was found: `0x00010000 | rd16(m, 0)` (R95, R96, 42_arp_cache.md R175). -/
def macResHigh (m : Mac) : Word := 1#16 ++ m.extractLsb' 32 16

/-- `RES1` of a MAC result: `rd32(m, 2)` (R96). -/
def macResLow (m : Mac) : Word := m.extractLsb' 0 32

/-! ## Views -/

/-- The limit of a checksum view: the valid length of its space (20_memory.md R69, 40_checksum.md R141). -/
def validLen (s : State) (sp : Space) : Nat :=
  match sp with
  | .inbound => s.inLen.toNat
  | .outbound => s.outLen.toNat

/-- Whether the range of a checksum command goes beyond the valid data (40_checksum.md R141). -/
def csumOutOfRange (s : State) : Bool := decide (validLen s (argSpace s) < argOff s + argLen s)

/-- `view(SP, OFF, LEN)` (40_checksum.md R141). -/
def csumView (s : State) : Option (List Byte) := memRead s (argSpace s) (argOff s) (argLen s)

/-- `frame_view()`: what follows the link-layer preamble in the valid part of `IN` (47_dispatcher.md R271). -/
def frameView (s : State) : Option (List Byte) :=
  if s.cfg.prefixLen < s.inLen.toNat then memRead s .inbound s.cfg.prefixLen (s.inLen.toNat - s.cfg.prefixLen)
  else some []

/-! ## The decodes before a key -/

/-- Go on with a decoded header, or end with its malformed disposition (60_exceptions.md R301). -/
def orMalformed {α : Type} (d : Except Disposition α) (c : Cache) (k : α → Run) : Run :=
  match d with
  | .error code => plainRun c (.raise code)
  | .ok h => k h

/-- The decodes before the key `ethertype`: the frame view and the Ethernet header (47_dispatcher.md R270). -/
def onFrame (s : State) (k : EthHeader → List Byte → Run) : Result :=
  withView (frameView s) fun f => endProcess s (orMalformed (ethDecode f) s.cache fun eth => k eth f)

/-- The decodes before the key `ARPOP` (43_arp.md R190, R192). -/
def onArp (s : State) (k : EthHeader → ArpMessage → Run) : Result :=
  onFrame s fun eth f => orMalformed (arpDecode (f.drop 14)) s.cache fun m => k eth m

end Sys2Proof.Machine
end

