-- ==== Sys2Proof/Machine/CacheCommands.lean ====
section
/-! DEFINITION. The cache commands `CACHE_LOOKUP` and `CACHE_UPDATE` (42_arp_cache.md R175, R176). -/

namespace Sys2Proof.Machine

/-- `RES0` of a lookup: `FOUND` and MAC bytes 0 and 1, or 0 (R175). -/
def lookupRes0 (r : Option Mac) : Word :=
  match r with
  | some m => macResHigh m
  | none => 0

/-- `RES1` of a lookup: MAC bytes 2 to 5, or 0 (R175). -/
def lookupRes1 (r : Option Mac) : Word :=
  match r with
  | some m => macResLow m
  | none => 0

/-- `CACHE_LOOKUP` (R175): the binding of the key in `ARG2`. -/
def execCacheLookup (s : State) : Result :=
  commandOk s (plainReport .ok) (lookupRes0 (cacheLookup s.cache (argIp s))) (lookupRes1 (cacheLookup s.cache (argIp s)))

/-- The report of an update made by a command (42_arp_cache.md R173, R174). -/
def updateReport (o : CacheOutcome) : Report :=
  { disp := .ok, csumMismatch := false, cacheEvent := cacheEventOf o, cacheFull := cacheFullOf o }

/-- `CACHE_UPDATE` (R176): merge the binding of `ARG2` to the MAC in `ARG0`, `ARG1`. A full cache is not an error. -/
def execCacheUpdate (s : State) : Result :=
  let r := cacheUpdate s.cfg.cacheCapacity s.cache (argIp s) (argMac s)
  commandOk { s with cache := r.1 } (updateReport r.2) 0 0

end Sys2Proof.Machine
end

