-- ==== Sys2Proof/Machine/Checksum.lean ====
section
/-! DEFINITION. The Checksum Engine (40_checksum.md): the functions of R140, R142 and R145, and the commands `CSUM16`,
`CSUM16P` and `CSUM_PSEUDO`. -/

namespace Sys2Proof.Machine

/-- The raw sum of R140: the 16-bit big-endian words at even offsets, an odd last byte as the high byte of a word. -/
def wordSum : List Byte → Nat
  | [] => 0
  | [a] => a.toNat * 256
  | a :: b :: rest => (a.toNat * 256 + b.toNat) + wordSum rest

/-- The loop of R140, `while s > 0xFFFF: s <- (s & 0xFFFF) + (s >> 16)`, with a bound on its turns. -/
def foldCarry : Nat → Nat → Nat
  | 0, s => s
  | turns + 1, s => if 0xFFFF < s then foldCarry turns ((s &&& 0xFFFF) + (s >>> 16)) else s

/-- `sum16p(b)` (R140). Each turn of the loop lowers the sum, so the sum itself bounds the turns. -/
def sum16p (b : List Byte) : Nat := foldCarry (wordSum b) (wordSum b)

/-- `csum16p(b) = 0xFFFF - sum16p(b)` (R142). -/
def csum16p (b : List Byte) : Half := BitVec.ofNat 16 (0xFFFF - sum16p b)

/-- `csum16(b)`: `csum16p(b)` on an even length, undefined (`none`) on an odd one (R142). -/
def csum16 (b : List Byte) : Option Half := if b.length % 2 = 0 then some (csum16p b) else none

/-- The 12-byte pseudo-header (40_checksum.md R145, 30_encoding.md R106). -/
def pseudoHeader (src dst : Ip) (n : Nat) : List Byte := be32 src ++ be32 dst ++ [0x00, 0x06] ++ be16 (BitVec.ofNat 16 n)

/-- `tcpsum(src, dst, seg)` (R145). -/
def tcpsum (src dst : Ip) (seg : List Byte) : Half := csum16p (pseudoHeader src dst seg.length ++ seg)

/-- The results of a checksum command: `RES0` the checksum, `RES1` the folded sum (30_encoding.md R95). -/
def csumResult (s : State) (csum : Half) (sum : Nat) : Result :=
  commandOk s (plainReport .ok) (csum.setWidth 32) (BitVec.ofNat 32 sum)

/-- `CSUM16` (R143): the range check, then the odd length, then the checksum (60_exceptions.md R311). -/
def execCsum16 (s : State) : Result :=
  if csumOutOfRange s then commandError s .cmdRange
  else withView (csumView s) fun b =>
    match csum16 b with
    | none => commandError s .cmdCsumOdd
    | some c => csumResult s c (sum16p b)

/-- `CSUM16P` (R144). -/
def execCsum16p (s : State) : Result :=
  if csumOutOfRange s then commandError s .cmdRange
  else withView (csumView s) fun b => csumResult s (csum16p b) (sum16p b)

/-- `CSUM_PSEUDO` (R146): `src = be32(ARG2)`, `dst = be32(ARG3)`. -/
def execCsumPseudo (s : State) : Result :=
  if csumOutOfRange s then commandError s .cmdRange
  else withView (csumView s) fun seg =>
    csumResult s (tcpsum (argIp s) (argDst s) seg) (sum16p (pseudoHeader (argIp s) (argDst s) (argLen s) ++ seg))

end Sys2Proof.Machine
end

