-- ==== Sys2Proof/Machine/Ethernet.lean ====
section
/-! DEFINITION. The Ethernet Codec's builder (41_ethernet.md R161); its decoder is `ethDecode` (Decode.lean), and it
filters nothing (R163). -/

namespace Sys2Proof.Machine

/-- `eth_build_reply(h)` (R161): to the original source, from `LOCAL_MAC`, the ether-type kept (90_conflicts.md C1). -/
def ethBuildReply (p : Params) (h : EthHeader) : List Byte := macBytes h.src ++ macBytes p.localMac ++ be16 h.ethertype

end Sys2Proof.Machine
end

