-- ==== Sys2Proof/Machine/Arp.lean ====
section
/-! DEFINITION. The ARP Resolver (43_arp.md): the merge, the reply message, and the classes of the format `ARPOP`. -/

namespace Sys2Proof.Machine

/-- `arp_reply(m)` (R195): opcode 2, metadata copied, sender the local identity, target the requester (90_conflicts.md
C2). -/
def arpReplyMessage (p : Params) (m : ArpMessage) : List Byte :=
  be16 m.hardwareType ++ be16 m.protoType ++ [m.hardwareSize, m.protoSize] ++ be16 2
    ++ macBytes p.localMac ++ be32 p.localIp ++ macBytes m.senderMac ++ be32 m.senderIp

/-- Step 4 of `arp_handle`: the merge, made for every message that passed steps 1 and 2, whatever its opcode and
whatever its target, and reported in the flags (R193); then the ending. -/
def arpMerge (p : Params) (c : Cache) (m : ArpMessage) (e : Ending) : Run :=
  let r := cacheUpdate p.cacheCapacity c m.senderIp m.senderMac
  { ending := e
    csumMismatch := false
    cacheEvent := cacheEventOf r.2
    cacheFull := cacheFullOf r.2
    cache := r.1 }

/-- Opcode 1 (R194, R196): answered when the target is `LOCAL_IP`, in a flipped Ethernet header (47_dispatcher.md R273). -/
def arpRequestRun (p : Params) (c : Cache) (eth : EthHeader) (m : ArpMessage) : Run :=
  arpMerge p c m
    (if m.targetIp = p.localIp then .emit .arpReply (ethBuildReply p eth ++ arpReplyMessage p m)
     else .finish .arpRequestNotLocal)

/-- Opcode 2 (R197). -/
def arpReplyRun (p : Params) (c : Cache) (m : ArpMessage) : Run := arpMerge p c m (.finish .arpReplySeen)

/-- Opcode 3 (R198). -/
def arpRarpRequestRun (p : Params) (c : Cache) (m : ArpMessage) : Run := arpMerge p c m (.finish .arpUnsupported)

/-- Opcode 4 (R198). -/
def arpRarpReplyRun (p : Params) (c : Cache) (m : ArpMessage) : Run := arpMerge p c m (.finish .arpUnsupported)

/-- Opcode 0 or 5 to 65535 (R191): malformed, no merge (90_conflicts.md C4). -/
def arpBadOpcodeRun (c : Cache) : Run := plainRun c (.raise .arpBadOpcode)

/-- Dispatch on the opcode of a decoded message (30_encoding.md R109, R114). -/
def arpDispatch (p : Params) (c : Cache) (eth : EthHeader) (m : ArpMessage) : Run :=
  if m.opcode = 1 then arpRequestRun p c eth m
  else if m.opcode = 2 then arpReplyRun p c m
  else if m.opcode = 3 then arpRarpRequestRun p c m
  else if m.opcode = 4 then arpRarpReplyRun p c m
  else arpBadOpcodeRun c

/-- The class `ARP_REQUEST` (R194, R196). -/
def execArpRequest (s : State) : Result := onArp s fun eth m => arpRequestRun s.cfg s.cache eth m

/-- The class `ARP_REPLY` (R197). -/
def execArpReply (s : State) : Result := onArp s fun _ m => arpReplyRun s.cfg s.cache m

/-- The class `ARP_RARP_REQUEST` (R198). -/
def execArpRarpRequest (s : State) : Result := onArp s fun _ m => arpRarpRequestRun s.cfg s.cache m

/-- The class `ARP_RARP_REPLY` (R198). -/
def execArpRarpReply (s : State) : Result := onArp s fun _ m => arpRarpReplyRun s.cfg s.cache m

/-- The class `ARP_BAD_OPCODE` (R191), whichever opcode it is. -/
def execArpBadOpcode (_key : BitVec 16) (s : State) : Result := onArp s fun _ _ => arpBadOpcodeRun s.cache

end Sys2Proof.Machine
end

