-- ==== Sys2Proof/Machine/Ipv4.lean ====
section
/-! DEFINITION. The IPv4 Codec (44_ipv4.md): the checksum verification, the reply header, and the classes of the format
`IPPROTO` that need no upper layer. Its decoder is `ipv4Decode` (Decode.lean). -/

namespace Sys2Proof.Machine

/-- `REPORT.CSUM_MISMATCH`: `csum16` over the first 20 bytes, the stored checksum included, is not 0 (R213,
90_conflicts.md C5). The length 20 is even, so `csum16` is defined (40_checksum.md R147). -/
def headerMismatch (h : Ipv4Header) : Bool := csum16 h.raw20 != some 0

/-- `ipv4_build_reply_header(hdr)` (R215): the 20 bytes with the addresses exchanged and the checksum recomputed, all
else copied (R216). `csum16` of these 20 bytes is `csum16p` of them (40_checksum.md R142). -/
def ipv4BuildReplyHeader (h : Ipv4Header) : List Byte :=
  let r := patch (patch (patch h.raw20 12 (be32 h.destIp)) 16 (be32 h.sourceIp)) 10 (zeros 2)
  patch r 10 (be16 (csum16p r))

/-- The run of an IPv4 frame: the checksum flag, and a cache that is neither read nor written (R213, R218). -/
def ipv4Run (c : Cache) (h : Ipv4Header) (e : Ending) : Run :=
  { ending := e, csumMismatch := headerMismatch h, cacheEvent := .none, cacheFull := false, cache := c }

/-- The decodes before the key `IPPROTO`, and the flag written on the way (47_dispatcher.md R270, R275): the class then
gives its ending from the Ethernet header, the IPv4 header and the upper-layer view of R212. -/
def onIpv4 (s : State) (k : EthHeader → Ipv4Header → List Byte → Ending) : Result :=
  onFrame s fun eth f =>
    orMalformed (ipv4Decode (f.drop 14)) s.cache fun h => ipv4Run s.cache h (k eth h (upperView h (f.drop 14)))

/-- Protocol 17 (R214). -/
def ipUdpEnding : Ending := .finish .ipv4Udp

/-- Protocol 2 (R214). -/
def ipIgmpEnding : Ending := .finish .ipv4Igmp

/-- Any protocol but 1, 2, 6, 17 (R214). -/
def ipOtherEnding : Ending := .finish .ipv4UnknownProto

/-- The class `IP_UDP` (R214). -/
def execIpUdp (s : State) : Result := onIpv4 s fun _ _ _ => ipUdpEnding

/-- The class `IP_IGMP` (R214). -/
def execIpIgmp (s : State) : Result := onIpv4 s fun _ _ _ => ipIgmpEnding

/-- The class `IP_OTHER` (R214), whichever protocol it is. -/
def execIpOther (_key : BitVec 8) (s : State) : Result := onIpv4 s fun _ _ _ => ipOtherEnding

end Sys2Proof.Machine
end

