-- ==== Sys2Proof/Machine/Icmp.lean ====
section
/-! DEFINITION. The ICMP Echo Responder (45_icmp.md): the echo reply and the classes `IP_ICMP` and of the format
`ICMPTYPE`. The inbound checksum and code take no part (R237). -/

namespace Sys2Proof.Machine

/-- `icmp_reply(u)` (R233): type 0, code 0, everything from offset 4 copied, the checksum over the whole message. -/
def icmpReply (u : List Byte) : List Byte :=
  let r := zeros 4 ++ u.drop 4
  patch r 2 (be16 (csum16p r))

/-- The echo reply frame (R234). -/
def echoReplyFrame (p : Params) (eth : EthHeader) (h : Ipv4Header) (u : List Byte) : List Byte :=
  ethBuildReply p eth ++ ipv4BuildReplyHeader h ++ icmpReply u

/-- Go on with a decoded upper-layer message, or end with its malformed disposition (60_exceptions.md R301). -/
def orRaise {α : Type} (d : Except Disposition α) (k : α → Ending) : Ending :=
  match d with
  | .error code => .raise code
  | .ok h => k h

/-- Type 8 (R233). -/
def echoRequestEnding (p : Params) (eth : EthHeader) (h : Ipv4Header) (u : List Byte) : Ending :=
  .emit .icmpEchoReply (echoReplyFrame p eth h u)

/-- Type 0 (R235). -/
def echoReplyEnding : Ending := .finish .icmpEchoReplySeen

/-- Type 3 (R236). -/
def icmpType3Ending : Ending := .finish .icmpUnhandled

/-- Type 4 (R236). -/
def icmpType4Ending : Ending := .finish .icmpUnhandled

/-- Type 5 (R236). -/
def icmpType5Ending : Ending := .finish .icmpUnhandled

/-- Type 9 (R236). -/
def icmpType9Ending : Ending := .finish .icmpUnhandled

/-- Type 10 (R236). -/
def icmpType10Ending : Ending := .finish .icmpUnhandled

/-- Type 11 (R236). -/
def icmpType11Ending : Ending := .finish .icmpUnhandled

/-- Type 12 (R236). -/
def icmpType12Ending : Ending := .finish .icmpUnhandled

/-- Every unknown type (R236). -/
def icmpOtherEnding : Ending := .finish .icmpUnhandled

/-- Step 3 of `icmp_handle`: dispatch on the type (R232, 30_encoding.md R109). -/
def icmpDispatch (p : Params) (eth : EthHeader) (h : Ipv4Header) (u : List Byte) (m : IcmpMessage) : Ending :=
  if m.type = 8 then echoRequestEnding p eth h u
  else if m.type = 0 then echoReplyEnding
  else if m.type = 3 then icmpType3Ending
  else if m.type = 4 then icmpType4Ending
  else if m.type = 5 then icmpType5Ending
  else if m.type = 9 then icmpType9Ending
  else if m.type = 10 then icmpType10Ending
  else if m.type = 11 then icmpType11Ending
  else if m.type = 12 then icmpType12Ending
  else icmpOtherEnding

/-- `icmp_handle(u, hdr, eth)` (R230 to R236). -/
def icmpHandle (p : Params) (eth : EthHeader) (h : Ipv4Header) (u : List Byte) : Ending :=
  orRaise (icmpDecode u) fun m => icmpDispatch p eth h u m

/-- The decodes before the key `ICMPTYPE` (R230). -/
def onIcmp (s : State) (k : EthHeader → Ipv4Header → List Byte → Ending) : Result :=
  onIpv4 s fun eth h u => orRaise (icmpDecode u) fun _ => k eth h u

/-- The class `IP_ICMP` (R232). -/
def execIpIcmp (s : State) : Result := onIpv4 s fun eth h u => icmpHandle s.cfg eth h u

/-- The class `ICMP_ECHO_REQUEST` (R233, R234). -/
def execIcmpEchoRequest (s : State) : Result := onIcmp s fun eth h u => echoRequestEnding s.cfg eth h u

/-- The class `ICMP_ECHO_REPLY` (R235). -/
def execIcmpEchoReply (s : State) : Result := onIcmp s fun _ _ _ => echoReplyEnding

/-- The class `ICMP_TYPE_3` (R236). -/
def execIcmpType3 (s : State) : Result := onIcmp s fun _ _ _ => icmpType3Ending

/-- The class `ICMP_TYPE_4` (R236). -/
def execIcmpType4 (s : State) : Result := onIcmp s fun _ _ _ => icmpType4Ending

/-- The class `ICMP_TYPE_5` (R236). -/
def execIcmpType5 (s : State) : Result := onIcmp s fun _ _ _ => icmpType5Ending

/-- The class `ICMP_TYPE_9` (R236). -/
def execIcmpType9 (s : State) : Result := onIcmp s fun _ _ _ => icmpType9Ending

/-- The class `ICMP_TYPE_10` (R236). -/
def execIcmpType10 (s : State) : Result := onIcmp s fun _ _ _ => icmpType10Ending

/-- The class `ICMP_TYPE_11` (R236). -/
def execIcmpType11 (s : State) : Result := onIcmp s fun _ _ _ => icmpType11Ending

/-- The class `ICMP_TYPE_12` (R236). -/
def execIcmpType12 (s : State) : Result := onIcmp s fun _ _ _ => icmpType12Ending

/-- The class `ICMP_OTHER` (R236), whichever type it is. -/
def execIcmpOther (_key : BitVec 8) (s : State) : Result := onIcmp s fun _ _ _ => icmpOtherEnding

end Sys2Proof.Machine
end

