-- ==== Sys2Proof/Machine/Tcp.lean ====
section
/-! DEFINITION. The TCP Handshake Handler (46_tcp.md): the SYN-ACK and the classes `IP_TCP`, `TCP_PURE_SYN` and
`TCP_OTHER`. Nothing is stored and the inbound checksum is not verified (R259). -/

namespace Sys2Proof.Machine

/-- The reply's sequence number (R256). -/
def synAckSeq (p : Params) (t : TcpHeader) : Word := if t.ack = 0 then p.isnConst else t.ack + 1

/-- The 40-byte reply header with its checksum field zeroed (R255, R257): ports exchanged, acknowledgment number
`seq + 1` mod 2^32, data offset 10, reserved bits copied, NS 0, flags SYN+ACK, window and urgent pointer copied, a zero
option region. -/
def synAckBody (p : Params) (t : TcpHeader) : List Byte :=
  be16 t.dport ++ be16 t.sport ++ be32 (synAckSeq p t) ++ be32 (t.seq + 1)
    ++ [10#4 ++ t.reserved ++ 0#1, 0x12] ++ be16 t.window ++ zeros 2 ++ be16 t.urgent ++ zeros 20

/-- `syn_ack(t, hdr)` (R255): the header with its checksum under the reply's own pseudo-header (R258). -/
def synAck (p : Params) (t : TcpHeader) (h : Ipv4Header) : List Byte :=
  patch (synAckBody p t) 16 (be16 (tcpsum h.destIp h.sourceIp (synAckBody p t)))

/-- The SYN-ACK frame (R258). -/
def synAckFrame (p : Params) (eth : EthHeader) (h : Ipv4Header) (t : TcpHeader) : List Byte :=
  ethBuildReply p eth ++ ipv4BuildReplyHeader h ++ synAck p t h

/-- A pure SYN (R255). -/
def pureSynEnding (p : Params) (eth : EthHeader) (h : Ipv4Header) (t : TcpHeader) : Ending :=
  .emit .tcpSynAck (synAckFrame p eth h t)

/-- Any other flag combination (R254). -/
def tcpOtherEnding : Ending := .finish .tcpUnhandled

/-- Classification (R253): the nine flags decide, the reserved bits and the acknowledgment number do not (90_conflicts.md
C6). -/
def tcpDispatch (p : Params) (eth : EthHeader) (h : Ipv4Header) (t : TcpHeader) : Ending :=
  if t.flags9 = 0x002 then pureSynEnding p eth h t else tcpOtherEnding

/-- `tcp_handle(u, hdr, eth)` (47_dispatcher.md R270, 46_tcp.md R250 to R258). -/
def tcpHandle (p : Params) (eth : EthHeader) (h : Ipv4Header) (u : List Byte) : Ending :=
  orRaise (tcpDecode u) fun t => tcpDispatch p eth h t

/-- The decodes before the key `TCPFLAGS` (R250). -/
def onTcp (s : State) (k : EthHeader → Ipv4Header → TcpHeader → Ending) : Result :=
  onIpv4 s fun eth h u => orRaise (tcpDecode u) fun t => k eth h t

/-- The class `IP_TCP` (R253). -/
def execIpTcp (s : State) : Result := onIpv4 s fun eth h u => tcpHandle s.cfg eth h u

/-- The class `TCP_PURE_SYN` (R255). -/
def execTcpPureSyn (s : State) : Result := onTcp s fun eth h t => pureSynEnding s.cfg eth h t

/-- The class `TCP_OTHER` (R254), whichever flags they are. -/
def execTcpOther (_key : BitVec 9) (s : State) : Result := onTcp s fun _ _ _ => tcpOtherEnding

end Sys2Proof.Machine
end

