-- ==== Sys2Proof/Machine/Dispatcher.lean ====
section
/-! DEFINITION. The Packet Dispatcher (47_dispatcher.md): the classes of the format `ETYPE` and the command `PROCESS`. -/

namespace Sys2Proof.Machine

/-- Protocol dispatch of a decoded IPv4 header (R270, 44_ipv4.md R214). -/
def ipv4Dispatch (p : Params) (eth : EthHeader) (h : Ipv4Header) (u : List Byte) : Ending :=
  if h.protocol = 1 then icmpHandle p eth h u
  else if h.protocol = 6 then tcpHandle p eth h u
  else if h.protocol = 17 then ipUdpEnding
  else if h.protocol = 2 then ipIgmpEnding
  else ipOtherEnding

/-- The ARP path (R273): `arp_handle(f[14 .. len(f)))` (43_arp.md R190 to R198). -/
def ethArpRun (p : Params) (c : Cache) (eth : EthHeader) (f : List Byte) : Run :=
  orMalformed (arpDecode (f.drop 14)) c fun m => arpDispatch p c eth m

/-- The IPv4 path (R275). -/
def ethIpv4Run (p : Params) (c : Cache) (eth : EthHeader) (f : List Byte) : Run :=
  orMalformed (ipv4Decode (f.drop 14)) c fun h => ipv4Run c h (ipv4Dispatch p eth h (upperView h (f.drop 14)))

/-- Any other ether-type (R277): no output, no cache access, not an error. -/
def ethOtherRun (c : Cache) : Run := plainRun c (.finish .ethUnsupportedType)

/-- Ether-type dispatch (R272). -/
def ethDispatch (p : Params) (c : Cache) (eth : EthHeader) (f : List Byte) : Run :=
  if eth.ethertype = 0x0806 then ethArpRun p c eth f
  else if eth.ethertype = 0x0800 then ethIpv4Run p c eth f
  else ethOtherRun c

/-- The class `ETH_ARP` (R273). -/
def execEthArp (s : State) : Result := onFrame s fun eth f => ethArpRun s.cfg s.cache eth f

/-- The class `ETH_IPV4` (R275). -/
def execEthIpv4 (s : State) : Result := onFrame s fun eth f => ethIpv4Run s.cfg s.cache eth f

/-- The class `ETH_OTHER` (R277), whichever ether-type it is. -/
def execEthOther (_key : BitVec 16) (s : State) : Result := onFrame s fun _ _ => ethOtherRun s.cache

/-- `PROCESS` (R270): the one frame in `IN`, in one indivisible step. -/
def execProcess (s : State) : Result := onFrame s fun eth f => ethDispatch s.cfg s.cache eth f

end Sys2Proof.Machine
end

