-- ==== Sys2Proof/Machine/Dispatch.lean ====
section
/-! DEFINITION. The dispatch: one arm per instruction, each one call of its meaning. -/

namespace Sys2Proof.Machine

def exec (i : Instr) (s : State) : Host.Outcome State Fault Refusal :=
  match i with
  | .csum16 => Sys2Proof.Machine.execCsum16 s
  | .csum16p => Sys2Proof.Machine.execCsum16p s
  | .csumPseudo => Sys2Proof.Machine.execCsumPseudo s
  | .cacheLookup => Sys2Proof.Machine.execCacheLookup s
  | .cacheUpdate => Sys2Proof.Machine.execCacheUpdate s
  | .process => Sys2Proof.Machine.execProcess s
  | .ethArp => Sys2Proof.Machine.execEthArp s
  | .ethIpv4 => Sys2Proof.Machine.execEthIpv4 s
  | .ethOther key => Sys2Proof.Machine.execEthOther key s
  | .arpRequest => Sys2Proof.Machine.execArpRequest s
  | .arpReply => Sys2Proof.Machine.execArpReply s
  | .arpRarpRequest => Sys2Proof.Machine.execArpRarpRequest s
  | .arpRarpReply => Sys2Proof.Machine.execArpRarpReply s
  | .arpBadOpcode key => Sys2Proof.Machine.execArpBadOpcode key s
  | .ipIcmp => Sys2Proof.Machine.execIpIcmp s
  | .ipIgmp => Sys2Proof.Machine.execIpIgmp s
  | .ipTcp => Sys2Proof.Machine.execIpTcp s
  | .ipUdp => Sys2Proof.Machine.execIpUdp s
  | .ipOther key => Sys2Proof.Machine.execIpOther key s
  | .icmpEchoRequest => Sys2Proof.Machine.execIcmpEchoRequest s
  | .icmpEchoReply => Sys2Proof.Machine.execIcmpEchoReply s
  | .icmpType3 => Sys2Proof.Machine.execIcmpType3 s
  | .icmpType4 => Sys2Proof.Machine.execIcmpType4 s
  | .icmpType5 => Sys2Proof.Machine.execIcmpType5 s
  | .icmpType9 => Sys2Proof.Machine.execIcmpType9 s
  | .icmpType10 => Sys2Proof.Machine.execIcmpType10 s
  | .icmpType11 => Sys2Proof.Machine.execIcmpType11 s
  | .icmpType12 => Sys2Proof.Machine.execIcmpType12 s
  | .icmpOther key => Sys2Proof.Machine.execIcmpOther key s
  | .tcpPureSyn => Sys2Proof.Machine.execTcpPureSyn s
  | .tcpOther key => Sys2Proof.Machine.execTcpOther key s

end Sys2Proof.Machine
end

