-- ==== Sys2Proof/Machine/HostBus.lean ====
section
/-! DEFINITION. The host's moves (10_state.md R21, 70_reset_and_hazards.md R343): the register space (R26 to R38), the
byte accesses to `IN` and `OUT` (20_memory.md R60 to R63), reset (R330, R331), one turn of the host's program, and whose
turn it is. -/

namespace Sys2Proof.Machine

/-! ## The register space -/

/-- A host access to `REG` that has a move: 32 bits wide, aligned, below 0x100 (10_state.md R27). -/
def isRegAccess (width offset : Nat) : Bool := width == 4 && offset % 4 == 0 && decide (offset < 0x100)

/-- `CACHE_COUNT`: the number of entries (R38). A cache that holds all 2^32 keys has a number that 32 bits do not hold,
and there the word is a free value (log entry 9). -/
def cacheCountWord (s : State) : Word :=
  if s.cache.length < 4294967296 then BitVec.ofNat 32 s.cache.length else Config.countOverflow

/-- The word a host read of a register returns (R26, R28 to R38). It changes no state (20_memory.md R73). -/
def regRead (s : State) (offset : Nat) : Word :=
  if offset = 0x00 then s.opc.setWidth 32
  else if offset = 0x04 then statusWord s
  else if offset = 0x08 then s.arg0
  else if offset = 0x0C then s.arg1
  else if offset = 0x10 then s.arg2
  else if offset = 0x14 then s.arg3
  else if offset = 0x18 then s.res0
  else if offset = 0x1C then s.res1
  else if offset = 0x20 then reportWord s.report
  else if offset = 0x24 then s.inLen.setWidth 32
  else if offset = 0x28 then s.outLen.setWidth 32
  else if offset = 0x2C then s.cfg.localIp
  else if offset = 0x30 then (s.cfg.localMac.extractLsb' 32 16).setWidth 32
  else if offset = 0x34 then s.cfg.localMac.extractLsb' 0 32
  else if offset = 0x38 then cacheCountWord s
  else 0

/-- An accepted write of `CMD`: latch the opcode, `BUSY <- 1`, `DONE <- 0`, `ERR <- 0` (R29). The engine's step comes
after a free number of host moves (70_reset_and_hazards.md R347; log entry 5). -/
def latchCommand (s : State) (opc : BitVec 8) : State :=
  { s with
    opc := opc
    busy := true
    done := false
    err := false
    delay := Config.engineDelay s.issued
    issued := s.issued + 1 }

/-- `IN_LEN.LEN <- min(v[15:0], MAX_FRAME_LEN)` (R34). -/
def clampInLen (s : State) (v : Word) : BitVec 16 := BitVec.ofNat 16 (min (v.extractLsb' 0 16).toNat s.cfg.maxFrameLen)

/-- A host write to a register: ignored while `BUSY = 1` (R29, R31, 70_reset_and_hazards.md R341), and at any time at a
read-only or reserved offset (R28, R30, R32 to R38). -/
def regWrite (s : State) (offset : Nat) (v : Word) : State :=
  if s.busy then s
  else if offset = 0x00 then latchCommand s (v.extractLsb' 0 8)
  else if offset = 0x08 then { s with arg0 := v }
  else if offset = 0x0C then { s with arg1 := v }
  else if offset = 0x10 then { s with arg2 := v }
  else if offset = 0x14 then { s with arg3 := v }
  else if offset = 0x24 then { s with inLen := clampInLen s v }
  else s

/-! ## The buffers and reset -/

/-- A host write of a byte of `IN`: ignored while `BUSY = 1` (20_memory.md R62). -/
def inWrite (s : State) (a : Nat) (b : Byte) : State := if s.busy then s else { s with inMem := memStore s.inMem a b }

/-- Reset, a host move in every state (70_reset_and_hazards.md R330, R331): every piece of state takes the value of
10_state.md R49, the unspecified bytes of `IN` and `OUT` are drawn afresh, the parameters stay, and a latched command is
discarded. The host's own program goes on. -/
def hostReset (s : State) : State :=
  { State.resetWith s.cfg with
    inDraw := s.inDraw + 1
    outDraw := s.outDraw + 1
    issued := s.issued
    hostProg := s.hostProg
    hostPc := s.hostPc
    seen := s.seen }

/-! ## The host's turn -/

/-- The host's next move, if its program has one. -/
def hostNext (s : State) : Option HostMove := s.hostProg[s.hostPc]?

/-- The host has made a move: its program goes on, and the engine's step is one move nearer. -/
def hostAdvance (s : State) : State := { s with hostPc := s.hostPc + 1, delay := s.delay - 1 }

/-- The host has read a value. -/
def hostSees (s : State) (v : Word) : State := { s with seen := v :: s.seen }

/-- The branch of `bz NAME, bit, label` (30_encoding.md R120): to the label when the bit that was read is 0. -/
def hostBranch (s : State) (v : Word) (bit target : Nat) : State :=
  { s with hostPc := if v.getLsbD bit then s.hostPc else target }

/-- One move of the host. A host access outside R27 and R62 has no move (log entry 8). A host write to `OUT` changes no
state (20_memory.md R62). -/
def hostMove (m : HostMove) (s : State) : Result :=
  match m with
  | .regWrite width offset v =>
    if isRegAccess width offset then .next (regWrite (hostAdvance s) offset v) else .refused .hostAccess
  | .regRead width offset =>
    if isRegAccess width offset then .next (hostSees (hostAdvance s) (regRead s offset)) else .refused .hostAccess
  | .inWrite a b => if a < s.cfg.maxFrameLen then .next (inWrite (hostAdvance s) a b) else .refused .hostAccess
  | .inRead a =>
    if a < s.cfg.maxFrameLen then .next (hostSees (hostAdvance s) ((byteAt s .inbound a).setWidth 32))
    else .refused .hostAccess
  | .outWrite a _ => if a < s.cfg.maxFrameLen then .next (hostAdvance s) else .refused .hostAccess
  | .outRead a =>
    if a < s.cfg.maxFrameLen then .next (hostSees (hostAdvance s) ((byteAt s .outbound a).setWidth 32))
    else .refused .hostAccess
  | .branchZero offset bit target =>
    if isRegAccess 4 offset then
      .next (hostBranch (hostSees (hostAdvance s) (regRead s offset)) (regRead s offset) bit target)
    else .refused .hostAccess
  | .reset => .next (hostAdvance (hostReset s))

/-! ## The engine's turn, and what it fetches -/

/-- The engine takes its step now: a command is latched and the host moves that come before the step are made, or the
host has none left (10_state.md R46; log entry 5). -/
def engineTurn (s : State) : Bool := s.busy && ((hostNext s).isNone || s.delay == 0)

/-- The command word the engine reads: the latched opcode, as a read of `CMD` gives it (10_state.md R29). -/
def fetchWord (s : State) : Word := s.opc.setWidth 32

/-- `s` with an opcode latched and the engine's step next. -/
def latchedNow (s : State) (opc : BitVec 8) : State :=
  { s with opc := opc, busy := true, done := false, err := false, delay := 0 }

/-- `s` with a frame handed over from `IN` address 0 and no preamble before it. -/
def withFrame (s : State) (f : List Byte) : State :=
  { s with
    inMem := memStoreBytes s.inMem 0 f
    inLen := BitVec.ofNat 16 f.length
    cfg := { s.cfg with prefixLen := 0 } }

end Sys2Proof.Machine
end

