-- ==== Sys2Proof/Machine/Step.lean ====
section
/-! DEFINITION. The step: the engine's step for a latched command or the host's next move (10_state.md R46,
70_reset_and_hazards.md R347), and where a word of the opcode table is put so that the next step runs it. -/

namespace Sys2Proof.Machine

/-- The engine's one indivisible step: execute the latched command (10_state.md R46), or end it with `CMD_ILLEGAL`
(30_encoding.md R93). -/
def engineStep (s : State) : Result :=
  match decode .cmd (fetchWord s) with
  | .ok i => exec i s
  | .error _ => illegalCommand s

/-- One step of the block and its host: the engine's step, or the host's next move, or nothing when neither has one
("When `BUSY = 0` the engine has no step", R46; log entry 6). -/
def step (s : State) : Host.Outcome State Fault Refusal :=
  if engineTurn s then engineStep s
  else
    match hostNext s with
    | some m => hostMove m s
    | none => .next s

/-- `s` with the instruction of a table word where the next step runs it: a command word is latched in `CMD`; for the
key of a frame class, a frame that carries it is in `IN` and `PROCESS` is latched (log entry 11). -/
def State.withFetchWord (s : State) (nbits w : Nat) : State :=
  match tableFormat nbits w with
  | none => s
  | some .cmd => latchedNow s (BitVec.ofNat 8 w)
  | some fmt => latchedNow (withFrame s (keyFrame fmt (BitVec.ofNat 32 w))) 0x20

end Sys2Proof.Machine
end

