-- ==== Sys2Proof/Safety.lean ====
section
/-! DEFINITION. What a safe state is: the invariant that every state a run reaches from reset meets, which says in one
place which lengths, buffers, caches and flags the block can hold. Then the terms claims are made in: what a command
leaves, the fields of a frame as plain reads of its bytes, the bytes of each reply written out field by field, and a run
of several steps. None of these terms is used by the machine. -/

namespace Sys2Proof.Machine

/-- Every listed address of a buffer is below the size of its space (20_memory.md R60). -/
def withinSpace (limit : Nat) (m : Memory) : Bool := m.all fun c => decide (c.1 < limit)

/-- Every address of the valid part of `OUT` holds a byte that was written (47_dispatcher.md R274, 20_memory.md R83). -/
def replyWritten (s : State) : Prop := ∀ a, a < s.outLen.toNat → (memLookup s.outMem a).isSome = true

/-- The number of entries a capacity allows (10_state.md R42). -/
def withinCapacity (capacity : Option Nat) (n : Nat) : Prop := ∀ k, capacity = some k → n ≤ k

/-- The states a run can reach. -/
structure Inv (s : State) : Prop where
  /-- The parameters are legal (00_scope.md R8). -/
  params : legalParams s.cfg = true
  /-- "`BUSY` and `DONE` are never both 1" (10_state.md R30). -/
  handshake : (s.busy && s.done) = false
  /-- `ERR` is 1 only when a command has ended (R29, R30). -/
  errDone : s.err = true → s.done = true
  /-- After a command, `ERR` is 1 exactly for a malformed or command-error disposition (R30). -/
  errClass : s.done = true → s.err = dispIsError s.report.disp
  /-- After an error, the results are 0 (R32). -/
  errResults : s.err = true → s.res0 = 0 ∧ s.res1 = 0
  /-- `IN_LEN` holds a legal length (R34). -/
  inLength : s.inLen.toNat ≤ s.cfg.maxFrameLen
  /-- `OUT_LEN` holds a length that fits `OUT` (20_memory.md R61, 47_dispatcher.md R276). -/
  outLength : s.outLen.toNat ≤ s.cfg.maxFrameLen
  /-- `IN` is in canonical form. -/
  inWf : s.inMem.wf = true
  /-- `OUT` is in canonical form. -/
  outWf : s.outMem.wf = true
  /-- No byte of `IN` beyond its size (20_memory.md R62). -/
  inBound : withinSpace s.cfg.maxFrameLen s.inMem = true
  /-- No byte of `OUT` beyond its size (20_memory.md R66). -/
  outBound : withinSpace s.cfg.maxFrameLen s.outMem = true
  /-- The valid part of `OUT` is the reply (20_memory.md R83). -/
  outReply : replyWritten s
  /-- The cache is in canonical form, so each key has one MAC (10_state.md R40). -/
  cacheCanonical : cacheWf s.cache = true
  /-- The cache holds at most `CACHE_CAPACITY` entries (R42). -/
  cacheBounded : withinCapacity s.cfg.cacheCapacity s.cache.length

/-! ## What a command leaves -/

/-- A command has ended with this report, error bit and results, and changed nothing that no command changes: the
latched opcode, the arguments, `IN_LEN`, every byte of `IN`, the parameters and the host (10_state.md R30 to R35, R46,
R49; 20_memory.md R66). -/
structure CommandEnds (s t : State) (report : Report) (err : Bool) (res0 res1 : Word) : Prop where
  busy : t.busy = false
  done : t.done = true
  err : t.err = err
  report : t.report = report
  res0 : t.res0 = res0
  res1 : t.res1 = res1
  opc : t.opc = s.opc
  arg0 : t.arg0 = s.arg0
  arg1 : t.arg1 = s.arg1
  arg2 : t.arg2 = s.arg2
  arg3 : t.arg3 = s.arg3
  inLen : t.inLen = s.inLen
  inBytes : ∀ a, byteAt t .inbound a = byteAt s .inbound a
  cfg : t.cfg = s.cfg
  delay : t.delay = s.delay
  issued : t.issued = s.issued
  hostProg : t.hostProg = s.hostProg
  hostPc : t.hostPc = s.hostPc
  seen : t.seen = s.seen

/-- `OUT` and `OUT_LEN` are as they were (20_memory.md R83). -/
structure OutKept (s t : State) : Prop where
  outLen : t.outLen = s.outLen
  outBytes : ∀ a, byteAt t .outbound a = byteAt s .outbound a

/-- A `PROCESS` has ended without a reply: `OUT_LEN` and the results are 0. Of the bytes of `OUT` nothing is said
(20_memory.md R83, 47_dispatcher.md R274). -/
structure Dropped (s t : State) (report : Report) (err : Bool) : Prop where
  ends : CommandEnds s t report err 0 0
  outLen : t.outLen = 0

/-- A `PROCESS` has ended with the reply `r` in `OUT`; of the bytes beyond it nothing is said (47_dispatcher.md R274). -/
structure Replied (s t : State) (report : Report) (r : List Byte) : Prop where
  ends : CommandEnds s t report false 1 (BitVec.ofNat 32 r.length)
  outLen : t.outLen.toNat = r.length
  outBytes : bytesAt t .outbound 0 r.length = r

/-- The lengths a running block holds: `MAX_FRAME_LEN` has room for the largest fixed-size reply, and `IN_LEN` and
`OUT_LEN` fit their spaces (20_memory.md R61, 10_state.md R34). Every state that meets `Inv` has them. -/
structure LegalLengths (s : State) : Prop where
  room : 74 ≤ s.cfg.maxFrameLen
  inLen : s.inLen.toNat ≤ s.cfg.maxFrameLen
  outLen : s.outLen.toNat ≤ s.cfg.maxFrameLen

/-! ## The frame, as plain reads of its bytes -/

/-- The frame handed over: the valid bytes of `IN` after the preamble (47_dispatcher.md R271). -/
def handedOver (s : State) : List Byte := bytesAt s .inbound s.cfg.prefixLen (s.inLen.toNat - s.cfg.prefixLen)

/-- An ARP frame with a whole message (43_arp.md R190, 47_dispatcher.md R272). -/
def isArpFrame (f : List Byte) : Prop := 42 ≤ f.length ∧ rd16 f 12 = 0x0806

/-- The IHL field of an IPv4 frame (30_encoding.md R103). -/
def ihlOf (f : List Byte) : Nat := ((rd8 f 14).extractLsb' 0 4).toNat

/-- An IPv4 frame whose header passes its four checks (44_ipv4.md R210). -/
def isIpv4Frame (f : List Byte) : Prop :=
  34 ≤ f.length ∧ rd16 f 12 = 0x0800 ∧ (rd8 f 14).extractLsb' 4 4 = 4 ∧ 5 ≤ ihlOf f ∧ 14 + ihlOf f * 4 ≤ f.length

/-- What follows the IPv4 header and its options, to the end of the frame (44_ipv4.md R212). -/
def upperOf (f : List Byte) : List Byte := f.drop (14 + ihlOf f * 4)

/-- The data offset of a TCP segment (30_encoding.md R105). -/
def doffOf (u : List Byte) : Nat := ((rd16 u 12).extractLsb' 12 4).toNat

/-- A TCP segment that passes its three checks (46_tcp.md R250). -/
def isTcpSegment (u : List Byte) : Prop := 20 ≤ u.length ∧ 5 ≤ doffOf u ∧ doffOf u * 4 ≤ u.length

/-- The nine flags of a TCP segment (30_encoding.md R105). -/
def flagsOf (u : List Byte) : BitVec 9 := (rd16 u 12).extractLsb' 0 9

/-- Whether the first 20 bytes of the IPv4 header fail to verify (44_ipv4.md R213). -/
def headerFails (f : List Byte) : Bool := csum16p (slice f 14 34) != 0

/-- The report of an IPv4 frame's end: the checksum flag, and no cache event (47_dispatcher.md R275). -/
def ipv4Report (f : List Byte) (d : Disposition) : Report :=
  { disp := d, csumMismatch := headerFails f, cacheEvent := .none, cacheFull := false }

/-- What merging the sender of an ARP frame does to the cache: its IPv4 address is at offset 28, its MAC address at 22
(30_encoding.md R102, 43_arp.md R193). -/
def senderMerge (s : State) (f : List Byte) : Cache × CacheOutcome :=
  cacheUpdate s.cfg.cacheCapacity s.cache (rd32 f 28) (rdMac f 22)

/-- The report of an ARP frame's end: the outcome of the merge (42_arp_cache.md R173, R174). -/
def arpReport (s : State) (f : List Byte) (d : Disposition) : Report :=
  { disp := d
    csumMismatch := false
    cacheEvent := cacheEventOf (senderMerge s f).2
    cacheFull := cacheFullOf (senderMerge s f).2 }

/-- The disposition of a frame, as the first check that holds in the order of 60_exceptions.md R309, then the class its
keys select (R303). -/
def firstDisposition (localIp : Ip) (f : List Byte) : Disposition :=
  if f.length < 14 then .ethTooShort
  else if rd16 f 12 = 0x0806 then
    if f.length < 42 then .arpTooShort
    else if rd16 f 20 = 1 then (if rd32 f 38 = localIp then .arpReply else .arpRequestNotLocal)
    else if rd16 f 20 = 2 then .arpReplySeen
    else if rd16 f 20 = 3 then .arpUnsupported
    else if rd16 f 20 = 4 then .arpUnsupported
    else .arpBadOpcode
  else if rd16 f 12 = 0x0800 then
    if f.length < 34 then .ipv4TooShort
    else if (rd8 f 14).extractLsb' 4 4 ≠ 4 then .ipv4BadVersion
    else if ihlOf f < 5 then .ipv4BadIhl
    else if f.length < 14 + ihlOf f * 4 then .ipv4TooShort
    else if rd8 f 23 = 1 then
      if (upperOf f).length < 8 then .icmpTooShort
      else if rd8 (upperOf f) 0 = 8 then .icmpEchoReply
      else if rd8 (upperOf f) 0 = 0 then .icmpEchoReplySeen
      else .icmpUnhandled
    else if rd8 f 23 = 6 then
      if (upperOf f).length < 20 then .tcpTooShort
      else if doffOf (upperOf f) < 5 then .tcpBadDataOffset
      else if (upperOf f).length < doffOf (upperOf f) * 4 then .tcpTooShort
      else if flagsOf (upperOf f) = 0x002 then .tcpSynAck
      else .tcpUnhandled
    else if rd8 f 23 = 17 then .ipv4Udp
    else if rd8 f 23 = 2 then .ipv4Igmp
    else .ipv4UnknownProto
  else .ethUnsupportedType

/-! ## The replies, field by field -/

/-- The Ethernet header of every reply: to the sender, from `LOCAL_MAC`, the same ether-type (41_ethernet.md R161). -/
def replyEthernet (p : Params) (f : List Byte) : List Byte := slice f 6 12 ++ macBytes p.localMac ++ slice f 12 14

/-- The 42-byte ARP reply frame: the metadata copied, opcode 2, the local identity as sender, the requester as target
(43_arp.md R195). -/
def arpReplyBytes (p : Params) (f : List Byte) : List Byte :=
  replyEthernet p f ++ slice f 14 20 ++ [0x00, 0x02] ++ macBytes p.localMac ++ be32 p.localIp ++ slice f 22 32

/-- The IPv4 header of a reply with a given checksum: bytes 0 to 9 copied, then the checksum, then the destination and
the source exchanged (44_ipv4.md R215, R216). -/
def replyIpv4With (f : List Byte) (checksum : Half) : List Byte :=
  slice f 14 24 ++ be16 checksum ++ slice f 30 34 ++ slice f 26 30

/-- The IPv4 header of a reply: its checksum is taken over itself with the field zero. -/
def replyIpv4 (f : List Byte) : List Byte := replyIpv4With f (csum16p (replyIpv4With f 0))

/-- The ICMP echo reply with a given checksum: type 0, code 0, the rest copied (45_icmp.md R233). -/
def echoReplyWith (u : List Byte) (checksum : Half) : List Byte := [0x00, 0x00] ++ be16 checksum ++ u.drop 4

/-- The echo reply frame (45_icmp.md R234). -/
def echoReplyBytes (p : Params) (f : List Byte) : List Byte :=
  replyEthernet p f ++ replyIpv4 f ++ echoReplyWith (upperOf f) (csum16p (echoReplyWith (upperOf f) 0))

/-- The 40-byte SYN-ACK with a given checksum: ports exchanged, `ISN_CONST` or the acknowledgment number plus 1, the
sequence number plus 1, data offset 10 with the reserved bits copied and NS 0, SYN and ACK, the window and the urgent
pointer copied, a zero option region (46_tcp.md R255 to R257). -/
def synAckWith (p : Params) (u : List Byte) (checksum : Half) : List Byte :=
  slice u 2 4 ++ slice u 0 2 ++ be32 (if rd32 u 8 = 0 then p.isnConst else rd32 u 8 + 1) ++ be32 (rd32 u 4 + 1)
    ++ [0xA0 ||| (rd8 u 12 &&& 0x0E), 0x12] ++ slice u 14 16 ++ be16 checksum ++ slice u 18 20 ++ zeros 20

/-- The pseudo-header of the reply: its own source and destination, protocol 6, length 40 (46_tcp.md R258). -/
def synAckPseudo (f : List Byte) : List Byte := slice f 30 34 ++ slice f 26 30 ++ [0x00, 0x06, 0x00, 0x28]

/-- The 74-byte SYN-ACK frame (46_tcp.md R258). -/
def synAckBytes (p : Params) (f : List Byte) : List Byte :=
  replyEthernet p f ++ replyIpv4 f
    ++ synAckWith p (upperOf f) (csum16p (synAckPseudo f ++ synAckWith p (upperOf f) 0))

/-! ## The host's moves and runs -/

/-- A host access that has a move (10_state.md R27, 20_memory.md R62). -/
def hasMove (s : State) : HostMove → Bool
  | .regWrite width offset _ => isRegAccess width offset
  | .regRead width offset => isRegAccess width offset
  | .inWrite a _ => decide (a < s.cfg.maxFrameLen)
  | .inRead a => decide (a < s.cfg.maxFrameLen)
  | .outWrite a _ => decide (a < s.cfg.maxFrameLen)
  | .outRead a => decide (a < s.cfg.maxFrameLen)
  | .branchZero offset _ _ => isRegAccess 4 offset
  | .reset => true

/-- The states differ at most in what the host itself keeps: its program counter, what it has seen, and how near the
engine's step is. -/
def blockAlike (s t : State) : Prop := { t with hostPc := s.hostPc, seen := s.seen, delay := s.delay } = s

/-- A run of `n` steps, as far as it goes on. -/
def runSteps : Nat → State → Result
  | 0, s => .next s
  | n + 1, s =>
    match step s with
    | .next t => runSteps n t
    | .fault f => .fault f
    | .refused r => .refused r

end Sys2Proof.Machine
end

