-- ==== Sys2Proof/WellFormed.lean ====
section
/-! DEFINITION. Which instruction terms are well formed: a default class of a format carries a key that no other row
of the format matches (30_encoding.md R108: "the row with mask 0 is the default and matches only when no other row of
its format does"). Every other term is well formed. -/

namespace Sys2Proof

/-- The keys of the format `ETYPE` that have a row of their own (R109). -/
def etypeKeys : List (BitVec 16) := [0x0806, 0x0800]

/-- The keys of the format `ARPOP` that have a row of their own (R109). -/
def arpopKeys : List (BitVec 16) := [1, 2, 3, 4]

/-- The keys of the format `IPPROTO` that have a row of their own (R109). -/
def ipprotoKeys : List (BitVec 8) := [1, 2, 6, 17]

/-- The keys of the format `ICMPTYPE` that have a row of their own (R109). -/
def icmptypeKeys : List (BitVec 8) := [8, 0, 3, 4, 5, 9, 10, 11, 12]

/-- The keys of the format `TCPFLAGS` that have a row of their own (R109). -/
def tcpflagsKeys : List (BitVec 9) := [0x002]

/-- Well-formedness of an instruction term (R108). -/
def wellFormed : Instr → Bool
  | .ethOther k => !etypeKeys.contains k
  | .arpBadOpcode k => !arpopKeys.contains k
  | .ipOther k => !ipprotoKeys.contains k
  | .icmpOther k => !icmptypeKeys.contains k
  | .tcpOther k => !tcpflagsKeys.contains k
  | .csum16 => true
  | .csum16p => true
  | .csumPseudo => true
  | .cacheLookup => true
  | .cacheUpdate => true
  | .process => true
  | .ethArp => true
  | .ethIpv4 => true
  | .arpRequest => true
  | .arpReply => true
  | .arpRarpRequest => true
  | .arpRarpReply => true
  | .ipIcmp => true
  | .ipIgmp => true
  | .ipTcp => true
  | .ipUdp => true
  | .icmpEchoRequest => true
  | .icmpEchoReply => true
  | .icmpType3 => true
  | .icmpType4 => true
  | .icmpType5 => true
  | .icmpType9 => true
  | .icmpType10 => true
  | .icmpType11 => true
  | .icmpType12 => true
  | .tcpPureSyn => true

end Sys2Proof
end

