-- ==== Sys2Proof/Certificates/Slice0/Obligations.lean ====
section
/-! DEFINITION. The statements for the provers. Each docstring names the rule of spec/ it formalises. -/

open Sys2Proof Sys2Proof.Machine

/-! ## Encoding -/

/-- Decode and encode agree: the key word of every well-formed instruction, in its format, decodes to it (30_encoding.md
R92, R108, R109). -/
def Obligations.DecodeInvertsEncode : Prop :=
  ∀ i : Instr, wellFormed i = true → decode (encode i).1 (encode i).2 = .ok i

/-- The frame written for the key of a frame class selects that class, whatever the key: the keys on the way to it are
where R101 to R105 put them (R108). -/
def Obligations.KeyFrameSelectsItsClass : Prop :=
  ∀ i : Instr, wellFormed i = true → (encode i).1 ≠ .cmd →
    i ∈ frameClasses (keyFrame (encode i).1 (encode i).2)

/-- A key decodes to a row it matches, `key & mask = match`; any other row of the format it matches is the default; and
only a command word that no row matches is refused (R93, R108). -/
def Obligations.DecodeAnswersTheMatchingRow : Prop :=
  (∀ (fmt : Format) (w : Word) (i : Instr), decode fmt w = .ok i →
    wellFormed i = true ∧ (rowOf i).format = fmt ∧ w &&& (rowOf i).mask = (rowOf i).mtch ∧
      ∀ j : Instr, (rowOf j).format = fmt → w &&& (rowOf j).mask = (rowOf j).mtch →
        rowOf j = rowOf i ∨ (rowOf j).mask = 0) ∧
  (∀ (fmt : Format) (w : Word) (e : DecodeError), decode fmt w = .error e →
    fmt = .cmd ∧ ∀ j : Instr, (rowOf j).format = fmt → w &&& (rowOf j).mask ≠ (rowOf j).mtch)

/-- Key words written out from the tables of R92 and R109 decode to the rows they stand for. -/
def Obligations.KnownKeysDecode : Prop :=
  decode .cmd 0x00000020 = .ok .process ∧ decode .cmd 0xABCDEF11 = .ok .cacheUpdate ∧
  decode .cmd 0x00000001 = .ok .csum16 ∧ decode .etype 0x0806 = .ok .ethArp ∧
  decode .etype 0x86DD = .ok (.ethOther 0x86DD) ∧ decode .arpop 0x0001 = .ok .arpRequest ∧
  decode .ipproto 0x11 = .ok .ipUdp ∧ decode .icmptype 0x08 = .ok .icmpEchoRequest ∧
  decode .tcpflags 0x002 = .ok .tcpPureSyn ∧ decode .tcpflags 0x012 = .ok (.tcpOther 0x012)

/-- R93: exactly 250 opcodes are illegal, each is latched like any other, and its step ends it with `CMD_ILLEGAL` and
changes nothing else. -/
def Obligations.IllegalOpcodesEndWithCmdIllegal : Prop :=
  (∀ opc : BitVec 8, (∃ e, decodeCommand opc = .error e) ↔
    ¬ (opc = 0x01 ∨ opc = 0x02 ∨ opc = 0x03 ∨ opc = 0x10 ∨ opc = 0x11 ∨ opc = 0x20)) ∧
  ((List.range 256).filter fun n => !(decodeCommand (BitVec.ofNat 8 n)).toOption.isSome).length = 250 ∧
  (∀ (s : State) (v : Word), s.busy = false →
    (regWrite s 0x00 v).opc = v.extractLsb' 0 8 ∧ (regWrite s 0x00 v).busy = true) ∧
  dispCode .cmdIllegal = 0x30 ∧
  (∀ (s : State) (e : DecodeError), decodeCommand s.opc = .error e →
    ∃ t, engineStep s = .next t ∧ CommandEnds s t (plainReport .cmdIllegal) true 0 0 ∧ OutKept s t ∧ t.cache = s.cache)

/-! ## The step -/

/-- When a command is latched and the engine's turn has come, the step is `exec` of the instruction the opcode decodes
to; when that is `PROCESS`, it is `exec` of every class the frame selects as well. The step adds nothing around `exec`
(10_state.md R46). "When `BUSY = 0` the engine has no step": the step is then the host's next move, or nothing, as it is
while the engine's turn has not come. When the turn comes, and that a host without a program does nothing, is the model's
choice: log entries 5 and 6. -/
def Obligations.StepRunsTheDecodedInstruction : Prop :=
  (∀ s : State, s.busy = true → (hostNext s = none ∨ s.delay = 0) →
    (∀ i, decodeCommand s.opc = .ok i → step s = exec i s) ∧
    (∀ c, s.opc = 0x20 → c ∈ frameClasses (handedOver s) → step s = exec c s)) ∧
  (∀ s : State, (s.busy = false ∨ (s.delay ≠ 0 ∧ hostNext s ≠ none)) →
    (∀ m, hostNext s = some m → step s = hostMove m s) ∧ (hostNext s = none → step s = .next s))

/-- `PROCESS` does what every frame class its frame selects says: their meanings agree on that frame (R108, R109). -/
def Obligations.ProcessRunsTheClassesOfItsFrame : Prop :=
  ∀ (s : State) (c : Instr), c ∈ frameClasses (handedOver s) → exec .process s = exec c s

/-- A word of the opcode table, put where the engine reads it, runs as the instruction it decodes to. The placing and
the choice among formats are the model's: log entry 11. -/
def Obligations.TableWordRunsAsItsInstruction : Prop :=
  ∀ (s : State) (nbits w : Nat) (i : Instr), decodeTableWord nbits w = some i →
    step (s.withFetchWord nbits w) = exec i (s.withFetchWord nbits w)

/-! ## The invariant -/

/-- The state after reset meets the invariant. The parameters are legal because they are made so: log entry 10. -/
def Obligations.ResetMeetsTheInvariant : Prop := Inv State.reset

/-- Every step, the engine's or the host's, keeps the invariant: legal lengths, canonical buffers inside their spaces, a
cache with unique keys within its capacity, and flags that agree (10_state.md R30, R32, R34, R40, R42; 20_memory.md R61,
R83). -/
def Obligations.StepKeepsTheInvariant : Prop :=
  ∀ s t : State, Inv s → step s = .next t → Inv t

/-- No command faults, sticks or hangs: from every state that meets the invariant every instruction, and the step of
every latched opcode, ends in one step, idle and done, with an error bit that agrees with the disposition (60_exceptions.md
R320, R308, R30). -/
def Obligations.EveryCommandEndsInOneStep : Prop :=
  ∀ s : State, Inv s →
    (∀ i : Instr, ∃ t, exec i s = .next t ∧ t.busy = false ∧ t.done = true ∧ t.err = dispIsError t.report.disp) ∧
    (∃ t, engineStep s = .next t ∧ t.busy = false ∧ t.done = true ∧ t.err = dispIsError t.report.disp)

/-- The only thing that has no step is a host access that has no move (R320; 10_state.md R27, 20_memory.md R62). -/
def Obligations.OnlyMovelessAccessesStop : Prop :=
  ∀ s : State, Inv s →
    (∃ t, step s = .next t) ∨
    (step s = .refused .hostAccess ∧ engineTurn s = false ∧ ∃ m, hostNext s = some m ∧ hasMove s m = false)

/-- A latched command takes its step: within `delay` steps the engine's turn comes, unless a reset discards the command
or the host makes an access that has no move (70_reset_and_hazards.md R347, R331; the delay is free, log entry 5). -/
def Obligations.LatchedCommandGetsItsStep : Prop :=
  ∀ s : State, Inv s → s.busy = true →
    ∃ n, n ≤ s.delay ∧
      ((∃ t, runSteps n s = .next t ∧ Inv t ∧ (t.busy = false ∨ (engineTurn t = true ∧ t.opc = s.opc))) ∨
        runSteps n s = .refused .hostAccess)

/-! ## The Checksum Engine -/

/-- R140: `sum16p(b)` is the loop's fold of the raw sum of the big-endian words at even offsets, an odd last byte as the
high byte of a last word; it is at most 0xFFFF; folding after every addition gives the same, and
an accumulator of 32 bits holds the raw sum of any range the block sums. -/
def Obligations.Sum16pFoldsTheWords : Prop :=
  ∀ (b : List Byte) (words : List Nat),
    words = (List.range (b.length / 2)).map (fun k => (rd16 b (2 * k)).toNat)
      ++ (if b.length % 2 = 1 then [(rd8 b (b.length - 1)).toNat * 256] else []) →
    wordSum b = words.sum ∧
    (∃ n, sum16p b = (fun s : Nat => (s &&& 0xFFFF) + (s >>> 16))^[n] words.sum) ∧
    sum16p b ≤ 0xFFFF ∧
    sum16p b = words.foldl (fun s w => if 0xFFFF < s + w then ((s + w) &&& 0xFFFF) + ((s + w) >>> 16) else s + w) 0 ∧
    (b.length < 65548 → (words.foldl (fun (acc : Word) w => acc + BitVec.ofNat 32 w) 0).toNat = words.sum)

/-- R149: the corner cases, and that two folds are enough below 2^32. -/
def Obligations.SumCornerCases : Prop :=
  (wordSum [0xFF, 0xFF, 0xFF, 0xFF] = 0x1FFFE ∧ sum16p [0xFF, 0xFF, 0xFF, 0xFF] = 0xFFFF ∧
    csum16p [0xFF, 0xFF, 0xFF, 0xFF] = 0x0000) ∧
  (wordSum [0xFF, 0xFE, 0x00, 0x02] = 0x10000 ∧ sum16p [0xFF, 0xFE, 0x00, 0x02] = 0x0001 ∧
    csum16p [0xFF, 0xFE, 0x00, 0x02] = 0xFFFE) ∧
  (wordSum [0x80, 0x00, 0x80, 0x00] = 0x10000 ∧ sum16p [0x80, 0x00, 0x80, 0x00] = 0x0001 ∧
    csum16p [0x80, 0x00, 0x80, 0x00] = 0xFFFE) ∧
  (sum16p [0xFF, 0xFF] = 0xFFFF ∧ csum16p [0xFF, 0xFF] = 0x0000) ∧
  (sum16p [0, 0, 0, 0] = 0x0000 ∧ csum16p [0, 0, 0, 0] = 0xFFFF) ∧
  (∀ s : Nat, s < 2 ^ 32 →
    (s &&& 0xFFFF) + (s >>> 16) ≤ 0x1FFFE ∧
    ((s &&& 0xFFFF) + (s >>> 16) &&& 0xFFFF) + (((s &&& 0xFFFF) + (s >>> 16)) >>> 16) ≤ 0xFFFF)

/-- R148: verification of a stored checksum for any length, the order of the words, and when a sum or a checksum is 0. -/
def Obligations.ChecksumLaws : Prop :=
  (∀ (b : List Byte) (k : Nat), k % 2 = 0 → k + 2 ≤ b.length →
    slice b k (k + 2) = be16 (csum16p (patch b k (zeros 2))) → csum16p b = 0) ∧
  (∀ (ws ws' : List Half) (tail : List Byte), ws.Perm ws' →
    sum16p (ws.flatMap be16 ++ tail) = sum16p (ws'.flatMap be16 ++ tail)) ∧
  (∀ (src dst : Ip) (seg : List Byte), tcpsum src dst seg = tcpsum dst src seg) ∧
  (∀ (h a b : List Byte), h.length = 12 → a.length = 4 → b.length = 4 → csum16p (h ++ a ++ b) = csum16p (h ++ b ++ a)) ∧
  (∀ b : List Byte, (sum16p b = 0 ↔ ∀ x ∈ b, x = 0) ∧ (sum16p b = 0 → csum16p b = 0xFFFF) ∧
    (sum16p b ≠ 0 → 1 ≤ sum16p b ∧ sum16p b ≤ 0xFFFF) ∧ (csum16p b = 0 ↔ sum16p b = 0xFFFF))

/-- R143: `CSUM16`. Beyond the limit it ends with `CMD_RANGE`; else an odd length ends it with `CMD_CSUM_ODD`; else the
results are the checksum and the folded sum. `OUT`, `OUT_LEN` and the cache are unchanged. -/
def Obligations.Csum16Result : Prop :=
  decode .cmd 0x01 = .ok .csum16 ∧ ∀ (s : State) (off len lim : Nat) (sp : Space),
    LegalLengths s → off = (s.arg0.extractLsb' 0 16).toNat → len = (s.arg1.extractLsb' 0 16).toNat →
    sp = (if s.arg0.getLsbD 16 then .outbound else .inbound) →
    lim = (if s.arg0.getLsbD 16 then s.outLen.toNat else s.inLen.toNat) →
    ∃ t, exec .csum16 s = .next t ∧ OutKept s t ∧ t.cache = s.cache ∧
      (if lim < off + len then CommandEnds s t (plainReport .cmdRange) true 0 0
       else if len % 2 = 1 then CommandEnds s t (plainReport .cmdCsumOdd) true 0 0
       else CommandEnds s t (plainReport .ok) false
        (BitVec.ofNat 32 (0xFFFF - sum16p (bytesAt s sp off len)))
        (BitVec.ofNat 32 (sum16p (bytesAt s sp off len))))

/-- R144: `CSUM16P`, the same for any length. -/
def Obligations.Csum16pResult : Prop :=
  decode .cmd 0x02 = .ok .csum16p ∧ ∀ (s : State) (off len lim : Nat) (sp : Space),
    LegalLengths s → off = (s.arg0.extractLsb' 0 16).toNat → len = (s.arg1.extractLsb' 0 16).toNat →
    sp = (if s.arg0.getLsbD 16 then .outbound else .inbound) →
    lim = (if s.arg0.getLsbD 16 then s.outLen.toNat else s.inLen.toNat) →
    ∃ t, exec .csum16p s = .next t ∧ OutKept s t ∧ t.cache = s.cache ∧
      (if lim < off + len then CommandEnds s t (plainReport .cmdRange) true 0 0
       else CommandEnds s t (plainReport .ok) false
        (BitVec.ofNat 32 (0xFFFF - sum16p (bytesAt s sp off len)))
        (BitVec.ofNat 32 (sum16p (bytesAt s sp off len))))

/-- R146 with R145: `CSUM_PSEUDO`, the same over the 12 bytes of the pseudo-header and the range. -/
def Obligations.CsumPseudoResult : Prop :=
  decode .cmd 0x03 = .ok .csumPseudo ∧ ∀ (s : State) (off len lim : Nat) (sp : Space) (b : List Byte),
    LegalLengths s → off = (s.arg0.extractLsb' 0 16).toNat → len = (s.arg1.extractLsb' 0 16).toNat →
    sp = (if s.arg0.getLsbD 16 then .outbound else .inbound) →
    lim = (if s.arg0.getLsbD 16 then s.outLen.toNat else s.inLen.toNat) →
    b = be32 s.arg2 ++ be32 s.arg3 ++ [0x00, 0x06] ++ be16 (BitVec.ofNat 16 len) ++ bytesAt s sp off len →
    ∃ t, exec .csumPseudo s = .next t ∧ OutKept s t ∧ t.cache = s.cache ∧
      (if lim < off + len then CommandEnds s t (plainReport .cmdRange) true 0 0
       else CommandEnds s t (plainReport .ok) false
        (BitVec.ofNat 32 (0xFFFF - sum16p b)) (BitVec.ofNat 32 (sum16p b)))

/-! ## The cache -/

/-- The cache is a map with unique keys: in canonical form a lookup answers exactly the binding listed for the key
(10_state.md R40, 42_arp_cache.md R171). -/
def Obligations.CacheIsAMap : Prop :=
  ∀ c : Cache, cacheWf c = true →
    (∀ ip m, cacheLookup c ip = some m ↔ (ip, m) ∈ c) ∧ (c.map Prod.fst).Nodup ∧
    (∀ d : Cache, cacheWf d = true → (∀ ip, cacheLookup c ip = cacheLookup d ip) → c = d)

/-- R175: `CACHE_LOOKUP`. -/
def Obligations.CacheLookupResult : Prop :=
  decode .cmd 0x10 = .ok .cacheLookup ∧ ∀ s : State, ∃ t, exec .cacheLookup s = .next t ∧ OutKept s t ∧ t.cache = s.cache ∧
    (∀ m, cacheLookup s.cache s.arg2 = some m →
      CommandEnds s t (plainReport .ok) false (0x00010000 ||| (m.extractLsb' 32 16).setWidth 32) (m.extractLsb' 0 32)) ∧
    (cacheLookup s.cache s.arg2 = none → CommandEnds s t (plainReport .ok) false 0 0)

/-- R176 with R172, R173 and R174: `CACHE_UPDATE`. A new key is inserted when the cache has room and is otherwise not
recorded; a key bound to another MAC is rebound; a key bound to this MAC is left. No other key's binding changes. -/
def Obligations.CacheUpdateResult : Prop :=
  decode .cmd 0x11 = .ok .cacheUpdate ∧ ∀ (s : State) (ip : Ip) (mac : Mac), cacheWf s.cache = true →
    ip = s.arg2 → mac = s.arg0.extractLsb' 0 16 ++ s.arg1 →
    ∃ t, exec .cacheUpdate s = .next t ∧ OutKept s t ∧
      (∀ k, k ≠ ip → cacheLookup t.cache k = cacheLookup s.cache k) ∧
      (cacheLookup s.cache ip = none → s.cfg.cacheCapacity = some s.cache.length →
        CommandEnds s t ⟨.ok, false, .none, true⟩ false 0 0 ∧ t.cache = s.cache) ∧
      (cacheLookup s.cache ip = none → s.cfg.cacheCapacity ≠ some s.cache.length →
        CommandEnds s t ⟨.ok, false, .inserted, false⟩ false 0 0 ∧ cacheLookup t.cache ip = some mac ∧
          t.cache.length = s.cache.length + 1) ∧
      (∀ m, cacheLookup s.cache ip = some m → m ≠ mac →
        CommandEnds s t ⟨.ok, false, .changed, false⟩ false 0 0 ∧ cacheLookup t.cache ip = some mac ∧
          t.cache.length = s.cache.length) ∧
      (cacheLookup s.cache ip = some mac →
        CommandEnds s t ⟨.ok, false, .unchanged, false⟩ false 0 0 ∧ t.cache = s.cache)

/-- R177: the same update twice leaves the cache as once, and the second reports unchanged, or full again. -/
def Obligations.CacheUpdateIsIdempotent : Prop :=
  ∀ s t : State, exec .cacheUpdate s = .next t →
    ∃ u, exec .cacheUpdate t = .next u ∧ u.cache = t.cache ∧
      (u.report = ⟨.ok, false, .unchanged, false⟩ ∨
        (t.report = ⟨.ok, false, .none, true⟩ ∧ u.report = ⟨.ok, false, .none, true⟩))

/-- R178: an update of a bound key with a new MAC replaces the old one, and `CACHE_LOOKUP` then answers the new one. -/
def Obligations.CacheUpdateSupersedes : Prop :=
  ∀ (s t : State) (m1 : Mac), cacheLookup s.cache s.arg2 = some m1 → m1 ≠ s.arg0.extractLsb' 0 16 ++ s.arg1 →
    exec .cacheUpdate s = .next t →
    cacheLookup t.cache s.arg2 = some (s.arg0.extractLsb' 0 16 ++ s.arg1) ∧
    ∃ u, exec .cacheLookup t = .next u ∧ u.res0 = 0x00010000 ||| (s.arg0.extractLsb' 0 16).setWidth 32 ∧
      u.res1 = s.arg1

/-- R43: the initial cache binds the local address to the local MAC; any other key to its last extra static entry; else
the loopback address to the zero MAC; and nothing else. With no extra entry it has two keys, or one when the local
address is the loopback address. It is the cache after reset. -/
def Obligations.InitialCacheBindings : Prop :=
  (∀ (p : Params) (ip : Ip), cacheLookup (initialCache p) ip =
    if ip = p.localIp then some p.localMac
    else match p.extraStatic.reverse.find? (fun e => e.1 = ip) with
      | some e => some e.2
      | none => if ip = 0x7F000001 then some 0 else none) ∧
  (∀ p : Params, p.extraStatic = [] → (initialCache p).length = if p.localIp = 0x7F000001 then 1 else 2) ∧
  (∀ p : Params, cacheWf (initialCache p) = true ∧ (State.resetWith p).cache = initialCache p)

/-- R42: no step but a reset removes a binding, and the cache stays within its capacity. -/
def Obligations.NoBindingIsRemoved : Prop :=
  ∀ s t : State, Inv s → step s = .next t →
    (∀ k, s.cfg.cacheCapacity = some k → t.cache.length ≤ k) ∧
    ((engineTurn s = false ∧ hostNext s = some .reset) ∨
      (s.cache.length ≤ t.cache.length ∧
        ∀ ip, (cacheLookup s.cache ip).isSome = true → (cacheLookup t.cache ip).isSome = true))

/-- Only `CACHE_UPDATE` and the ARP path write the cache (42_arp_cache.md R170, 44_ipv4.md R218, 47_dispatcher.md R275,
R277). -/
def Obligations.OnlyArpAndUpdateWriteTheCache : Prop :=
  (∀ (s t : State) (i : Instr), exec i s = .next t →
    i ∉ [.cacheUpdate, .process, .ethArp, .arpRequest, .arpReply, .arpRarpRequest, .arpRarpReply] →
    t.cache = s.cache) ∧
  (∀ s t : State, exec .process s = .next t → rd16 (handedOver s) 12 ≠ 0x0806 → t.cache = s.cache)

/-- R218: the IPv4 path neither reads nor writes the cache: with any other cache it does the same and leaves that cache. -/
def Obligations.Ipv4PathIgnoresTheCache : Prop :=
  ∀ (s t : State) (c : Cache), rd16 (handedOver s) 12 = 0x0800 → exec .process s = .next t →
    t.cache = s.cache ∧ exec .process { s with cache := c } = .next { t with cache := c }

/-! ## Frame classes -/

/-- R277: any other ether-type is dropped: no output, no cache access (with any other cache the command does the same and
leaves that cache), not an error. -/
def Obligations.OtherEtherTypesAreDropped : Prop :=
  ∀ (s : State) (f : List Byte), LegalLengths s → f = handedOver s → 14 ≤ f.length →
    rd16 f 12 ≠ 0x0806 → rd16 f 12 ≠ 0x0800 →
    ∃ t, exec .process s = .next t ∧ exec (.ethOther (rd16 f 12)) s = .next t ∧
      Dropped s t (plainReport .ethUnsupportedType) false ∧ t.cache = s.cache ∧
      ∀ c, exec .process { s with cache := c } = .next { t with cache := c }

/-- R194, R195 and R196: an ARP request is merged; then one for `LOCAL_IP` is answered with the 42-byte reply, and one
for another address is not answered. -/
def Obligations.ArpRequestsAreMergedAndAnswered : Prop :=
  ∀ (s : State) (f : List Byte), LegalLengths s → f = handedOver s → isArpFrame f → rd16 f 20 = 1 →
    ∃ t, exec .process s = .next t ∧ exec .arpRequest s = .next t ∧ t.cache = (senderMerge s f).1 ∧
      (if rd32 f 38 = s.cfg.localIp then
        Replied s t (arpReport s f .arpReply) (arpReplyBytes s.cfg f) ∧ (arpReplyBytes s.cfg f).length = 42
       else Dropped s t (arpReport s f .arpRequestNotLocal) false)

/-- R197 and R198: ARP replies and the two RARP messages are merged and not answered. -/
def Obligations.ArpRepliesAndRarpAreMerged : Prop :=
  ∀ (s : State) (f : List Byte), LegalLengths s → f = handedOver s → isArpFrame f →
    ∀ (op : Half) (i : Instr) (d : Disposition),
      (op, i, d) ∈ [((2 : Half), Instr.arpReply, Disposition.arpReplySeen), (3, .arpRarpRequest, .arpUnsupported),
        (4, .arpRarpReply, .arpUnsupported)] →
      rd16 f 20 = op →
      ∃ t, exec .process s = .next t ∧ exec i s = .next t ∧ Dropped s t (arpReport s f d) false ∧
        t.cache = (senderMerge s f).1

/-- R191: any other opcode is malformed: no merge, no reply. -/
def Obligations.BadArpOpcodesAreMalformed : Prop :=
  ∀ (s : State) (f : List Byte), LegalLengths s → f = handedOver s → isArpFrame f →
    rd16 f 20 ≠ 1 → rd16 f 20 ≠ 2 → rd16 f 20 ≠ 3 → rd16 f 20 ≠ 4 →
    ∃ t, exec .process s = .next t ∧ exec (.arpBadOpcode (rd16 f 20)) s = .next t ∧
      Dropped s t (plainReport .arpBadOpcode) true ∧ t.cache = s.cache

/-- R214: the protocol selects the responder, the handler, or an informational end without output and without error. -/
def Obligations.Ipv4ProtocolDispatch : Prop :=
  ∀ (s : State) (f : List Byte), LegalLengths s → f = handedOver s → isIpv4Frame f →
    (rd8 f 23 = 1 → exec .process s = exec .ipIcmp s) ∧
    (rd8 f 23 = 6 → exec .process s = exec .ipTcp s) ∧
    (rd8 f 23 = 17 → ∃ t, exec .process s = .next t ∧ exec .ipUdp s = .next t ∧
      Dropped s t (ipv4Report f .ipv4Udp) false ∧ t.cache = s.cache) ∧
    (rd8 f 23 = 2 → ∃ t, exec .process s = .next t ∧ exec .ipIgmp s = .next t ∧
      Dropped s t (ipv4Report f .ipv4Igmp) false ∧ t.cache = s.cache) ∧
    (rd8 f 23 ≠ 1 → rd8 f 23 ≠ 6 → rd8 f 23 ≠ 17 → rd8 f 23 ≠ 2 →
      ∃ t, exec .process s = .next t ∧ exec (.ipOther (rd8 f 23)) s = .next t ∧
        Dropped s t (ipv4Report f .ipv4UnknownProto) false ∧ t.cache = s.cache)

/-- R233 with R234: an echo request is answered, whatever its code and checksum, with a frame no longer than the request
whose ICMP message verifies. -/
def Obligations.EchoRequestIsAnswered : Prop :=
  ∀ (s : State) (f : List Byte), LegalLengths s → f = handedOver s → isIpv4Frame f → rd8 f 23 = 1 →
    8 ≤ (upperOf f).length → rd8 (upperOf f) 0 = 8 →
    ∃ t, exec .process s = .next t ∧ exec .icmpEchoRequest s = .next t ∧
      Replied s t (ipv4Report f .icmpEchoReply) (echoReplyBytes s.cfg f) ∧ t.cache = s.cache ∧
      (echoReplyBytes s.cfg f).length = 14 + 20 + (upperOf f).length ∧ (echoReplyBytes s.cfg f).length ≤ f.length ∧
      csum16p ((echoReplyBytes s.cfg f).drop 34) = 0

/-- R235 and R236: an echo reply is observed and every other type is unhandled: no packet is emitted, not an error. -/
def Obligations.OtherIcmpTypesAreDropped : Prop :=
  ∀ (s : State) (f : List Byte), LegalLengths s → f = handedOver s → isIpv4Frame f → rd8 f 23 = 1 →
    8 ≤ (upperOf f).length →
    (∀ (k : Byte) (i : Instr) (d : Disposition),
      (k, i, d) ∈ [((0 : Byte), Instr.icmpEchoReply, Disposition.icmpEchoReplySeen), (3, .icmpType3, .icmpUnhandled),
        (4, .icmpType4, .icmpUnhandled), (5, .icmpType5, .icmpUnhandled), (9, .icmpType9, .icmpUnhandled),
        (10, .icmpType10, .icmpUnhandled), (11, .icmpType11, .icmpUnhandled), (12, .icmpType12, .icmpUnhandled)] →
      rd8 (upperOf f) 0 = k →
      ∃ t, exec .process s = .next t ∧ exec i s = .next t ∧ Dropped s t (ipv4Report f d) false ∧ t.cache = s.cache) ∧
    (rd8 (upperOf f) 0 ∉ [(8 : Byte), 0, 3, 4, 5, 9, 10, 11, 12] →
      ∃ t, exec .process s = .next t ∧ exec (.icmpOther (rd8 (upperOf f) 0)) s = .next t ∧
        Dropped s t (ipv4Report f .icmpUnhandled) false ∧ t.cache = s.cache)

/-- R255 to R258: a pure SYN, whatever its acknowledgment number and reserved bits, is answered with the 74-byte SYN-ACK
frame, whose TCP segment verifies under the reply's pseudo-header. -/
def Obligations.PureSynIsAnswered : Prop :=
  ∀ (s : State) (f : List Byte), LegalLengths s → f = handedOver s → isIpv4Frame f → rd8 f 23 = 6 →
    isTcpSegment (upperOf f) → flagsOf (upperOf f) = 0x002 →
    ∃ t, exec .process s = .next t ∧ exec .tcpPureSyn s = .next t ∧
      Replied s t (ipv4Report f .tcpSynAck) (synAckBytes s.cfg f) ∧ (synAckBytes s.cfg f).length = 74 ∧
      t.cache = s.cache ∧ tcpsum (rd32 f 30) (rd32 f 26) ((synAckBytes s.cfg f).drop 34) = 0

/-- R254: any other flag combination is reported as unhandled: no reply, no state, not an error. -/
def Obligations.OtherTcpFlagsAreDropped : Prop :=
  ∀ (s : State) (f : List Byte), LegalLengths s → f = handedOver s → isIpv4Frame f → rd8 f 23 = 6 →
    isTcpSegment (upperOf f) → flagsOf (upperOf f) ≠ 0x002 →
    ∃ t, exec .process s = .next t ∧ exec (.tcpOther (flagsOf (upperOf f))) s = .next t ∧
      Dropped s t (ipv4Report f .tcpUnhandled) false ∧ t.cache = s.cache

/-- The class `ETH_ARP` completes as the class of the ARP opcode (47_dispatcher.md R273), as `PROCESS` does; and every
message with an opcode from 1 to 4 is merged, whatever its opcode and its target, and the outcome is reported (43_arp.md
R193). -/
def Obligations.EthArpMergesAndRunsTheOpcodesClass : Prop :=
  ∀ (s : State) (f : List Byte), LegalLengths s → f = handedOver s → isArpFrame f →
    ∃ t, exec .ethArp s = .next t ∧ exec .process s = .next t ∧ exec (decodeArpOp (rd16 f 20)) s = .next t ∧
      CommandEnds s t t.report t.err t.res0 t.res1 ∧
      (rd16 f 20 = 1 ∨ rd16 f 20 = 2 ∨ rd16 f 20 = 3 ∨ rd16 f 20 = 4 →
        t.cache = (senderMerge s f).1 ∧ t.report = arpReport s f t.report.disp ∧ t.err = false)

/-- The classes `ETH_IPV4`, `IP_ICMP` and `IP_TCP` complete as the class of the next key that is read (47_dispatcher.md
R275, 45_icmp.md R232, 46_tcp.md R253), as `PROCESS` does. -/
def Obligations.Ipv4ClassesRunTheNextKeysClass : Prop :=
  ∀ (s : State) (f : List Byte), LegalLengths s → f = handedOver s → isIpv4Frame f →
    (∃ t, exec .ethIpv4 s = .next t ∧ exec .process s = .next t ∧ exec (decodeIpProto (rd8 f 23)) s = .next t ∧
      CommandEnds s t t.report t.err t.res0 t.res1 ∧ t.report = ipv4Report f t.report.disp ∧ t.cache = s.cache) ∧
    (rd8 f 23 = 1 → 8 ≤ (upperOf f).length →
      ∃ t, exec .ipIcmp s = .next t ∧ exec .ethIpv4 s = .next t ∧
        exec (decodeIcmpType (rd8 (upperOf f) 0)) s = .next t ∧ t.err = false) ∧
    (rd8 f 23 = 6 → isTcpSegment (upperOf f) →
      ∃ t, exec .ipTcp s = .next t ∧ exec .ethIpv4 s = .next t ∧
        exec (decodeTcpFlags (flagsOf (upperOf f))) s = .next t ∧ t.err = false)

/-! ## `PROCESS` as a whole -/

/-- R309: the disposition of `PROCESS` is that of the first check that holds, and the error bit is 1 exactly for a
malformed one. -/
def Obligations.ProcessReportsTheFirstCheck : Prop :=
  ∀ s : State, LegalLengths s →
    ∃ t, exec .process s = .next t ∧ t.report.disp = firstDisposition s.cfg.localIp (handedOver s) ∧
      t.err = (decide (0x20 ≤ (dispCode t.report.disp).toNat) && decide ((dispCode t.report.disp).toNat ≤ 0x28))

/-- R301: a malformed frame writes its disposition and the error bit, gets no reply and never changes the cache; the
checksum flag written before it is kept. -/
def Obligations.MalformedFramesChangeNothingElse : Prop :=
  ∀ (s : State) (f : List Byte) (d : Disposition), LegalLengths s → f = handedOver s →
    d = firstDisposition s.cfg.localIp f → dispIsError d = true →
    ∃ t, exec .process s = .next t ∧ t.cache = s.cache ∧
      ((isIpv4Frame f ∧ Dropped s t (ipv4Report f d) true) ∨ (¬ isIpv4Frame f ∧ Dropped s t (plainReport d) true))

/-- R276: an ARP reply is 42 bytes, a SYN-ACK 74, an echo reply 34 plus its message and never more than the request; no
other disposition sends; and every reply fits in `OUT`. -/
def Obligations.ReplyLengths : Prop :=
  ∀ s t : State, LegalLengths s → exec .process s = .next t →
    t.outLen.toNat =
      (match t.report.disp with
        | .arpReply => 42
        | .icmpEchoReply => 34 + (upperOf (handedOver s)).length
        | .tcpSynAck => 74
        | _ => 0) ∧
    t.outLen.toNat ≤ s.cfg.maxFrameLen ∧
    (t.report.disp = .icmpEchoReply → t.outLen.toNat ≤ (handedOver s).length) ∧
    t.res1 = t.outLen.setWidth 32 ∧ t.res0 = (if t.outLen = 0 then 0 else 1)

/-- Every reply verifies: the IPv4 header of an echo reply and of a SYN-ACK, the ICMP message, and the TCP segment under
the reply's own pseudo-header all sum to a checksum of 0 (44_ipv4.md R215, 45_icmp.md R233, 46_tcp.md R255). -/
def Obligations.RepliesVerify : Prop :=
  ∀ (s t : State) (r : List Byte), LegalLengths s → exec .process s = .next t →
    r = bytesAt t .outbound 0 t.outLen.toNat →
    (t.report.disp = .icmpEchoReply → csum16 (slice r 14 34) = some 0 ∧ csum16p (r.drop 34) = 0) ∧
    (t.report.disp = .tcpSynAck →
      csum16 (slice r 14 34) = some 0 ∧ tcpsum (rd32 r 26) (rd32 r 30) (r.drop 34) = 0)

/-- `PROCESS` reads the frame, the cache and the parameters and nothing else: neither the preamble, nor what `IN` holds
beyond `IN_LEN`, nor the arguments, nor `OUT` has an effect (47_dispatcher.md R270, R271, R279; 70_reset_and_hazards.md
R345). -/
def Obligations.ProcessReadsOnlyTheFrame : Prop :=
  ∀ s₁ s₂ t₁ t₂ : State, LegalLengths s₁ → LegalLengths s₂ → s₁.cfg = s₂.cfg → s₁.cache = s₂.cache →
    handedOver s₁ = handedOver s₂ → exec .process s₁ = .next t₁ → exec .process s₂ = .next t₂ →
    t₁.report = t₂.report ∧ t₁.err = t₂.err ∧ t₁.res0 = t₂.res0 ∧ t₁.res1 = t₂.res1 ∧ t₁.outLen = t₂.outLen ∧
      t₁.cache = t₂.cache ∧
      ∀ a, a < t₁.outLen.toNat → byteAt t₁ .outbound a = byteAt t₂ .outbound a

/-! ## Headers -/

/-- R162: decoding the header built in reply to a decoded frame keeps every field but the two addresses. -/
def Obligations.EthernetRoundTrip : Prop :=
  ∀ (p : Params) (f : List Byte), 14 ≤ f.length →
    ∃ h, ethDecode f = .ok h ∧ h = { dst := rdMac f 0, src := rdMac f 6, ethertype := rd16 f 12 } ∧
      ethDecode (ethBuildReply p h) = .ok { dst := h.src, src := p.localMac, ethertype := h.ethertype }

/-- R217 with R215: the header built in reply decodes to the original with the addresses exchanged and the checksum
recomputed; the checksum is the original one when the original verified, except that an original 0xFFFF becomes 0 (both
verify; R215 does not name this case). -/
def Obligations.Ipv4RoundTrip : Prop :=
  ∀ (p : List Byte) (h : Ipv4Header), ipv4Decode p = .ok h →
    (ipv4BuildReplyHeader h).length = 20 ∧
    ipv4Header (ipv4BuildReplyHeader h) =
      { h with
        sourceIp := h.destIp
        destIp := h.sourceIp
        headerChecksum := csum16p (patch h.raw20 10 (zeros 2))
        raw20 := ipv4BuildReplyHeader h } ∧
    (csum16 h.raw20 = some 0 → csum16p (patch h.raw20 10 (zeros 2)) =
      if h.headerChecksum = 0xFFFF then 0 else h.headerChecksum)

/-- R252: a data offset of 5 to 15 sizes the options, in 0 to 40 bytes; 0 to 4 is rejected. -/
def Obligations.TcpOptionSizing : Prop :=
  ∀ u : List Byte, 20 ≤ u.length →
    (∀ t, tcpDecode u = .ok t → t.doff.toNat = doffOf u ∧ 5 ≤ doffOf u ∧ doffOf u ≤ 15 ∧
      t.options.length = doffOf u * 4 - 20 ∧ t.options.length ≤ 40) ∧
    (doffOf u < 5 → tcpDecode u = .error .tcpBadDataOffset)

/-! ## The host interface -/

/-- R29: `CMD`. An accepted write latches the opcode and sets the handshake; a write while busy changes nothing; a read
returns the opcode; an illegal opcode is ended with `CMD_ILLEGAL`; after reset it is 0. -/
def Obligations.CmdWriteLatches : Prop :=
  ∀ (s : State) (v : Word),
    (s.busy = false → ∃ t, hostMove (.regWrite 4 0x00 v) s = .next t ∧ t.opc = v.extractLsb' 0 8 ∧ t.busy = true ∧
      t.done = false ∧ t.err = false ∧
      blockAlike s { t with opc := s.opc, busy := s.busy, done := s.done, err := s.err, issued := s.issued }) ∧
    (s.busy = true → ∃ t, hostMove (.regWrite 4 0x00 v) s = .next t ∧ blockAlike s t) ∧
    regRead s 0x00 = s.opc.setWidth 32 ∧
    (∀ e, decodeCommand s.opc = .error e → ∃ t, engineStep s = .next t ∧ t.report = plainReport .cmdIllegal) ∧
    State.reset.opc = 0

/-- R341: every write to a register or to `IN` made while busy is lost. -/
def Obligations.WritesWhileBusyAreLost : Prop :=
  ∀ (s t : State) (m : HostMove), s.busy = true → hostMove m s = .next t →
    ((∃ width offset v, m = .regWrite width offset v) ∨ (∃ a b, m = .inWrite a b)) → blockAlike s t

/-- R31: the arguments hold what the host wrote, bit for bit; no command writes them; after reset they are 0. -/
def Obligations.ArgumentsHoldWhatWasWritten : Prop :=
  (∀ (s : State) (v : Word), s.busy = false →
    regWrite s 0x08 v = { s with arg0 := v } ∧ regRead (regWrite s 0x08 v) 0x08 = v ∧
    regWrite s 0x0C v = { s with arg1 := v } ∧ regRead (regWrite s 0x0C v) 0x0C = v ∧
    regWrite s 0x10 v = { s with arg2 := v } ∧ regRead (regWrite s 0x10 v) 0x10 = v ∧
    regWrite s 0x14 v = { s with arg3 := v } ∧ regRead (regWrite s 0x14 v) 0x14 = v) ∧
  (∀ (s t : State) (i : Instr), exec i s = .next t →
    t.arg0 = s.arg0 ∧ t.arg1 = s.arg1 ∧ t.arg2 = s.arg2 ∧ t.arg3 = s.arg3) ∧
  (∀ (s : State) (offset : Nat) (v : Word), s.busy = true → regWrite s offset v = s) ∧
  State.reset.arg0 = 0 ∧ State.reset.arg1 = 0 ∧ State.reset.arg2 = 0 ∧ State.reset.arg3 = 0

/-- R34: `IN_LEN` stores the least of the written low half and `MAX_FRAME_LEN`, reads back with zeros above, and is
written by no command; after reset it is 0. -/
def Obligations.InLenIsClamped : Prop :=
  (∀ (s : State) (v : Word), s.busy = false → s.cfg.maxFrameLen ≤ 65535 →
    (regWrite s 0x24 v).inLen.toNat = min (v.toNat % 65536) s.cfg.maxFrameLen ∧
    (regRead (regWrite s 0x24 v) 0x24).toNat = min (v.toNat % 65536) s.cfg.maxFrameLen ∧
    { regWrite s 0x24 v with inLen := s.inLen } = s) ∧
  (∀ (s t : State) (i : Instr), exec i s = .next t → t.inLen = s.inLen) ∧
  State.reset.inLen = 0

/-- R28 and the access column of R26: a write to a read-only or a reserved register changes no state, and a reserved
offset reads as 0. -/
def Obligations.ReadOnlyRegistersIgnoreWrites : Prop :=
  ∀ (s : State) (offset : Nat) (v : Word), offset % 4 = 0 → offset < 0x100 →
    (offset ∉ [0x00, 0x08, 0x0C, 0x10, 0x14, 0x24] → regWrite s offset v = s) ∧
    (0x3C ≤ offset → regRead s offset = 0)

/-- R30 and R33: where the fields of `STATUS` and `REPORT` lie in the words the host reads. -/
def Obligations.StatusAndReportFields : Prop :=
  ∀ s : State,
    (regRead s 0x04).toNat = s.busy.toNat + 2 * s.done.toNat + 4 * s.err.toNat ∧
    (regRead s 0x20).toNat = (dispCode s.report.disp).toNat + 256 * s.report.csumMismatch.toNat
      + 512 * (match s.report.cacheEvent with | .none => 0 | .inserted => 1 | .changed => 2 | .unchanged => 3)
      + 2048 * s.report.cacheFull.toNat

/-- R36, R37 and R38: the registers that are views of the parameters, of which no step changes one, and the count of
the cache's entries. -/
def Obligations.IdentityAndCountRegisters : Prop :=
  (∀ s : State, be32 (regRead s 0x2C) = be32 s.cfg.localIp ∧
    be16 ((regRead s 0x30).setWidth 16) ++ be32 (regRead s 0x34) = macBytes s.cfg.localMac ∧
    (regRead s 0x30).toNat < 65536 ∧
    (s.cache.length < 2 ^ 32 → (regRead s 0x38).toNat = s.cache.length)) ∧
  (∀ s t : State, step s = .next t → t.cfg = s.cfg)

/-- R73: reading a register, a byte of `IN` or a byte of `OUT` changes no state, and shows the host the value that is
there. -/
def Obligations.ReadsChangeNothing : Prop :=
  ∀ s : State,
    (∀ offset, offset % 4 = 0 → offset < 0x100 →
      ∃ t, hostMove (.regRead 4 offset) s = .next t ∧ blockAlike s t ∧ t.seen = regRead s offset :: s.seen) ∧
    (∀ a, a < s.cfg.maxFrameLen →
      (∃ t, hostMove (.inRead a) s = .next t ∧ blockAlike s t ∧ t.seen = (byteAt s .inbound a).setWidth 32 :: s.seen) ∧
      (∃ t, hostMove (.outRead a) s = .next t ∧ blockAlike s t ∧ t.seen = (byteAt s .outbound a).setWidth 32 :: s.seen))

/-- A byte the host writes to `IN` while idle reads back there, and nothing else in either space changes; a write to
`OUT` changes nothing (20_memory.md R62, R63, R76). -/
def Obligations.BufferWrites : Prop :=
  ∀ (s : State) (a : Nat) (b : Byte), a < s.cfg.maxFrameLen →
    (s.busy = false → ∃ t, hostMove (.inWrite a b) s = .next t ∧ byteAt t .inbound a = b ∧
      (∀ x, x ≠ a → byteAt t .inbound x = byteAt s .inbound x) ∧ (∀ x, byteAt t .outbound x = byteAt s .outbound x) ∧
      blockAlike s { t with inMem := s.inMem }) ∧
    (∃ t, hostMove (.outWrite a b) s = .next t ∧ blockAlike s t)

/-- R330 and R331: reset is a move in every state, also while a command is latched; it discards that command and leaves
every register at its reset value, the initial cache, no byte of either buffer written, and the parameters. -/
def Obligations.ResetMove : Prop :=
  ∀ s : State, ∃ t, hostMove .reset s = .next t ∧
    t.opc = 0 ∧ t.busy = false ∧ t.done = false ∧ t.err = false ∧
    t.arg0 = 0 ∧ t.arg1 = 0 ∧ t.arg2 = 0 ∧ t.arg3 = 0 ∧ t.res0 = 0 ∧ t.res1 = 0 ∧ regRead t 0x20 = 0 ∧
    t.inLen = 0 ∧ t.outLen = 0 ∧ t.cache = initialCache s.cfg ∧ t.cfg = s.cfg ∧
    (∀ a, byteAt t .inbound a = Config.freeIn (s.inDraw + 1) a) ∧
    (∀ a, byteAt t .outbound a = Config.freeOut (s.outDraw + 1) a)

/-- The values of R49 right after reset: every register 0, the initial cache, and no latched command. -/
def Obligations.ResetValues : Prop :=
  (∀ offset, offset ∈ [0x00, 0x04, 0x08, 0x0C, 0x10, 0x14, 0x18, 0x1C, 0x20, 0x24, 0x28] →
    regRead State.reset offset = 0) ∧
  State.reset.busy = false ∧ State.reset.done = false ∧
  State.reset.cache = initialCache State.reset.cfg ∧ regRead State.reset 0x2C = State.reset.cfg.localIp ∧
  State.reset.inMem = [] ∧ State.reset.outMem = []

/-- R303: the codes of the dispositions, and that no two share one. -/
def Obligations.DispositionCodes : Prop :=
  ([Disposition.ok, .arpReply, .icmpEchoReply, .tcpSynAck, .arpReplySeen, .arpRequestNotLocal, .arpUnsupported,
      .icmpEchoReplySeen, .icmpUnhandled, .tcpUnhandled, .ipv4Udp, .ipv4Igmp, .ipv4UnknownProto, .ethUnsupportedType,
      .ethTooShort, .arpTooShort, .arpBadOpcode, .ipv4TooShort, .ipv4BadVersion, .ipv4BadIhl, .icmpTooShort,
      .tcpTooShort, .tcpBadDataOffset, .cmdIllegal, .cmdRange, .cmdCsumOdd].map fun d => (dispCode d).toNat) =
    [0x00, 0x01, 0x02, 0x03, 0x10, 0x11, 0x12, 0x13, 0x14, 0x15, 0x16, 0x17, 0x18, 0x19, 0x20, 0x21, 0x22, 0x23, 0x24,
      0x25, 0x26, 0x27, 0x28, 0x30, 0x31, 0x32] ∧
  ∀ d e : Disposition, dispCode d = dispCode e → d = e
end

