-- ==== Sys2Proof/Laws/Bytes.lean ====
section
/-! SUPPORT. The laws of byte sequences and byte order (00_scope.md R11): lengths, fields read back from what `be16`,
`be32` and `macBytes` wrote, and fields of concatenations. -/

namespace Sys2Proof

@[simp] theorem be16_length (v : Half) : (be16 v).length = 2 := rfl
@[simp] theorem be32_length (v : Word) : (be32 v).length = 4 := rfl
@[simp] theorem macBytes_length (m : Mac) : (macBytes m).length = 6 := rfl
@[simp] theorem zeros_length (n : Nat) : (zeros n).length = n := by simp [zeros]

theorem slice_length (b : List Byte) (i j : Nat) : (slice b i j).length = min (j - i) (b.length - i) := by
  simp [slice]

theorem patch_length (b c : List Byte) (i : Nat) (h : i + c.length ≤ b.length) : (patch b i c).length = b.length := by
  simp [patch]; omega

/-! ## Single bytes -/

theorem rd8_append_left (a b : List Byte) (i : Nat) (h : i < a.length) : rd8 (a ++ b) i = rd8 a i := by
  simp [rd8, List.getD, List.getElem?_append_left h]

theorem rd8_append_right (a b : List Byte) (i : Nat) (h : a.length ≤ i) : rd8 (a ++ b) i = rd8 b (i - a.length) := by
  simp [rd8, List.getD, List.getElem?_append_right h]

theorem rd8_drop (b : List Byte) (k i : Nat) : rd8 (b.drop k) i = rd8 b (k + i) := by
  simp [rd8, List.getD, List.getElem?_drop]

theorem rd8_take (b : List Byte) (k i : Nat) (h : i < k) : rd8 (b.take k) i = rd8 b i := by
  simp [rd8, List.getD, List.getElem?_take_of_lt h]

/-! ## Fields of a concatenation -/

theorem rd16_append_left (a b : List Byte) (i : Nat) (h : i + 1 < a.length) : rd16 (a ++ b) i = rd16 a i := by
  simp only [rd16, rd8_append_left a b i (by omega), rd8_append_left a b (i + 1) h]

theorem rd16_append_right (a b : List Byte) (i : Nat) (h : a.length ≤ i) :
    rd16 (a ++ b) i = rd16 b (i - a.length) := by
  simp only [rd16, rd8_append_right a b i h, rd8_append_right a b (i + 1) (by omega)]
  rw [show i + 1 - a.length = i - a.length + 1 by omega]

theorem rd32_append_left (a b : List Byte) (i : Nat) (h : i + 3 < a.length) : rd32 (a ++ b) i = rd32 a i := by
  simp only [rd32, rd16_append_left a b i (by omega), rd16_append_left a b (i + 2) (by omega)]

theorem rd32_append_right (a b : List Byte) (i : Nat) (h : a.length ≤ i) :
    rd32 (a ++ b) i = rd32 b (i - a.length) := by
  simp only [rd32, rd16_append_right a b i h, rd16_append_right a b (i + 2) (by omega)]
  rw [show i + 2 - a.length = i - a.length + 2 by omega]

theorem rdMac_append_left (a b : List Byte) (i : Nat) (h : i + 5 < a.length) : rdMac (a ++ b) i = rdMac a i := by
  simp only [rdMac, rd16_append_left a b i (by omega), rd32_append_left a b (i + 2) (by omega)]

theorem rdMac_append_right (a b : List Byte) (i : Nat) (h : a.length ≤ i) :
    rdMac (a ++ b) i = rdMac b (i - a.length) := by
  simp only [rdMac, rd16_append_right a b i h, rd32_append_right a b (i + 2) (by omega)]
  rw [show i + 2 - a.length = i - a.length + 2 by omega]

theorem rd16_drop (b : List Byte) (k i : Nat) : rd16 (b.drop k) i = rd16 b (k + i) := by
  simp only [rd16, rd8_drop, Nat.add_assoc]

theorem rd32_drop (b : List Byte) (k i : Nat) : rd32 (b.drop k) i = rd32 b (k + i) := by
  simp only [rd32, rd16_drop, Nat.add_assoc]

theorem rdMac_drop (b : List Byte) (k i : Nat) : rdMac (b.drop k) i = rdMac b (k + i) := by
  simp only [rdMac, rd16_drop, rd32_drop, Nat.add_assoc]

/-! ## What was written reads back -/

/-- The low part of a concatenation of bit vectors. -/
theorem extract_append_low {n m : Nat} (a : BitVec n) (b : BitVec m) : (a ++ b).extractLsb' 0 m = b := by
  ext i hi
  simp [BitVec.getLsbD_append, hi]

/-- The high part of a concatenation of bit vectors. -/
theorem extract_append_high {n m : Nat} (a : BitVec n) (b : BitVec m) : (a ++ b).extractLsb' m n = a := by
  ext i hi
  simp [BitVec.getLsbD_append, BitVec.getLsbD_eq_getElem hi]

/-- A bit vector is the concatenation of its high and low parts. -/
theorem append_extract {n m : Nat} (v : BitVec (n + m)) : v.extractLsb' m n ++ v.extractLsb' 0 m = v := by
  ext i hi
  simp only [BitVec.getElem_append, BitVec.getElem_extractLsb']
  split
  · next h => simp [BitVec.getLsbD_eq_getElem hi]
  · next h => rw [show m + (i - m) = i by omega, BitVec.getLsbD_eq_getElem hi]

@[simp] theorem rd16_be16 (v : Half) (r : List Byte) : rd16 (be16 v ++ r) 0 = v :=
  append_extract (n := 8) (m := 8) v

@[simp] theorem rd32_be32 (v : Word) (r : List Byte) : rd32 (be32 v ++ r) 0 = v := by
  have h1 : rd16 (be32 v ++ r) 0 = v.extractLsb' 16 16 := by
    rw [be32, List.append_assoc, rd16_be16]
  have h2 : rd16 (be32 v ++ r) 2 = v.extractLsb' 0 16 := by
    rw [be32, List.append_assoc, rd16_append_right _ _ 2 (by simp), be16_length, rd16_be16]
  rw [rd32, h1, h2]
  exact append_extract (n := 16) (m := 16) v

@[simp] theorem rdMac_macBytes (m : Mac) (r : List Byte) : rdMac (macBytes m ++ r) 0 = m := by
  have h1 : rd16 (macBytes m ++ r) 0 = m.extractLsb' 32 16 := by
    rw [macBytes, List.append_assoc, rd16_be16]
  have h2 : rd32 (macBytes m ++ r) 2 = m.extractLsb' 0 32 := by
    rw [macBytes, List.append_assoc, rd32_append_right _ _ 2 (by simp), be16_length, rd32_be32]
  rw [rdMac, h1, h2]
  exact append_extract (n := 16) (m := 32) m

theorem be16_rd16 (b : List Byte) (i : Nat) : be16 (rd16 b i) = [rd8 b i, rd8 b (i + 1)] := by
  rw [be16]
  congr 1
  · exact extract_append_high (rd8 b i) (rd8 b (i + 1))
  · congr 1
    exact extract_append_low (rd8 b i) (rd8 b (i + 1))

theorem be32_rd32 (b : List Byte) (i : Nat) :
    be32 (rd32 b i) = [rd8 b i, rd8 b (i + 1), rd8 b (i + 2), rd8 b (i + 3)] := by
  have h1 : (rd32 b i).extractLsb' 16 16 = rd16 b i := extract_append_high (rd16 b i) (rd16 b (i + 2))
  have h2 : (rd32 b i).extractLsb' 0 16 = rd16 b (i + 2) := extract_append_low (rd16 b i) (rd16 b (i + 2))
  rw [be32, h1, h2, be16_rd16, be16_rd16]
  rfl

theorem macBytes_rdMac (b : List Byte) (i : Nat) :
    macBytes (rdMac b i) =
      [rd8 b i, rd8 b (i + 1), rd8 b (i + 2), rd8 b (i + 3), rd8 b (i + 4), rd8 b (i + 5)] := by
  have h1 : (rdMac b i).extractLsb' 32 16 = rd16 b i := extract_append_high (rd16 b i) (rd32 b (i + 2))
  have h2 : (rdMac b i).extractLsb' 0 32 = rd32 b (i + 2) := extract_append_low (rd16 b i) (rd32 b (i + 2))
  rw [macBytes, h1, h2, be16_rd16, be32_rd32]
  rfl

/-- The number a 16-bit field holds. -/
theorem rd16_toNat (b : List Byte) (i : Nat) : (rd16 b i).toNat = (rd8 b i).toNat * 256 + (rd8 b (i + 1)).toNat := by
  simp only [rd16, BitVec.toNat_append]
  rw [← Nat.shiftLeft_add_eq_or_of_lt (rd8 b (i + 1)).isLt, Nat.shiftLeft_eq]

/-- The number the two bytes of `be16 v` hold. -/
theorem be16_value (v : Half) : ((be16 v).map BitVec.toNat) = [v.toNat / 256, v.toNat % 256] := by
  have := v.isLt
  simp [be16, BitVec.extractLsb'_toNat, Nat.shiftRight_eq_div_pow]
  omega

end Sys2Proof
end

