-- ==== Sys2Proof/Laws/Cache.lean ====
section
/-! SUPPORT. The laws of the address-resolution cache: lookup after a binding, what an update can do (42_arp_cache.md
R172), the canonical form and the bound, and that the configured parameters are legal. -/

namespace Sys2Proof.Machine

theorem cacheLookup_cacheBind_same (c : Cache) (ip : Ip) (mac : Mac) : cacheLookup (cacheBind c ip mac) ip = some mac := by
  induction c with
  | nil => simp [cacheBind, cacheLookup]
  | cons e rest ih =>
    obtain ⟨k, m⟩ := e
    simp only [cacheBind]
    split
    · simp [cacheLookup]
    · split
      · simp [cacheLookup]
      · next _ h => simp [cacheLookup, Ne.symm h, ih]

theorem cacheLookup_cacheBind_other (c : Cache) (ip : Ip) (mac : Mac) (ip' : Ip) (h : ip' ≠ ip) :
    cacheLookup (cacheBind c ip mac) ip' = cacheLookup c ip' := by
  induction c with
  | nil => simp [cacheBind, cacheLookup, Ne.symm h]
  | cons e rest ih =>
    obtain ⟨k, m⟩ := e
    simp only [cacheBind]
    split
    · simp [cacheLookup, Ne.symm h]
    · split
      · next _ hk => subst hk; simp [cacheLookup, Ne.symm h]
      · simp only [cacheLookup, ih]

/-- Lookup after a binding (42_arp_cache.md R171, R172). -/
theorem cacheLookup_cacheBind (c : Cache) (ip : Ip) (mac : Mac) (ip' : Ip) :
    cacheLookup (cacheBind c ip mac) ip' = if ip' = ip then some mac else cacheLookup c ip' := by
  split
  · next h => rw [h, cacheLookup_cacheBind_same]
  · next h => exact cacheLookup_cacheBind_other c ip mac ip' h

theorem cacheBind_wf_from (c : Cache) (ip : Ip) (mac : Mac) (k : Ip) (m : Mac) (hk : k.toNat < ip.toNat)
    (h : cacheWf ((k, m) :: c) = true) : cacheWf ((k, m) :: cacheBind c ip mac) = true := by
  induction c generalizing k m with
  | nil => simp [cacheBind, cacheWf, hk]
  | cons e rest ih =>
    obtain ⟨k', m'⟩ := e
    simp only [cacheWf, Bool.and_eq_true, decide_eq_true_eq] at h
    simp only [cacheBind]
    split
    · next h1 => simp [cacheWf, hk, h1, h.2]
    · split
      · next h1 h2 =>
        subst h2
        have := h.2
        cases rest with
        | nil => simp [cacheWf, h.1]
        | cons d r => obtain ⟨z, w⟩ := d; simp [cacheWf] at this ⊢; exact ⟨h.1, this⟩
      · next h1 h2 =>
        have h3 : k'.toNat < ip.toNat := by
          have : ip.toNat ≠ k'.toNat := fun e => h2 (BitVec.eq_of_toNat_eq e)
          omega
        simp only [cacheWf, Bool.and_eq_true, decide_eq_true_eq]
        exact ⟨h.1, ih k' m' h3 h.2⟩

/-- A binding keeps the canonical form (10_state.md R40). -/
theorem cacheBind_wf (c : Cache) (ip : Ip) (mac : Mac) (h : cacheWf c = true) : cacheWf (cacheBind c ip mac) = true := by
  cases c with
  | nil => rfl
  | cons e rest =>
    obtain ⟨k, m⟩ := e
    simp only [cacheBind]
    split
    · next h1 => simp [cacheWf, h1, h]
    · split
      · next h1 h2 =>
        subst h2
        cases rest with
        | nil => rfl
        | cons d r => obtain ⟨z, w⟩ := d; simp [cacheWf] at h ⊢; exact h
      · next h1 h2 =>
        have h3 : k.toNat < ip.toNat := by
          have : ip.toNat ≠ k.toNat := fun e => h2 (BitVec.eq_of_toNat_eq e)
          omega
        exact cacheBind_wf_from rest ip mac k m h3 h

theorem cacheLookup_eq_none_of_lt (c : Cache) (ip k : Ip) (m : Mac) (h : cacheWf ((k, m) :: c) = true)
    (hlt : ip.toNat ≤ k.toNat) : cacheLookup c ip = none := by
  induction c generalizing k m with
  | nil => rfl
  | cons e rest ih =>
    obtain ⟨k', m'⟩ := e
    simp only [cacheWf, Bool.and_eq_true, decide_eq_true_eq] at h
    have hne : k' ≠ ip := fun e => by subst e; omega
    simp only [cacheLookup, hne, if_false]
    exact ih k' m' h.2 (by omega)

/-- How many entries a binding leaves (42_arp_cache.md R173). -/
theorem cacheBind_length (c : Cache) (ip : Ip) (mac : Mac) (h : cacheWf c = true) :
    (cacheBind c ip mac).length = if cacheLookup c ip = none then c.length + 1 else c.length := by
  induction c with
  | nil => simp [cacheBind, cacheLookup]
  | cons e rest ih =>
    obtain ⟨k, m⟩ := e
    have hrest : cacheWf rest = true := by
      cases rest with
      | nil => rfl
      | cons d r => obtain ⟨z, w⟩ := d; simp [cacheWf] at h; exact h.2
    simp only [cacheBind]
    split
    · next h1 =>
      have hne : k ≠ ip := fun e => by subst e; omega
      have : cacheLookup ((k, m) :: rest) ip = none := by
        simp only [cacheLookup, hne, if_false]
        exact cacheLookup_eq_none_of_lt rest ip k m h (by omega)
      simp [this]
    · split
      · next h1 h2 => subst h2; simp [cacheLookup]
      · next h1 h2 =>
        have hne : k ≠ ip := fun e => h2 e.symm
        simp only [List.length_cons, ih hrest, cacheLookup, hne, if_false]
        split <;> omega

theorem cacheBind_length_le (c : Cache) (ip : Ip) (mac : Mac) : (cacheBind c ip mac).length ≤ c.length + 1 := by
  induction c with
  | nil => simp [cacheBind]
  | cons e rest ih =>
    obtain ⟨k, m⟩ := e
    simp only [cacheBind]
    split
    · simp
    · split <;> simp [ih]

/-- What an update can do: exactly one of the four outcomes of 42_arp_cache.md R172. -/
theorem cacheUpdate_cases (cap : Option Nat) (c : Cache) (ip : Ip) (mac : Mac) :
    (cacheLookup c ip = none ∧ cacheIsFull cap c = true ∧ cacheUpdate cap c ip mac = (c, .full)) ∨
    (cacheLookup c ip = none ∧ cacheIsFull cap c = false ∧ cacheUpdate cap c ip mac = (cacheBind c ip mac, .inserted)) ∨
    (∃ m, cacheLookup c ip = some m ∧ m ≠ mac ∧ cacheUpdate cap c ip mac = (cacheBind c ip mac, .changed)) ∨
    (cacheLookup c ip = some mac ∧ cacheUpdate cap c ip mac = (c, .unchanged)) := by
  unfold cacheUpdate
  split
  · next h =>
    split
    · next hf => exact .inl ⟨h, hf, rfl⟩
    · next hf => exact .inr (.inl ⟨h, by simpa using hf, rfl⟩)
  · next m h =>
    by_cases hm : m = mac
    · subst hm; exact .inr (.inr (.inr ⟨h, by simp⟩))
    · exact .inr (.inr (.inl ⟨m, h, hm, by simp [hm]⟩))

/-- An update keeps the canonical form. -/
theorem cacheUpdate_wf (cap : Option Nat) (c : Cache) (ip : Ip) (mac : Mac) (h : cacheWf c = true) :
    cacheWf (cacheUpdate cap c ip mac).1 = true := by
  rcases cacheUpdate_cases cap c ip mac with ⟨_, _, e⟩ | ⟨_, _, e⟩ | ⟨_, _, _, e⟩ | ⟨_, e⟩ <;> rw [e]
  · exact h
  · exact cacheBind_wf c ip mac h
  · exact cacheBind_wf c ip mac h
  · exact h

/-- An update keeps the cache within its capacity (10_state.md R42). -/
theorem cacheUpdate_within (cap : Option Nat) (c : Cache) (ip : Ip) (mac : Mac) (hw : cacheWf c = true)
    (h : withinCapacity cap c.length) : withinCapacity cap (cacheUpdate cap c ip mac).1.length := by
  rcases cacheUpdate_cases cap c ip mac with ⟨_, _, e⟩ | ⟨hn, hf, e⟩ | ⟨m, hm, _, e⟩ | ⟨_, e⟩ <;> rw [e]
  · exact h
  · intro k hk
    have h1 := h k hk
    rw [hk] at hf
    simp only [cacheIsFull, beq_eq_false_iff_ne, ne_eq] at hf
    have h2 := cacheBind_length_le c ip mac
    simp only
    omega
  · intro k hk
    have h1 := h k hk
    simp only [cacheBind_length c ip mac hw, hm, reduceCtorEq, if_false]
    exact h1
  · exact h

/-- No update removes a binding (10_state.md R42). -/
theorem cacheUpdate_keeps (cap : Option Nat) (c : Cache) (ip : Ip) (mac : Mac) (ip' : Ip)
    (h : (cacheLookup c ip').isSome = true) : (cacheLookup (cacheUpdate cap c ip mac).1 ip').isSome = true := by
  rcases cacheUpdate_cases cap c ip mac with ⟨_, _, e⟩ | ⟨_, _, e⟩ | ⟨_, _, _, e⟩ | ⟨_, e⟩ <;> rw [e]
  · exact h
  · simp only [cacheLookup_cacheBind]; split <;> simp_all
  · simp only [cacheLookup_cacheBind]; split <;> simp_all
  · exact h

/-! ## The initial cache -/

theorem foldl_bind_wf (l : List (Ip × Mac)) (c : Cache) (h : cacheWf c = true) :
    cacheWf (l.foldl (fun c e => cacheBind c e.1 e.2) c) = true := by
  induction l generalizing c with
  | nil => exact h
  | cons e rest ih => exact ih _ (cacheBind_wf c e.1 e.2 h)

/-- The initial cache is in canonical form (10_state.md R43). -/
theorem initialCache_wf (p : Params) : cacheWf (initialCache p) = true :=
  cacheBind_wf _ _ _ (foldl_bind_wf _ _ (cacheBind_wf [] _ _ rfl))

/-- The parameters the block is configured with are legal (00_scope.md R8). -/
theorem configured_legal : legalParams configured = true := by
  have hi : initialCache configured = initialCache Config.supplied := rfl
  unfold legalParams
  rw [hi]
  simp only [configured, legalise]
  cases Config.supplied.cacheCapacity with
  | none => simp
  | some n => simp; omega

/-- Every legal parameter set is the one some supplied parameters give, so `legalise` leaves none out. -/
theorem legalise_reaches (p : Params) (h : legalParams p = true) : ∃ q, legalise q = p := by
  obtain ⟨lm, li, isn, pre, mfl, cap, ext⟩ := p
  simp only [legalParams, Bool.and_eq_true, decide_eq_true_eq] at h
  refine ⟨⟨lm, li, isn, pre, mfl - 74, cap.map fun n => n - max 2 (initialCache ⟨lm, li, isn, pre, mfl, cap, ext⟩).length, ext⟩, ?_⟩
  have hi : ∀ x y, initialCache ⟨lm, li, isn, pre, x, y, ext⟩ = initialCache ⟨lm, li, isn, pre, mfl, cap, ext⟩ := fun _ _ => rfl
  simp only [legalise, Params.mk.injEq, true_and, and_true, hi]
  refine ⟨by omega, ?_⟩
  cases cap with
  | none => rfl
  | some n =>
    have := h.2
    simp only [Bool.and_eq_true, decide_eq_true_eq] at this
    simp only [Option.map_some, Option.some.injEq]
    omega

end Sys2Proof.Machine
end

