-- ==== Sys2Proof/Laws/Checksum.lean ====
section
/-! SUPPORT. The arithmetic of the one's-complement sum (40_checksum.md R140): what the folding loop returns, and the
raw sum of a concatenation. -/

namespace Sys2Proof.Machine

theorem fold_turn (s : Nat) : (s &&& 0xFFFF) + (s >>> 16) = s % 65536 + s / 65536 := by
  rw [Nat.shiftRight_eq_div_pow, show (0xFFFF : Nat) = 2 ^ 16 - 1 by norm_num, Nat.and_two_pow_sub_one_eq_mod]

/-- What the loop returns when it has turns enough: at most 0xFFFF, the same modulo 0xFFFF, and zero only from zero. -/
theorem foldCarry_spec (turns s : Nat) (h : s ≤ turns) :
    foldCarry turns s ≤ 65535 ∧ foldCarry turns s % 65535 = s % 65535 ∧ (foldCarry turns s = 0 ↔ s = 0) := by
  induction turns generalizing s with
  | zero => obtain rfl : s = 0 := by omega
            simp [foldCarry]
  | succ n ih =>
    simp only [foldCarry]
    split
    · next hs =>
      rw [fold_turn]
      obtain ⟨h1, h2, h3⟩ := ih (s % 65536 + s / 65536) (by omega)
      refine ⟨h1, by rw [h2]; omega, by rw [h3]; omega⟩
    · exact ⟨by omega, rfl, Iff.rfl⟩

theorem sum16p_le (b : List Byte) : sum16p b ≤ 65535 := (foldCarry_spec _ _ le_rfl).1
theorem sum16p_mod (b : List Byte) : sum16p b % 65535 = wordSum b % 65535 := (foldCarry_spec _ _ le_rfl).2.1
theorem sum16p_eq_zero (b : List Byte) : sum16p b = 0 ↔ wordSum b = 0 := (foldCarry_spec _ _ le_rfl).2.2

/-- The folded sum is the raw sum modulo 0xFFFF, taken in 1 to 0xFFFF unless the raw sum is 0. -/
theorem sum16p_eq_of (b c : List Byte) (hm : wordSum b % 65535 = wordSum c % 65535)
    (hz : wordSum b = 0 ↔ wordSum c = 0) : sum16p b = sum16p c := by
  have h1 := sum16p_le b
  have h2 := sum16p_le c
  have h3 := sum16p_mod b
  have h4 := sum16p_mod c
  have h5 := sum16p_eq_zero b
  have h6 := sum16p_eq_zero c
  omega

theorem csum16p_toNat (b : List Byte) : (csum16p b).toNat = 65535 - sum16p b := by
  have := sum16p_le b
  simp only [csum16p, BitVec.toNat_ofNat]
  omega

/-- The raw sum of a concatenation whose first part has even length. -/
theorem wordSum_append (a b : List Byte) (h : a.length % 2 = 0) : wordSum (a ++ b) = wordSum a + wordSum b := by
  match a, h with
  | [], _ => simp [wordSum]
  | [_], h => simp at h
  | x :: y :: rest, h =>
    have hr : rest.length % 2 = 0 := by simp at h; omega
    simp only [List.cons_append, wordSum, wordSum_append rest b hr]
    omega

theorem wordSum_be16 (v : Half) : wordSum (be16 v) = v.toNat := by
  have := v.isLt
  simp [be16, wordSum, BitVec.extractLsb'_toNat, Nat.shiftRight_eq_div_pow]
  omega

theorem wordSum_zeros (n : Nat) : wordSum (zeros n) = 0 := by
  match n with
  | 0 => rfl
  | 1 => rfl
  | n + 2 =>
    have : zeros (n + 2) = 0 :: 0 :: zeros n := rfl
    rw [this]; simp [wordSum, wordSum_zeros n]

end Sys2Proof.Machine
end

