-- ==== Sys2Proof/Laws/Memory.lean ====
section
/-! SUPPORT. The laws of the buffers: a read after a write gives the value written, a write leaves every other address
alone, and every operation keeps the canonical form and the bounds of the space (20_memory.md R66). -/

namespace Sys2Proof.Machine

theorem memLookup_memStore_same (m : Memory) (a : Nat) (b : Byte) : memLookup (memStore m a b) a = some b := by
  induction m with
  | nil => simp [memStore, memLookup]
  | cons c rest ih =>
    obtain ⟨x, y⟩ := c
    simp only [memStore]
    split
    · simp [memLookup]
    · split
      · simp [memLookup]
      · have : x ≠ a := by omega
        simp [memLookup, this, ih]

theorem memLookup_memStore_other (m : Memory) (a : Nat) (b : Byte) (a' : Nat) (h : a' ≠ a) :
    memLookup (memStore m a b) a' = memLookup m a' := by
  induction m with
  | nil => simp [memStore, memLookup, Ne.symm h]
  | cons c rest ih =>
    obtain ⟨x, y⟩ := c
    simp only [memStore]
    split
    · simp [memLookup, Ne.symm h]
    · split
      · next _ hx => subst hx; simp [memLookup, Ne.symm h]
      · simp only [memLookup, ih]

theorem memLookup_memStore (m : Memory) (a : Nat) (b : Byte) (a' : Nat) :
    memLookup (memStore m a b) a' = if a' = a then some b else memLookup m a' := by
  split
  · next h => rw [h, memLookup_memStore_same]
  · next h => exact memLookup_memStore_other m a b a' h

/-- Reading after writing a byte sequence: the sequence's byte inside it, the old contents outside. -/
theorem memLookup_memStoreBytes (bs : List Byte) (m : Memory) (a x : Nat) :
    memLookup (memStoreBytes m a bs) x = if a ≤ x ∧ x < a + bs.length then bs[x - a]? else memLookup m x := by
  induction bs generalizing m a with
  | nil => simp [memStoreBytes]
  | cons b rest ih =>
    simp only [memStoreBytes, ih, memLookup_memStore, List.length_cons]
    by_cases h1 : x = a
    · subst h1; simp
    · by_cases h2 : a + 1 ≤ x ∧ x < a + 1 + rest.length
      · have h3 : a ≤ x ∧ x < a + (rest.length + 1) := by omega
        have h4 : x - a = (x - (a + 1)) + 1 := by omega
        simp only [h2, h3, and_self, if_true]
        rw [h4, List.getElem?_cons_succ]
      · have h3 : ¬ (a ≤ x ∧ x < a + (rest.length + 1)) := by omega
        simp only [h1, h2, h3, if_false]

theorem memStore_wf_from (m : Memory) (a : Nat) (b : Byte) (x : Nat) (y : Byte) (hxa : x < a)
    (h : Memory.wf ((x, y) :: m) = true) : Memory.wf ((x, y) :: memStore m a b) = true := by
  induction m generalizing x y with
  | nil => simp [memStore, Memory.wf, hxa]
  | cons c rest ih =>
    obtain ⟨x', y'⟩ := c
    simp only [Memory.wf, Bool.and_eq_true, decide_eq_true_eq] at h
    simp only [memStore]
    split
    · next h1 => simp [Memory.wf, hxa, h1, h.2]
    · split
      · next h1 h2 =>
        subst h2
        have := h.2
        cases rest with
        | nil => simp [Memory.wf, h.1]
        | cons d r => obtain ⟨z, w⟩ := d; simp [Memory.wf] at this ⊢; exact ⟨h.1, this⟩
      · have h3 : x' < a := by omega
        simp only [Memory.wf, Bool.and_eq_true, decide_eq_true_eq]
        exact ⟨h.1, ih x' y' h3 h.2⟩

/-- A byte write keeps the canonical form. -/
theorem memStore_wf (m : Memory) (a : Nat) (b : Byte) (h : m.wf = true) : (memStore m a b).wf = true := by
  cases m with
  | nil => rfl
  | cons c rest =>
    obtain ⟨x, y⟩ := c
    simp only [memStore]
    split
    · next h1 => simp [Memory.wf, h1, h]
    · split
      · next h1 h2 =>
        subst h2
        cases rest with
        | nil => rfl
        | cons d r => obtain ⟨z, w⟩ := d; simp [Memory.wf] at h ⊢; exact h
      · exact memStore_wf_from rest a b x y (by omega) h

/-- A sequence write keeps the canonical form. -/
theorem memStoreBytes_wf (bs : List Byte) (m : Memory) (a : Nat) (h : m.wf = true) :
    (memStoreBytes m a bs).wf = true := by
  induction bs generalizing m a with
  | nil => exact h
  | cons b rest ih => exact ih _ _ (memStore_wf m a b h)

theorem memStore_within (limit : Nat) (m : Memory) (a : Nat) (b : Byte) (ha : a < limit)
    (h : withinSpace limit m = true) : withinSpace limit (memStore m a b) = true := by
  induction m with
  | nil => simp [memStore, withinSpace, ha]
  | cons c rest ih =>
    obtain ⟨x, y⟩ := c
    simp only [withinSpace, List.all_cons, Bool.and_eq_true, decide_eq_true_eq] at h ih
    simp only [memStore]
    split
    · simp [withinSpace, ha, h]
    · split
      · simp [withinSpace, ha, h]
      · simp only [withinSpace, List.all_cons, Bool.and_eq_true, decide_eq_true_eq]
        exact ⟨h.1, ih h.2⟩

theorem memStoreBytes_within (limit : Nat) (bs : List Byte) (m : Memory) (a : Nat) (ha : a + bs.length ≤ limit)
    (h : withinSpace limit m = true) : withinSpace limit (memStoreBytes m a bs) = true := by
  induction bs generalizing m a with
  | nil => exact h
  | cons b rest ih =>
    simp only [List.length_cons] at ha
    exact ih _ _ (by omega) (memStore_within limit m a b (by omega) h)

/-! ## Views -/

@[simp] theorem bytesAt_length (s : State) (sp : Space) (a n : Nat) : (bytesAt s sp a n).length = n := by
  simp [bytesAt]

theorem bytesAt_getElem? (s : State) (sp : Space) (a n i : Nat) (h : i < n) :
    (bytesAt s sp a n)[i]? = some (byteAt s sp (a + i)) := by
  simp [bytesAt, h]

/-- `MemRead` answers exactly inside the space, with as many bytes as were asked for (20_memory.md R66). -/
theorem memRead_eq_some (s : State) (sp : Space) (a n : Nat) (b : List Byte) :
    memRead s sp a n = some b ↔ a + n ≤ s.cfg.maxFrameLen ∧ b = bytesAt s sp a n := by
  unfold memRead
  split
  · next h => simp; intro h'; omega
  · next h => simp only [Option.some.injEq]; constructor
              · intro e; exact ⟨by omega, e.symm⟩
              · intro e; exact e.2.symm

/-- The frame view is a view of `IN` after the preamble, or empty (47_dispatcher.md R271). -/
theorem frameView_cases (s : State) (f : List Byte) (h : frameView s = some f) :
    (s.cfg.prefixLen < s.inLen.toNat ∧ s.inLen.toNat ≤ s.cfg.maxFrameLen ∧
      f = bytesAt s .inbound s.cfg.prefixLen (s.inLen.toNat - s.cfg.prefixLen)) ∨
    (s.inLen.toNat ≤ s.cfg.prefixLen ∧ f = []) := by
  unfold frameView at h
  split at h
  · next hp =>
    obtain ⟨h1, h2⟩ := (memRead_eq_some _ _ _ _ _).1 h
    exact .inl ⟨hp, by omega, h2⟩
  · next hp => exact .inr ⟨by omega, by simpa using h.symm⟩

theorem frameView_length (s : State) (f : List Byte) (h : frameView s = some f) :
    f.length = s.inLen.toNat - s.cfg.prefixLen := by
  rcases frameView_cases s f h with ⟨_, _, rfl⟩ | ⟨h1, rfl⟩
  · simp
  · simp; omega

/-- With a legal `IN_LEN` the frame view is always defined. -/
theorem frameView_defined (s : State) (h : s.inLen.toNat ≤ s.cfg.maxFrameLen) : ∃ f, frameView s = some f := by
  unfold frameView
  split
  · next hp => exact ⟨_, (memRead_eq_some _ _ _ _ _).2 ⟨by omega, rfl⟩⟩
  · exact ⟨_, rfl⟩

/-- The bytes a sequence write put in `OUT` read back. -/
theorem bytesAt_outbound_written (s : State) (r : List Byte) (h : s.outMem = memStoreBytes [] 0 r) :
    bytesAt s .outbound 0 r.length = r := by
  apply List.ext_getElem?
  intro i
  by_cases hi : i < r.length
  · rw [bytesAt_getElem? _ _ _ _ _ hi]
    simp [byteAt, h, memLookup_memStoreBytes, hi]
  · simp only [not_lt] at hi
    rw [List.getElem?_eq_none (by simpa using hi), List.getElem?_eq_none hi]

/-- The bytes a sequence write put in `IN` read back. -/
theorem bytesAt_inbound_written (s : State) (m : Memory) (a : Nat) (r : List Byte)
    (h : s.inMem = memStoreBytes m a r) : bytesAt s .inbound a r.length = r := by
  apply List.ext_getElem?
  intro i
  by_cases hi : i < r.length
  · rw [bytesAt_getElem? _ _ _ _ _ hi]
    simp [byteAt, h, memLookup_memStoreBytes, hi]
  · simp only [not_lt] at hi
    rw [List.getElem?_eq_none (by simpa using hi), List.getElem?_eq_none hi]

/-- A view inside a view (20_memory.md R67). -/
theorem bytesAt_drop (s : State) (sp : Space) (a n k : Nat) :
    (bytesAt s sp a n).drop k = bytesAt s sp (a + k) (n - k) := by
  apply List.ext_getElem?
  intro i
  rw [List.getElem?_drop]
  by_cases hi : i < n - k
  · rw [bytesAt_getElem? _ _ _ _ _ (by omega), bytesAt_getElem? _ _ _ _ _ hi, Nat.add_assoc]
  · rw [List.getElem?_eq_none (by simp; omega), List.getElem?_eq_none (by simp; omega)]

theorem bytesAt_take (s : State) (sp : Space) (a n k : Nat) (h : k ≤ n) :
    (bytesAt s sp a n).take k = bytesAt s sp a k := by
  apply List.ext_getElem?
  intro i
  by_cases hi : i < k
  · rw [List.getElem?_take_of_lt hi, bytesAt_getElem? _ _ _ _ _ (by omega), bytesAt_getElem? _ _ _ _ _ hi]
  · rw [List.getElem?_eq_none (by simp; omega), List.getElem?_eq_none (by simp; omega)]

/-! ## Reset -/

/-- No byte of either buffer is written after reset, so both are in canonical form (10_state.md R49). -/
theorem resetWith_wf (p : Params) : (State.resetWith p).inMem.wf = true ∧ (State.resetWith p).outMem.wf = true :=
  ⟨rfl, rfl⟩

end Sys2Proof.Machine
end

