-- ==== Sys2Proof/Laws/State.lean ====
section
/-! SUPPORT. One lemma per field of the state per update of it, true by unfolding the update once. -/

namespace Sys2Proof.Machine

/-! ## The end of a command -/

@[simp] theorem endCommand_opc (s : State) (r : Report) (x y : Word) (e : Bool) : (endCommand s r x y e).opc = s.opc := rfl
@[simp] theorem endCommand_busy (s : State) (r : Report) (x y : Word) (e : Bool) : (endCommand s r x y e).busy = false := rfl
@[simp] theorem endCommand_done (s : State) (r : Report) (x y : Word) (e : Bool) : (endCommand s r x y e).done = true := rfl
@[simp] theorem endCommand_err (s : State) (r : Report) (x y : Word) (e : Bool) : (endCommand s r x y e).err = e := rfl
@[simp] theorem endCommand_arg0 (s : State) (r : Report) (x y : Word) (e : Bool) : (endCommand s r x y e).arg0 = s.arg0 := rfl
@[simp] theorem endCommand_arg1 (s : State) (r : Report) (x y : Word) (e : Bool) : (endCommand s r x y e).arg1 = s.arg1 := rfl
@[simp] theorem endCommand_arg2 (s : State) (r : Report) (x y : Word) (e : Bool) : (endCommand s r x y e).arg2 = s.arg2 := rfl
@[simp] theorem endCommand_arg3 (s : State) (r : Report) (x y : Word) (e : Bool) : (endCommand s r x y e).arg3 = s.arg3 := rfl
@[simp] theorem endCommand_res0 (s : State) (r : Report) (x y : Word) (e : Bool) : (endCommand s r x y e).res0 = x := rfl
@[simp] theorem endCommand_res1 (s : State) (r : Report) (x y : Word) (e : Bool) : (endCommand s r x y e).res1 = y := rfl
@[simp] theorem endCommand_report (s : State) (r : Report) (x y : Word) (e : Bool) : (endCommand s r x y e).report = r := rfl
@[simp] theorem endCommand_inLen (s : State) (r : Report) (x y : Word) (e : Bool) : (endCommand s r x y e).inLen = s.inLen := rfl
@[simp] theorem endCommand_outLen (s : State) (r : Report) (x y : Word) (e : Bool) : (endCommand s r x y e).outLen = s.outLen := rfl
@[simp] theorem endCommand_cache (s : State) (r : Report) (x y : Word) (e : Bool) : (endCommand s r x y e).cache = s.cache := rfl
@[simp] theorem endCommand_inMem (s : State) (r : Report) (x y : Word) (e : Bool) : (endCommand s r x y e).inMem = s.inMem := rfl
@[simp] theorem endCommand_outMem (s : State) (r : Report) (x y : Word) (e : Bool) : (endCommand s r x y e).outMem = s.outMem := rfl
@[simp] theorem endCommand_cfg (s : State) (r : Report) (x y : Word) (e : Bool) : (endCommand s r x y e).cfg = s.cfg := rfl
@[simp] theorem endCommand_inDraw (s : State) (r : Report) (x y : Word) (e : Bool) : (endCommand s r x y e).inDraw = s.inDraw := rfl
@[simp] theorem endCommand_outDraw (s : State) (r : Report) (x y : Word) (e : Bool) : (endCommand s r x y e).outDraw = s.outDraw := rfl
@[simp] theorem endCommand_delay (s : State) (r : Report) (x y : Word) (e : Bool) : (endCommand s r x y e).delay = s.delay := rfl
@[simp] theorem endCommand_issued (s : State) (r : Report) (x y : Word) (e : Bool) : (endCommand s r x y e).issued = s.issued := rfl
@[simp] theorem endCommand_hostProg (s : State) (r : Report) (x y : Word) (e : Bool) : (endCommand s r x y e).hostProg = s.hostProg := rfl
@[simp] theorem endCommand_hostPc (s : State) (r : Report) (x y : Word) (e : Bool) : (endCommand s r x y e).hostPc = s.hostPc := rfl
@[simp] theorem endCommand_seen (s : State) (r : Report) (x y : Word) (e : Bool) : (endCommand s r x y e).seen = s.seen := rfl

/-! ## Forgetting `OUT` -/

@[simp] theorem forgetOut_opc (s : State) : (forgetOut s).opc = s.opc := rfl
@[simp] theorem forgetOut_busy (s : State) : (forgetOut s).busy = s.busy := rfl
@[simp] theorem forgetOut_done (s : State) : (forgetOut s).done = s.done := rfl
@[simp] theorem forgetOut_err (s : State) : (forgetOut s).err = s.err := rfl
@[simp] theorem forgetOut_arg0 (s : State) : (forgetOut s).arg0 = s.arg0 := rfl
@[simp] theorem forgetOut_arg1 (s : State) : (forgetOut s).arg1 = s.arg1 := rfl
@[simp] theorem forgetOut_arg2 (s : State) : (forgetOut s).arg2 = s.arg2 := rfl
@[simp] theorem forgetOut_arg3 (s : State) : (forgetOut s).arg3 = s.arg3 := rfl
@[simp] theorem forgetOut_res0 (s : State) : (forgetOut s).res0 = s.res0 := rfl
@[simp] theorem forgetOut_res1 (s : State) : (forgetOut s).res1 = s.res1 := rfl
@[simp] theorem forgetOut_report (s : State) : (forgetOut s).report = s.report := rfl
@[simp] theorem forgetOut_inLen (s : State) : (forgetOut s).inLen = s.inLen := rfl
@[simp] theorem forgetOut_outLen (s : State) : (forgetOut s).outLen = s.outLen := rfl
@[simp] theorem forgetOut_cache (s : State) : (forgetOut s).cache = s.cache := rfl
@[simp] theorem forgetOut_inMem (s : State) : (forgetOut s).inMem = s.inMem := rfl
@[simp] theorem forgetOut_outMem (s : State) : (forgetOut s).outMem = [] := rfl
@[simp] theorem forgetOut_cfg (s : State) : (forgetOut s).cfg = s.cfg := rfl
@[simp] theorem forgetOut_inDraw (s : State) : (forgetOut s).inDraw = s.inDraw := rfl
@[simp] theorem forgetOut_outDraw (s : State) : (forgetOut s).outDraw = s.outDraw + 1 := rfl
@[simp] theorem forgetOut_delay (s : State) : (forgetOut s).delay = s.delay := rfl
@[simp] theorem forgetOut_issued (s : State) : (forgetOut s).issued = s.issued := rfl
@[simp] theorem forgetOut_hostProg (s : State) : (forgetOut s).hostProg = s.hostProg := rfl
@[simp] theorem forgetOut_hostPc (s : State) : (forgetOut s).hostPc = s.hostPc := rfl
@[simp] theorem forgetOut_seen (s : State) : (forgetOut s).seen = s.seen := rfl

/-! ## An accepted command write -/

@[simp] theorem latchCommand_opc (s : State) (o : BitVec 8) : (latchCommand s o).opc = o := rfl
@[simp] theorem latchCommand_busy (s : State) (o : BitVec 8) : (latchCommand s o).busy = true := rfl
@[simp] theorem latchCommand_done (s : State) (o : BitVec 8) : (latchCommand s o).done = false := rfl
@[simp] theorem latchCommand_err (s : State) (o : BitVec 8) : (latchCommand s o).err = false := rfl
@[simp] theorem latchCommand_arg0 (s : State) (o : BitVec 8) : (latchCommand s o).arg0 = s.arg0 := rfl
@[simp] theorem latchCommand_arg1 (s : State) (o : BitVec 8) : (latchCommand s o).arg1 = s.arg1 := rfl
@[simp] theorem latchCommand_arg2 (s : State) (o : BitVec 8) : (latchCommand s o).arg2 = s.arg2 := rfl
@[simp] theorem latchCommand_arg3 (s : State) (o : BitVec 8) : (latchCommand s o).arg3 = s.arg3 := rfl
@[simp] theorem latchCommand_res0 (s : State) (o : BitVec 8) : (latchCommand s o).res0 = s.res0 := rfl
@[simp] theorem latchCommand_res1 (s : State) (o : BitVec 8) : (latchCommand s o).res1 = s.res1 := rfl
@[simp] theorem latchCommand_report (s : State) (o : BitVec 8) : (latchCommand s o).report = s.report := rfl
@[simp] theorem latchCommand_inLen (s : State) (o : BitVec 8) : (latchCommand s o).inLen = s.inLen := rfl
@[simp] theorem latchCommand_outLen (s : State) (o : BitVec 8) : (latchCommand s o).outLen = s.outLen := rfl
@[simp] theorem latchCommand_cache (s : State) (o : BitVec 8) : (latchCommand s o).cache = s.cache := rfl
@[simp] theorem latchCommand_inMem (s : State) (o : BitVec 8) : (latchCommand s o).inMem = s.inMem := rfl
@[simp] theorem latchCommand_outMem (s : State) (o : BitVec 8) : (latchCommand s o).outMem = s.outMem := rfl
@[simp] theorem latchCommand_cfg (s : State) (o : BitVec 8) : (latchCommand s o).cfg = s.cfg := rfl
@[simp] theorem latchCommand_inDraw (s : State) (o : BitVec 8) : (latchCommand s o).inDraw = s.inDraw := rfl
@[simp] theorem latchCommand_outDraw (s : State) (o : BitVec 8) : (latchCommand s o).outDraw = s.outDraw := rfl
@[simp] theorem latchCommand_delay (s : State) (o : BitVec 8) : (latchCommand s o).delay = Config.engineDelay s.issued := rfl
@[simp] theorem latchCommand_issued (s : State) (o : BitVec 8) : (latchCommand s o).issued = s.issued + 1 := rfl
@[simp] theorem latchCommand_hostProg (s : State) (o : BitVec 8) : (latchCommand s o).hostProg = s.hostProg := rfl
@[simp] theorem latchCommand_hostPc (s : State) (o : BitVec 8) : (latchCommand s o).hostPc = s.hostPc := rfl
@[simp] theorem latchCommand_seen (s : State) (o : BitVec 8) : (latchCommand s o).seen = s.seen := rfl

/-! ## The host goes on -/

@[simp] theorem hostAdvance_opc (s : State) : (hostAdvance s).opc = s.opc := rfl
@[simp] theorem hostAdvance_busy (s : State) : (hostAdvance s).busy = s.busy := rfl
@[simp] theorem hostAdvance_done (s : State) : (hostAdvance s).done = s.done := rfl
@[simp] theorem hostAdvance_err (s : State) : (hostAdvance s).err = s.err := rfl
@[simp] theorem hostAdvance_arg0 (s : State) : (hostAdvance s).arg0 = s.arg0 := rfl
@[simp] theorem hostAdvance_arg1 (s : State) : (hostAdvance s).arg1 = s.arg1 := rfl
@[simp] theorem hostAdvance_arg2 (s : State) : (hostAdvance s).arg2 = s.arg2 := rfl
@[simp] theorem hostAdvance_arg3 (s : State) : (hostAdvance s).arg3 = s.arg3 := rfl
@[simp] theorem hostAdvance_res0 (s : State) : (hostAdvance s).res0 = s.res0 := rfl
@[simp] theorem hostAdvance_res1 (s : State) : (hostAdvance s).res1 = s.res1 := rfl
@[simp] theorem hostAdvance_report (s : State) : (hostAdvance s).report = s.report := rfl
@[simp] theorem hostAdvance_inLen (s : State) : (hostAdvance s).inLen = s.inLen := rfl
@[simp] theorem hostAdvance_outLen (s : State) : (hostAdvance s).outLen = s.outLen := rfl
@[simp] theorem hostAdvance_cache (s : State) : (hostAdvance s).cache = s.cache := rfl
@[simp] theorem hostAdvance_inMem (s : State) : (hostAdvance s).inMem = s.inMem := rfl
@[simp] theorem hostAdvance_outMem (s : State) : (hostAdvance s).outMem = s.outMem := rfl
@[simp] theorem hostAdvance_cfg (s : State) : (hostAdvance s).cfg = s.cfg := rfl
@[simp] theorem hostAdvance_inDraw (s : State) : (hostAdvance s).inDraw = s.inDraw := rfl
@[simp] theorem hostAdvance_outDraw (s : State) : (hostAdvance s).outDraw = s.outDraw := rfl
@[simp] theorem hostAdvance_delay (s : State) : (hostAdvance s).delay = s.delay - 1 := rfl
@[simp] theorem hostAdvance_issued (s : State) : (hostAdvance s).issued = s.issued := rfl
@[simp] theorem hostAdvance_hostProg (s : State) : (hostAdvance s).hostProg = s.hostProg := rfl
@[simp] theorem hostAdvance_hostPc (s : State) : (hostAdvance s).hostPc = s.hostPc + 1 := rfl
@[simp] theorem hostAdvance_seen (s : State) : (hostAdvance s).seen = s.seen := rfl

/-! ## The host reads -/

@[simp] theorem hostSees_opc (s : State) (v : Word) : (hostSees s v).opc = s.opc := rfl
@[simp] theorem hostSees_busy (s : State) (v : Word) : (hostSees s v).busy = s.busy := rfl
@[simp] theorem hostSees_done (s : State) (v : Word) : (hostSees s v).done = s.done := rfl
@[simp] theorem hostSees_err (s : State) (v : Word) : (hostSees s v).err = s.err := rfl
@[simp] theorem hostSees_arg0 (s : State) (v : Word) : (hostSees s v).arg0 = s.arg0 := rfl
@[simp] theorem hostSees_arg1 (s : State) (v : Word) : (hostSees s v).arg1 = s.arg1 := rfl
@[simp] theorem hostSees_arg2 (s : State) (v : Word) : (hostSees s v).arg2 = s.arg2 := rfl
@[simp] theorem hostSees_arg3 (s : State) (v : Word) : (hostSees s v).arg3 = s.arg3 := rfl
@[simp] theorem hostSees_res0 (s : State) (v : Word) : (hostSees s v).res0 = s.res0 := rfl
@[simp] theorem hostSees_res1 (s : State) (v : Word) : (hostSees s v).res1 = s.res1 := rfl
@[simp] theorem hostSees_report (s : State) (v : Word) : (hostSees s v).report = s.report := rfl
@[simp] theorem hostSees_inLen (s : State) (v : Word) : (hostSees s v).inLen = s.inLen := rfl
@[simp] theorem hostSees_outLen (s : State) (v : Word) : (hostSees s v).outLen = s.outLen := rfl
@[simp] theorem hostSees_cache (s : State) (v : Word) : (hostSees s v).cache = s.cache := rfl
@[simp] theorem hostSees_inMem (s : State) (v : Word) : (hostSees s v).inMem = s.inMem := rfl
@[simp] theorem hostSees_outMem (s : State) (v : Word) : (hostSees s v).outMem = s.outMem := rfl
@[simp] theorem hostSees_cfg (s : State) (v : Word) : (hostSees s v).cfg = s.cfg := rfl
@[simp] theorem hostSees_inDraw (s : State) (v : Word) : (hostSees s v).inDraw = s.inDraw := rfl
@[simp] theorem hostSees_outDraw (s : State) (v : Word) : (hostSees s v).outDraw = s.outDraw := rfl
@[simp] theorem hostSees_delay (s : State) (v : Word) : (hostSees s v).delay = s.delay := rfl
@[simp] theorem hostSees_issued (s : State) (v : Word) : (hostSees s v).issued = s.issued := rfl
@[simp] theorem hostSees_hostProg (s : State) (v : Word) : (hostSees s v).hostProg = s.hostProg := rfl
@[simp] theorem hostSees_hostPc (s : State) (v : Word) : (hostSees s v).hostPc = s.hostPc := rfl
@[simp] theorem hostSees_seen (s : State) (v : Word) : (hostSees s v).seen = v :: s.seen := rfl

/-! ## The host branches -/

@[simp] theorem hostBranch_opc (s : State) (v : Word) (bit target : Nat) : (hostBranch s v bit target).opc = s.opc := rfl
@[simp] theorem hostBranch_busy (s : State) (v : Word) (bit target : Nat) : (hostBranch s v bit target).busy = s.busy := rfl
@[simp] theorem hostBranch_done (s : State) (v : Word) (bit target : Nat) : (hostBranch s v bit target).done = s.done := rfl
@[simp] theorem hostBranch_err (s : State) (v : Word) (bit target : Nat) : (hostBranch s v bit target).err = s.err := rfl
@[simp] theorem hostBranch_arg0 (s : State) (v : Word) (bit target : Nat) : (hostBranch s v bit target).arg0 = s.arg0 := rfl
@[simp] theorem hostBranch_arg1 (s : State) (v : Word) (bit target : Nat) : (hostBranch s v bit target).arg1 = s.arg1 := rfl
@[simp] theorem hostBranch_arg2 (s : State) (v : Word) (bit target : Nat) : (hostBranch s v bit target).arg2 = s.arg2 := rfl
@[simp] theorem hostBranch_arg3 (s : State) (v : Word) (bit target : Nat) : (hostBranch s v bit target).arg3 = s.arg3 := rfl
@[simp] theorem hostBranch_res0 (s : State) (v : Word) (bit target : Nat) : (hostBranch s v bit target).res0 = s.res0 := rfl
@[simp] theorem hostBranch_res1 (s : State) (v : Word) (bit target : Nat) : (hostBranch s v bit target).res1 = s.res1 := rfl
@[simp] theorem hostBranch_report (s : State) (v : Word) (bit target : Nat) : (hostBranch s v bit target).report = s.report := rfl
@[simp] theorem hostBranch_inLen (s : State) (v : Word) (bit target : Nat) : (hostBranch s v bit target).inLen = s.inLen := rfl
@[simp] theorem hostBranch_outLen (s : State) (v : Word) (bit target : Nat) : (hostBranch s v bit target).outLen = s.outLen := rfl
@[simp] theorem hostBranch_cache (s : State) (v : Word) (bit target : Nat) : (hostBranch s v bit target).cache = s.cache := rfl
@[simp] theorem hostBranch_inMem (s : State) (v : Word) (bit target : Nat) : (hostBranch s v bit target).inMem = s.inMem := rfl
@[simp] theorem hostBranch_outMem (s : State) (v : Word) (bit target : Nat) : (hostBranch s v bit target).outMem = s.outMem := rfl
@[simp] theorem hostBranch_cfg (s : State) (v : Word) (bit target : Nat) : (hostBranch s v bit target).cfg = s.cfg := rfl
@[simp] theorem hostBranch_inDraw (s : State) (v : Word) (bit target : Nat) : (hostBranch s v bit target).inDraw = s.inDraw := rfl
@[simp] theorem hostBranch_outDraw (s : State) (v : Word) (bit target : Nat) : (hostBranch s v bit target).outDraw = s.outDraw := rfl
@[simp] theorem hostBranch_delay (s : State) (v : Word) (bit target : Nat) : (hostBranch s v bit target).delay = s.delay := rfl
@[simp] theorem hostBranch_issued (s : State) (v : Word) (bit target : Nat) : (hostBranch s v bit target).issued = s.issued := rfl
@[simp] theorem hostBranch_hostProg (s : State) (v : Word) (bit target : Nat) : (hostBranch s v bit target).hostProg = s.hostProg := rfl
@[simp] theorem hostBranch_hostPc (s : State) (v : Word) (bit target : Nat) : (hostBranch s v bit target).hostPc = if v.getLsbD bit then s.hostPc else target := rfl
@[simp] theorem hostBranch_seen (s : State) (v : Word) (bit target : Nat) : (hostBranch s v bit target).seen = s.seen := rfl

/-! ## The host resets the block -/

@[simp] theorem hostReset_opc (s : State) : (hostReset s).opc = 0 := rfl
@[simp] theorem hostReset_busy (s : State) : (hostReset s).busy = false := rfl
@[simp] theorem hostReset_done (s : State) : (hostReset s).done = false := rfl
@[simp] theorem hostReset_err (s : State) : (hostReset s).err = false := rfl
@[simp] theorem hostReset_arg0 (s : State) : (hostReset s).arg0 = 0 := rfl
@[simp] theorem hostReset_arg1 (s : State) : (hostReset s).arg1 = 0 := rfl
@[simp] theorem hostReset_arg2 (s : State) : (hostReset s).arg2 = 0 := rfl
@[simp] theorem hostReset_arg3 (s : State) : (hostReset s).arg3 = 0 := rfl
@[simp] theorem hostReset_res0 (s : State) : (hostReset s).res0 = 0 := rfl
@[simp] theorem hostReset_res1 (s : State) : (hostReset s).res1 = 0 := rfl
@[simp] theorem hostReset_report (s : State) : (hostReset s).report = Report.zero := rfl
@[simp] theorem hostReset_inLen (s : State) : (hostReset s).inLen = 0 := rfl
@[simp] theorem hostReset_outLen (s : State) : (hostReset s).outLen = 0 := rfl
@[simp] theorem hostReset_cache (s : State) : (hostReset s).cache = initialCache s.cfg := rfl
@[simp] theorem hostReset_inMem (s : State) : (hostReset s).inMem = [] := rfl
@[simp] theorem hostReset_outMem (s : State) : (hostReset s).outMem = [] := rfl
@[simp] theorem hostReset_cfg (s : State) : (hostReset s).cfg = s.cfg := rfl
@[simp] theorem hostReset_inDraw (s : State) : (hostReset s).inDraw = s.inDraw + 1 := rfl
@[simp] theorem hostReset_outDraw (s : State) : (hostReset s).outDraw = s.outDraw + 1 := rfl
@[simp] theorem hostReset_delay (s : State) : (hostReset s).delay = 0 := rfl
@[simp] theorem hostReset_issued (s : State) : (hostReset s).issued = s.issued := rfl
@[simp] theorem hostReset_hostProg (s : State) : (hostReset s).hostProg = s.hostProg := rfl
@[simp] theorem hostReset_hostPc (s : State) : (hostReset s).hostPc = s.hostPc := rfl
@[simp] theorem hostReset_seen (s : State) : (hostReset s).seen = s.seen := rfl

/-! ## An opcode latched with the engine's step next -/

@[simp] theorem latchedNow_opc (s : State) (o : BitVec 8) : (latchedNow s o).opc = o := rfl
@[simp] theorem latchedNow_busy (s : State) (o : BitVec 8) : (latchedNow s o).busy = true := rfl
@[simp] theorem latchedNow_done (s : State) (o : BitVec 8) : (latchedNow s o).done = false := rfl
@[simp] theorem latchedNow_err (s : State) (o : BitVec 8) : (latchedNow s o).err = false := rfl
@[simp] theorem latchedNow_arg0 (s : State) (o : BitVec 8) : (latchedNow s o).arg0 = s.arg0 := rfl
@[simp] theorem latchedNow_arg1 (s : State) (o : BitVec 8) : (latchedNow s o).arg1 = s.arg1 := rfl
@[simp] theorem latchedNow_arg2 (s : State) (o : BitVec 8) : (latchedNow s o).arg2 = s.arg2 := rfl
@[simp] theorem latchedNow_arg3 (s : State) (o : BitVec 8) : (latchedNow s o).arg3 = s.arg3 := rfl
@[simp] theorem latchedNow_res0 (s : State) (o : BitVec 8) : (latchedNow s o).res0 = s.res0 := rfl
@[simp] theorem latchedNow_res1 (s : State) (o : BitVec 8) : (latchedNow s o).res1 = s.res1 := rfl
@[simp] theorem latchedNow_report (s : State) (o : BitVec 8) : (latchedNow s o).report = s.report := rfl
@[simp] theorem latchedNow_inLen (s : State) (o : BitVec 8) : (latchedNow s o).inLen = s.inLen := rfl
@[simp] theorem latchedNow_outLen (s : State) (o : BitVec 8) : (latchedNow s o).outLen = s.outLen := rfl
@[simp] theorem latchedNow_cache (s : State) (o : BitVec 8) : (latchedNow s o).cache = s.cache := rfl
@[simp] theorem latchedNow_inMem (s : State) (o : BitVec 8) : (latchedNow s o).inMem = s.inMem := rfl
@[simp] theorem latchedNow_outMem (s : State) (o : BitVec 8) : (latchedNow s o).outMem = s.outMem := rfl
@[simp] theorem latchedNow_cfg (s : State) (o : BitVec 8) : (latchedNow s o).cfg = s.cfg := rfl
@[simp] theorem latchedNow_inDraw (s : State) (o : BitVec 8) : (latchedNow s o).inDraw = s.inDraw := rfl
@[simp] theorem latchedNow_outDraw (s : State) (o : BitVec 8) : (latchedNow s o).outDraw = s.outDraw := rfl
@[simp] theorem latchedNow_delay (s : State) (o : BitVec 8) : (latchedNow s o).delay = 0 := rfl
@[simp] theorem latchedNow_issued (s : State) (o : BitVec 8) : (latchedNow s o).issued = s.issued := rfl
@[simp] theorem latchedNow_hostProg (s : State) (o : BitVec 8) : (latchedNow s o).hostProg = s.hostProg := rfl
@[simp] theorem latchedNow_hostPc (s : State) (o : BitVec 8) : (latchedNow s o).hostPc = s.hostPc := rfl
@[simp] theorem latchedNow_seen (s : State) (o : BitVec 8) : (latchedNow s o).seen = s.seen := rfl

/-! ## A frame handed over -/

@[simp] theorem withFrame_opc (s : State) (f : List Byte) : (withFrame s f).opc = s.opc := rfl
@[simp] theorem withFrame_busy (s : State) (f : List Byte) : (withFrame s f).busy = s.busy := rfl
@[simp] theorem withFrame_done (s : State) (f : List Byte) : (withFrame s f).done = s.done := rfl
@[simp] theorem withFrame_err (s : State) (f : List Byte) : (withFrame s f).err = s.err := rfl
@[simp] theorem withFrame_arg0 (s : State) (f : List Byte) : (withFrame s f).arg0 = s.arg0 := rfl
@[simp] theorem withFrame_arg1 (s : State) (f : List Byte) : (withFrame s f).arg1 = s.arg1 := rfl
@[simp] theorem withFrame_arg2 (s : State) (f : List Byte) : (withFrame s f).arg2 = s.arg2 := rfl
@[simp] theorem withFrame_arg3 (s : State) (f : List Byte) : (withFrame s f).arg3 = s.arg3 := rfl
@[simp] theorem withFrame_res0 (s : State) (f : List Byte) : (withFrame s f).res0 = s.res0 := rfl
@[simp] theorem withFrame_res1 (s : State) (f : List Byte) : (withFrame s f).res1 = s.res1 := rfl
@[simp] theorem withFrame_report (s : State) (f : List Byte) : (withFrame s f).report = s.report := rfl
@[simp] theorem withFrame_inLen (s : State) (f : List Byte) : (withFrame s f).inLen = BitVec.ofNat 16 f.length := rfl
@[simp] theorem withFrame_outLen (s : State) (f : List Byte) : (withFrame s f).outLen = s.outLen := rfl
@[simp] theorem withFrame_cache (s : State) (f : List Byte) : (withFrame s f).cache = s.cache := rfl
@[simp] theorem withFrame_inMem (s : State) (f : List Byte) : (withFrame s f).inMem = memStoreBytes s.inMem 0 f := rfl
@[simp] theorem withFrame_outMem (s : State) (f : List Byte) : (withFrame s f).outMem = s.outMem := rfl
@[simp] theorem withFrame_cfg (s : State) (f : List Byte) : (withFrame s f).cfg = Params.mk s.cfg.localMac s.cfg.localIp s.cfg.isnConst 0 s.cfg.maxFrameLen s.cfg.cacheCapacity s.cfg.extraStatic := rfl
@[simp] theorem withFrame_inDraw (s : State) (f : List Byte) : (withFrame s f).inDraw = s.inDraw := rfl
@[simp] theorem withFrame_outDraw (s : State) (f : List Byte) : (withFrame s f).outDraw = s.outDraw := rfl
@[simp] theorem withFrame_delay (s : State) (f : List Byte) : (withFrame s f).delay = s.delay := rfl
@[simp] theorem withFrame_issued (s : State) (f : List Byte) : (withFrame s f).issued = s.issued := rfl
@[simp] theorem withFrame_hostProg (s : State) (f : List Byte) : (withFrame s f).hostProg = s.hostProg := rfl
@[simp] theorem withFrame_hostPc (s : State) (f : List Byte) : (withFrame s f).hostPc = s.hostPc := rfl
@[simp] theorem withFrame_seen (s : State) (f : List Byte) : (withFrame s f).seen = s.seen := rfl

/-! ## After reset -/

@[simp] theorem resetWith_opc (p : Params) : (State.resetWith p).opc = 0 := rfl
@[simp] theorem resetWith_busy (p : Params) : (State.resetWith p).busy = false := rfl
@[simp] theorem resetWith_done (p : Params) : (State.resetWith p).done = false := rfl
@[simp] theorem resetWith_err (p : Params) : (State.resetWith p).err = false := rfl
@[simp] theorem resetWith_arg0 (p : Params) : (State.resetWith p).arg0 = 0 := rfl
@[simp] theorem resetWith_arg1 (p : Params) : (State.resetWith p).arg1 = 0 := rfl
@[simp] theorem resetWith_arg2 (p : Params) : (State.resetWith p).arg2 = 0 := rfl
@[simp] theorem resetWith_arg3 (p : Params) : (State.resetWith p).arg3 = 0 := rfl
@[simp] theorem resetWith_res0 (p : Params) : (State.resetWith p).res0 = 0 := rfl
@[simp] theorem resetWith_res1 (p : Params) : (State.resetWith p).res1 = 0 := rfl
@[simp] theorem resetWith_report (p : Params) : (State.resetWith p).report = Report.zero := rfl
@[simp] theorem resetWith_inLen (p : Params) : (State.resetWith p).inLen = 0 := rfl
@[simp] theorem resetWith_outLen (p : Params) : (State.resetWith p).outLen = 0 := rfl
@[simp] theorem resetWith_cache (p : Params) : (State.resetWith p).cache = initialCache p := rfl
@[simp] theorem resetWith_inMem (p : Params) : (State.resetWith p).inMem = [] := rfl
@[simp] theorem resetWith_outMem (p : Params) : (State.resetWith p).outMem = [] := rfl
@[simp] theorem resetWith_cfg (p : Params) : (State.resetWith p).cfg = p := rfl
@[simp] theorem resetWith_inDraw (p : Params) : (State.resetWith p).inDraw = 0 := rfl
@[simp] theorem resetWith_outDraw (p : Params) : (State.resetWith p).outDraw = 0 := rfl
@[simp] theorem resetWith_delay (p : Params) : (State.resetWith p).delay = 0 := rfl
@[simp] theorem resetWith_issued (p : Params) : (State.resetWith p).issued = 0 := rfl
@[simp] theorem resetWith_hostProg (p : Params) : (State.resetWith p).hostProg = [] := rfl
@[simp] theorem resetWith_hostPc (p : Params) : (State.resetWith p).hostPc = 0 := rfl
@[simp] theorem resetWith_seen (p : Params) : (State.resetWith p).seen = [] := rfl

end Sys2Proof.Machine
end

