-- ==== Sys2Proof/Laws/Commands.lean ====
section
/-! SUPPORT. What the shared operations can do, said once: the frame view, the end of a command, the three ends of
`PROCESS` (47_dispatcher.md R274) and the decodes before a key. -/

namespace Sys2Proof.Machine

/-! ## The frame view -/

theorem frameView_handedOver (s : State) (h : s.inLen.toNat ≤ s.cfg.maxFrameLen) : frameView s = some (handedOver s) := by
  unfold frameView handedOver
  split
  · next hp => exact (memRead_eq_some _ _ _ _ _).2 ⟨by omega, rfl⟩
  · next hp => rw [show s.inLen.toNat - s.cfg.prefixLen = 0 by omega]; rfl

theorem frameView_some (s : State) (f : List Byte) (h : frameView s = some f) : f = handedOver s := by
  rcases frameView_cases s f h with ⟨_, _, rfl⟩ | ⟨hp, rfl⟩
  · rfl
  · unfold handedOver; rw [show s.inLen.toNat - s.cfg.prefixLen = 0 by omega]; rfl

theorem handedOver_length (s : State) : (handedOver s).length = s.inLen.toNat - s.cfg.prefixLen := by
  simp [handedOver]

/-! ## The ends of a command -/

theorem endCommand_commandEnds (s : State) (r : Report) (x y : Word) (e : Bool) :
    CommandEnds s (endCommand s r x y e) r e x y := by
  constructor <;> first | rfl | (intro a; rfl)

theorem endCommand_outKept (s : State) (r : Report) (x y : Word) (e : Bool) : OutKept s (endCommand s r x y e) :=
  ⟨rfl, fun _ => rfl⟩

theorem finishQuiet_dropped (s : State) (c : Cache) (r : Report) :
    ∃ t, finishQuiet { s with cache := c } r = .next t ∧ Dropped s t r false ∧ t.cache = c := by
  refine ⟨_, rfl, ⟨?_, rfl⟩, rfl⟩
  constructor <;> first | rfl | (intro a; rfl)

theorem raiseMalformed_dropped (s : State) (c : Cache) (r : Report) :
    ∃ t, raiseMalformed { s with cache := c } r = .next t ∧ Dropped s t r true ∧ t.cache = c := by
  refine ⟨_, rfl, ⟨?_, rfl⟩, rfl⟩
  constructor <;> first | rfl | (intro a; rfl)

theorem emitReply_replied (s : State) (c : Cache) (rep : Report) (r : List Byte)
    (h : r.length ≤ s.cfg.maxFrameLen) (h16 : r.length < 65536) :
    ∃ t, emitReply { s with cache := c } rep r = .next t ∧ Replied s t rep r ∧ t.cache = c := by
  unfold emitReply
  rw [if_neg (by simpa using h)]
  refine ⟨_, rfl, ⟨?_, ?_, ?_⟩, rfl⟩
  · constructor <;> first | rfl | (intro a; rfl)
  · simp; omega
  · exact bytesAt_outbound_written _ _ rfl

/-- How a run ends: one of the three ends of R274, each with the cache the run left. -/
theorem endProcess_cases (s : State) (r : Run) :
    (∃ d reply, r.ending = .emit d reply ∧ s.cfg.maxFrameLen < reply.length ∧ endProcess s r = .fault .bufferRange) ∨
    (∃ d reply t, r.ending = .emit d reply ∧ reply.length ≤ s.cfg.maxFrameLen ∧ endProcess s r = .next t ∧
      t = { endCommand (forgetOut { s with cache := r.cache }) (runReport r) 1 (BitVec.ofNat 32 reply.length) false with
        outMem := memStoreBytes [] 0 reply, outLen := BitVec.ofNat 16 reply.length }) ∨
    (∃ d t, r.ending = .finish d ∧ endProcess s r = .next t ∧ Dropped s t (runReport r) false ∧ t.cache = r.cache ∧
      t = { endCommand (forgetOut { s with cache := r.cache }) (runReport r) 0 0 false with outLen := 0 }) ∨
    (∃ d t, r.ending = .raise d ∧ endProcess s r = .next t ∧ Dropped s t (runReport r) true ∧ t.cache = r.cache ∧
      t = { endCommand (forgetOut { s with cache := r.cache }) (runReport r) 0 0 true with outLen := 0 }) := by
  obtain ⟨e, m, ev, fl, c⟩ := r
  cases e with
  | emit d reply =>
    by_cases h : s.cfg.maxFrameLen < reply.length
    · exact .inl ⟨d, reply, rfl, h, by simp [endProcess, emitReply, h]⟩
    · exact .inr (.inl ⟨d, reply, _, rfl, by omega, by simp [endProcess, emitReply, h], rfl⟩)
  | finish d =>
    obtain ⟨t, h1, h2, h3⟩ := finishQuiet_dropped s c (runReport ⟨.finish d, m, ev, fl, c⟩)
    exact .inr (.inr (.inl ⟨d, t, rfl, h1, h2, h3, by injection h1 with h1; exact h1.symm⟩))
  | raise d =>
    obtain ⟨t, h1, h2, h3⟩ := raiseMalformed_dropped s c (runReport ⟨.raise d, m, ev, fl, c⟩)
    exact .inr (.inr (.inr ⟨d, t, rfl, h1, h2, h3, by injection h1 with h1; exact h1.symm⟩))

theorem endProcess_finish (s : State) (r : Run) (d : Disposition) (h : r.ending = .finish d) :
    ∃ t, endProcess s r = .next t ∧ Dropped s t (runReport r) false ∧ t.cache = r.cache := by
  obtain ⟨e, m, ev, fl, c⟩ := r
  subst h
  exact finishQuiet_dropped s c _

theorem endProcess_raise (s : State) (r : Run) (d : Disposition) (h : r.ending = .raise d) :
    ∃ t, endProcess s r = .next t ∧ Dropped s t (runReport r) true ∧ t.cache = r.cache := by
  obtain ⟨e, m, ev, fl, c⟩ := r
  subst h
  exact raiseMalformed_dropped s c _

theorem endProcess_emit (s : State) (r : Run) (d : Disposition) (reply : List Byte) (h : r.ending = .emit d reply)
    (hl : reply.length ≤ s.cfg.maxFrameLen) (h16 : reply.length < 65536) :
    ∃ t, endProcess s r = .next t ∧ Replied s t (runReport r) reply ∧ t.cache = r.cache := by
  obtain ⟨e, m, ev, fl, c⟩ := r
  subst h
  exact emitReply_replied s c _ reply hl h16

/-! ## The decodes before a key -/

theorem onFrame_eq (s : State) (k : EthHeader → List Byte → Run) (h : s.inLen.toNat ≤ s.cfg.maxFrameLen) :
    onFrame s k =
      endProcess s (orMalformed (ethDecode (handedOver s)) s.cache fun eth => k eth (handedOver s)) := by
  simp only [onFrame, frameView_handedOver s h, withView]

/-- Two meanings over the frame agree when their runs do on the frame handed over. -/
theorem onFrame_congr (s : State) (k k' : EthHeader → List Byte → Run)
    (h : ∀ eth, ethDecode (handedOver s) = .ok eth → k eth (handedOver s) = k' eth (handedOver s)) :
    onFrame s k = onFrame s k' := by
  unfold onFrame
  cases hf : frameView s with
  | none => rfl
  | some f =>
    obtain rfl := frameView_some s f hf
    simp only [withView]
    congr 1
    cases he : ethDecode (handedOver s) with
    | error d => rfl
    | ok eth => exact h eth he

/-- Every meaning over the frame is the run of its frame, or the fault of an illegal length. -/
theorem onFrame_cases (s : State) (k : EthHeader → List Byte → Run) :
    (s.cfg.maxFrameLen < s.inLen.toNat ∧ onFrame s k = .fault .bufferRange) ∨
    onFrame s k = endProcess s (orMalformed (ethDecode (handedOver s)) s.cache fun eth => k eth (handedOver s)) := by
  unfold onFrame
  cases hf : frameView s with
  | none =>
    refine .inl ⟨?_, rfl⟩
    by_contra hc
    rw [frameView_handedOver s (by omega)] at hf
    exact absurd hf (by simp)
  | some f =>
    obtain rfl := frameView_some s f hf
    exact .inr rfl

end Sys2Proof.Machine
end

