-- ==== Sys2Proof/Laws/Frames.lean ====
section
/-! SUPPORT. The header decoders and the reply builders against plain reads of the frame's bytes (Safety.lean). -/

namespace Sys2Proof.Machine

/-! ## Slices -/

theorem slice_eq_append (b : List Byte) (i j k : Nat) (h : i ≤ j) (hk : j ≤ k) :
    slice b i j ++ slice b j k = slice b i k := by
  unfold slice
  rw [show k - i = (j - i) + (k - j) by omega, List.take_add, List.drop_drop, show i + (j - i) = j by omega]

theorem slice_one (b : List Byte) (i : Nat) (h : i < b.length) : slice b i (i + 1) = [rd8 b i] := by
  unfold slice
  rw [List.drop_eq_getElem_cons h, show i + 1 - i = 1 by omega, List.take_succ_cons, List.take_zero]
  simp only [rd8, List.getD, List.getElem?_eq_getElem h, Option.getD_some]

theorem slice_two (b : List Byte) (i : Nat) (h : i + 2 ≤ b.length) : slice b i (i + 2) = be16 (rd16 b i) := by
  rw [be16_rd16, ← slice_eq_append b i (i + 1) (i + 2) (by omega) (by omega), slice_one b i (by omega),
    slice_one b (i + 1) (by omega)]
  rfl

theorem slice_four (b : List Byte) (i : Nat) (h : i + 4 ≤ b.length) : slice b i (i + 4) = be32 (rd32 b i) := by
  rw [be32_rd32, ← slice_eq_append b i (i + 2) (i + 4) (by omega) (by omega), slice_two b i (by omega),
    slice_two b (i + 2) (by omega), be16_rd16, be16_rd16]
  rfl

theorem slice_six (b : List Byte) (i : Nat) (h : i + 6 ≤ b.length) : slice b i (i + 6) = macBytes (rdMac b i) := by
  rw [macBytes_rdMac, ← slice_eq_append b i (i + 2) (i + 6) (by omega) (by omega), slice_two b i (by omega),
    slice_four b (i + 2) (by omega), be16_rd16, be32_rd32]
  rfl

theorem slice_drop (b : List Byte) (k i j : Nat) : slice (b.drop k) i j = slice b (k + i) (k + j) := by
  unfold slice
  rw [List.drop_drop, show k + j - (k + i) = j - i by omega]

/-- A patch inside a concatenation replaces the part it covers. -/
theorem patch_append (a old b new : List Byte) (h : old.length = new.length) :
    patch (a ++ old ++ b) a.length new = a ++ new ++ b := by
  unfold patch
  have h1 : (a ++ old ++ b).take a.length = a := by simp
  have h2 : (a ++ old ++ b).drop (a.length + new.length) = b := by
    rw [← h, ← List.length_append]; simp
  rw [h1, h2]

theorem patch_append' (a old b new : List Byte) (i : Nat) (hi : a.length = i) (h : old.length = new.length) :
    patch (a ++ old ++ b) i new = a ++ new ++ b := by
  rw [← hi]; exact patch_append a old b new h

/-! ## Decoders -/

theorem ethDecode_of_length (f : List Byte) (h : 14 ≤ f.length) :
    ethDecode f = .ok { dst := rdMac f 0, src := rdMac f 6, ethertype := rd16 f 12 } := by
  unfold ethDecode; rw [if_neg (by omega)]

theorem ethDecode_short (f : List Byte) (h : f.length < 14) : ethDecode f = .error .ethTooShort := by
  unfold ethDecode; rw [if_pos h]

/-- The message of an ARP frame, its fields read at their frame offsets. -/
theorem arpDecode_frame (f : List Byte) (h : 42 ≤ f.length) :
    arpDecode (f.drop 14) = .ok
      { hardwareType := rd16 f 14, protoType := rd16 f 16, hardwareSize := rd8 f 18, protoSize := rd8 f 19
        opcode := rd16 f 20, senderMac := rdMac f 22, senderIp := rd32 f 28, targetMac := rdMac f 32
        targetIp := rd32 f 38 } := by
  unfold arpDecode
  rw [if_neg (by simp; omega)]
  simp only [rd16_drop, rd8_drop, rdMac_drop, rd32_drop]

theorem arpDecode_short (f : List Byte) (h : f.length < 42) : arpDecode (f.drop 14) = .error .arpTooShort := by
  unfold arpDecode
  rw [if_pos (by simp; omega)]

theorem ipv4Header_version (f : List Byte) : (ipv4Header (f.drop 14)).version = (rd8 f 14).extractLsb' 4 4 := by
  simp only [ipv4Header, rd8_drop]

theorem ipv4Header_ihl (f : List Byte) : (ipv4Header (f.drop 14)).ihl.toNat = ihlOf f := by
  simp only [ipv4Header, rd8_drop, ihlOf]

theorem ipv4Header_protocol (f : List Byte) : (ipv4Header (f.drop 14)).protocol = rd8 f 23 := by
  simp only [ipv4Header, rd8_drop]

theorem ipv4Header_addresses (f : List Byte) :
    (ipv4Header (f.drop 14)).sourceIp = rd32 f 26 ∧ (ipv4Header (f.drop 14)).destIp = rd32 f 30 := by
  simp only [ipv4Header, rd32_drop, and_self]

theorem ipv4Header_raw20 (f : List Byte) : (ipv4Header (f.drop 14)).raw20 = slice f 14 34 := by
  simp only [ipv4Header, slice_drop]

theorem upperView_frame (f : List Byte) : upperView (ipv4Header (f.drop 14)) (f.drop 14) = upperOf f := by
  unfold upperView upperOf
  rw [ipv4Header_ihl, List.drop_drop]

/-- The IPv4 decoder on a frame's payload, as the four checks in the frame's own terms (44_ipv4.md R210). -/
theorem ipv4Decode_frame (f : List Byte) :
    ipv4Decode (f.drop 14) =
      if f.length < 34 then .error .ipv4TooShort
      else if (rd8 f 14).extractLsb' 4 4 ≠ 4 then .error .ipv4BadVersion
      else if ihlOf f < 5 then .error .ipv4BadIhl
      else if f.length < 14 + ihlOf f * 4 then .error .ipv4TooShort
      else .ok (ipv4Header (f.drop 14)) := by
  unfold ipv4Decode
  rw [ipv4Header_version, ipv4Header_ihl]
  by_cases h : f.length < 34
  · rw [if_pos h, if_pos (by simp; omega)]
  · rw [if_neg h, if_neg (by simp; omega)]
    by_cases hv : (rd8 f 14).extractLsb' 4 4 ≠ 4
    · rw [if_pos hv, if_pos hv]
    · rw [if_neg hv, if_neg hv]
      by_cases hi : ihlOf f < 5
      · rw [if_pos hi, if_pos hi]
      · rw [if_neg hi, if_neg hi]
        by_cases hl : f.length < 14 + ihlOf f * 4
        · rw [if_pos hl, if_pos (by simp; omega)]
        · rw [if_neg hl, if_neg (by simp; omega)]

theorem ipv4Decode_ok (f : List Byte) (h : isIpv4Frame f) : ipv4Decode (f.drop 14) = .ok (ipv4Header (f.drop 14)) := by
  obtain ⟨h1, -, h3, h4, h5⟩ := h
  rw [ipv4Decode_frame, if_neg (by omega), if_neg (by simpa using h3), if_neg (by omega), if_neg (by omega)]

theorem ipv4Decode_ok_iff (f : List Byte) (ht : rd16 f 12 = 0x0800) (h : Ipv4Header) :
    ipv4Decode (f.drop 14) = .ok h ↔ isIpv4Frame f ∧ h = ipv4Header (f.drop 14) := by
  constructor
  · intro e
    rw [ipv4Decode_frame] at e
    split at e
    · exact absurd e (by simp)
    · split at e
      · exact absurd e (by simp)
      · next hv =>
        split at e
        · exact absurd e (by simp)
        · split at e
          · exact absurd e (by simp)
          · injection e with e
            exact ⟨⟨by omega, ht, by simpa using hv, by omega, by omega⟩, e.symm⟩
  · rintro ⟨hf, rfl⟩
    exact ipv4Decode_ok f hf

theorem headerMismatch_frame (f : List Byte) (h : 34 ≤ f.length) :
    headerMismatch (ipv4Header (f.drop 14)) = headerFails f := by
  unfold headerMismatch headerFails csum16
  rw [ipv4Header_raw20, if_pos (by rw [slice_length]; omega)]
  rfl

/-- The ICMP decoder as its one check (45_icmp.md R230). -/
theorem icmpDecode_short (u : List Byte) (h : u.length < 8) : icmpDecode u = .error .icmpTooShort := by
  unfold icmpDecode; rw [if_pos h]

theorem icmpDecode_ok (u : List Byte) (h : 8 ≤ u.length) :
    icmpDecode u = .ok { type := rd8 u 0, code := rd8 u 1, checksum := rd16 u 2, rest := slice u 4 8, payload := u.drop 8 } := by
  unfold icmpDecode; rw [if_neg (by omega)]

/-- The TCP decoder as its three checks (46_tcp.md R250). -/
theorem tcpDecode_checks (u : List Byte) :
    tcpDecode u =
      if u.length < 20 then .error .tcpTooShort
      else if doffOf u < 5 then .error .tcpBadDataOffset
      else if u.length < doffOf u * 4 then .error .tcpTooShort
      else .ok (tcpHeader u) := rfl

theorem tcpDecode_ok (u : List Byte) (h : isTcpSegment u) : tcpDecode u = .ok (tcpHeader u) := by
  obtain ⟨h1, h2, h3⟩ := h
  rw [tcpDecode_checks, if_neg (by omega), if_neg (by omega), if_neg (by omega)]

/-! ## Reply builders -/

theorem ethBuildReply_frame (p : Params) (f : List Byte) (h : 14 ≤ f.length) :
    ethBuildReply p { dst := rdMac f 0, src := rdMac f 6, ethertype := rd16 f 12 } = replyEthernet p f := by
  unfold ethBuildReply replyEthernet
  rw [slice_six f 6 (by omega), slice_two f 12 (by omega)]

theorem arpReply_frame (p : Params) (f : List Byte) (h : 42 ≤ f.length) :
    ethBuildReply p { dst := rdMac f 0, src := rdMac f 6, ethertype := rd16 f 12 } ++
      arpReplyMessage p
        { hardwareType := rd16 f 14, protoType := rd16 f 16, hardwareSize := rd8 f 18, protoSize := rd8 f 19
          opcode := rd16 f 20, senderMac := rdMac f 22, senderIp := rd32 f 28, targetMac := rdMac f 32
          targetIp := rd32 f 38 } = arpReplyBytes p f := by
  rw [ethBuildReply_frame p f (by omega)]
  unfold arpReplyMessage arpReplyBytes
  rw [← slice_eq_append f 14 16 20 (by omega) (by omega), ← slice_eq_append f 16 18 20 (by omega) (by omega),
    ← slice_eq_append f 18 19 20 (by omega) (by omega), slice_two f 14 (by omega), slice_two f 16 (by omega),
    slice_one f 18 (by omega), slice_one f 19 (by omega), ← slice_eq_append f 22 28 32 (by omega) (by omega),
    slice_six f 22 (by omega), slice_four f 28 (by omega)]
  have : be16 2 = [0x00, 0x02] := rfl
  rw [this]
  simp only [List.append_assoc, List.cons_append, List.nil_append]

/-- The reply header of any header with 20 bytes: the addresses exchanged and the checksum over itself with the field
zero (44_ipv4.md R215). -/
theorem ipv4BuildReplyHeader_eq (h : Ipv4Header) (hr : h.raw20.length = 20) :
    ipv4BuildReplyHeader h =
      (h.raw20.take 10) ++ be16 (csum16p (h.raw20.take 10 ++ zeros 2 ++ (be32 h.destIp ++ be32 h.sourceIp)))
        ++ (be32 h.destIp ++ be32 h.sourceIp) := by
  have e : h.raw20 = h.raw20.take 10 ++ slice h.raw20 10 12 ++ slice h.raw20 12 16 ++ slice h.raw20 16 20 := by
    have h0 : h.raw20.take 10 = slice h.raw20 0 10 := by simp [slice]
    have h1 : h.raw20 = slice h.raw20 0 20 := by simp [slice, List.take_of_length_le, hr]
    rw [h0, slice_eq_append _ 0 10 12 (by omega) (by omega), slice_eq_append _ 0 12 16 (by omega) (by omega),
      slice_eq_append _ 0 16 20 (by omega) (by omega)]
    exact h1
  have hl : (h.raw20.take 10).length = 10 := by simp [hr]
  have l1 : (slice h.raw20 10 12).length = 2 := by rw [slice_length]; omega
  have l2 : (slice h.raw20 12 16).length = 4 := by rw [slice_length]; omega
  have l3 : (slice h.raw20 16 20).length = 4 := by rw [slice_length]; omega
  generalize h.raw20.take 10 = a at *
  generalize slice h.raw20 10 12 = b at *
  generalize slice h.raw20 12 16 = c at *
  generalize slice h.raw20 16 20 = d at *
  simp only [ipv4BuildReplyHeader, e]
  rw [patch_append' (a ++ b) c d (be32 h.destIp) 12 (by simp [hl, l1]) (by simp [l2])]
  have s2 : patch (a ++ b ++ be32 h.destIp ++ d) 16 (be32 h.sourceIp) = a ++ b ++ be32 h.destIp ++ be32 h.sourceIp := by
    have := patch_append' (a ++ b ++ be32 h.destIp) d [] (be32 h.sourceIp) 16 (by simp [hl, l1]) (by simp [l3])
    simpa using this
  rw [s2]
  have s3 : ∀ x : List Byte, x.length = 2 → ∀ y : List Byte, y.length = 2 →
      patch (a ++ y ++ (be32 h.destIp ++ be32 h.sourceIp)) 10 x = a ++ x ++ (be32 h.destIp ++ be32 h.sourceIp) :=
    fun x hx y hy => patch_append' a y _ x 10 hl (by omega)
  rw [List.append_assoc (a ++ b), s3 (zeros 2) (by simp) b l1, s3 _ rfl (zeros 2) (by simp)]

theorem ipv4BuildReplyHeader_frame (f : List Byte) (h : 34 ≤ f.length) :
    ipv4BuildReplyHeader (ipv4Header (f.drop 14)) = replyIpv4 f := by
  have hr : (ipv4Header (f.drop 14)).raw20.length = 20 := by rw [ipv4Header_raw20, slice_length]; omega
  have ht : (ipv4Header (f.drop 14)).raw20.take 10 = slice f 14 24 := by
    rw [ipv4Header_raw20]; unfold slice; rw [List.take_take]; rfl
  obtain ⟨hs, hd⟩ := ipv4Header_addresses f
  rw [ipv4BuildReplyHeader_eq _ hr, ht, hs, hd, ← slice_four f 30 (by omega), ← slice_four f 26 (by omega)]
  have hz : zeros 2 = be16 0 := rfl
  simp only [replyIpv4, replyIpv4With, hz, List.append_assoc]

theorem icmpReply_frame (u : List Byte) : icmpReply u = echoReplyWith u (csum16p (echoReplyWith u 0)) := by
  have hz : zeros 4 ++ u.drop 4 = echoReplyWith u 0 := rfl
  unfold icmpReply
  simp only [hz]
  generalize csum16p (echoReplyWith u 0) = c
  have e : ∀ x, echoReplyWith u x = [0, 0] ++ be16 x ++ u.drop 4 := fun _ => rfl
  rw [e, e]
  exact patch_append' [0, 0] (be16 0) (u.drop 4) (be16 c) 2 rfl rfl

theorem echoReplyFrame_frame (p : Params) (f : List Byte) (h : 34 ≤ f.length) :
    echoReplyFrame p { dst := rdMac f 0, src := rdMac f 6, ethertype := rd16 f 12 } (ipv4Header (f.drop 14)) (upperOf f)
      = echoReplyBytes p f := by
  unfold echoReplyFrame echoReplyBytes
  rw [ethBuildReply_frame p f (by omega), ipv4BuildReplyHeader_frame f h, icmpReply_frame]

/-- Byte 12 of the SYN-ACK: data offset 10, the reserved bits copied, NS 0 (46_tcp.md R255, R257). -/
theorem synAck_byte12 (u : List Byte) :
    10#4 ++ (tcpHeader u).reserved ++ 0#1 = (0xA0 : Byte) ||| (rd8 u 12 &&& 0x0E) := by
  have h : (tcpHeader u).reserved = (rd8 u 12).extractLsb' 1 3 := by
    have := extract_append_high (rd8 u 12) (rd8 u 13)
    unfold tcpHeader
    simp only
    conv_rhs => rw [← this]
    show (rd16 u 12).extractLsb' 9 3 = ((rd16 u 12).extractLsb' 8 8).extractLsb' 1 3
    generalize rd16 u 12 = v
    ext i hi
    simp only [BitVec.getElem_extractLsb', BitVec.getLsbD_extractLsb']
    rw [show 8 + (1 + i) = 9 + i by omega]
    simp; omega
  rw [h]
  generalize rd8 u 12 = v
  revert v
  decide

theorem synAckBody_frame (p : Params) (u : List Byte) (h : 20 ≤ u.length) :
    synAckBody p (tcpHeader u) = synAckWith p u 0 := by
  unfold synAckBody synAckWith synAckSeq
  have hz : zeros 2 = be16 0 := rfl
  rw [synAck_byte12, hz]
  simp only [tcpHeader]
  rw [slice_two u 2 (by omega), slice_two u 0 (by omega), slice_two u 14 (by omega), slice_two u 18 (by omega)]
  rfl

theorem synAck_frame (p : Params) (f : List Byte) (h : 34 ≤ f.length) (hu : 20 ≤ (upperOf f).length) :
    synAck p (tcpHeader (upperOf f)) (ipv4Header (f.drop 14)) =
      synAckWith p (upperOf f) (csum16p (synAckPseudo f ++ synAckWith p (upperOf f) 0)) := by
  have l0 : (slice (upperOf f) 0 2).length = 2 := by rw [slice_length]; omega
  have l1 : (slice (upperOf f) 2 4).length = 2 := by rw [slice_length]; omega
  have l2 : (slice (upperOf f) 14 16).length = 2 := by rw [slice_length]; omega
  have l3 : (slice (upperOf f) 18 20).length = 2 := by rw [slice_length]; omega
  have hl : ∀ c, (synAckWith p (upperOf f) c).length = 40 := fun c => by simp [synAckWith, l0, l1, l2, l3]
  obtain ⟨hs, hd⟩ := ipv4Header_addresses f
  unfold synAck tcpsum
  rw [synAckBody_frame p _ hu, hl, hs, hd]
  have hp : pseudoHeader (rd32 f 30) (rd32 f 26) 40 = synAckPseudo f := by
    unfold pseudoHeader synAckPseudo
    rw [slice_four f 30 (by omega), slice_four f 26 (by omega)]
    have : be16 (BitVec.ofNat 16 40) = [0x00, 0x28] := rfl
    rw [this]; simp
  rw [hp]
  generalize csum16p _ = c
  have e : ∀ x, synAckWith p (upperOf f) x =
      (slice (upperOf f) 2 4 ++ slice (upperOf f) 0 2 ++
        be32 (if rd32 (upperOf f) 8 = 0 then p.isnConst else rd32 (upperOf f) 8 + 1) ++ be32 (rd32 (upperOf f) 4 + 1)
        ++ [0xA0 ||| (rd8 (upperOf f) 12 &&& 0x0E), 0x12] ++ slice (upperOf f) 14 16) ++ be16 x ++
        (slice (upperOf f) 18 20 ++ zeros 20) := fun x => by simp only [synAckWith, List.append_assoc]
  rw [e 0, e c]
  exact patch_append' _ _ _ _ 16 (by simp [l0, l1, l2]) rfl

theorem synAckFrame_frame (p : Params) (f : List Byte) (h : 34 ≤ f.length) (hu : 20 ≤ (upperOf f).length) :
    synAckFrame p { dst := rdMac f 0, src := rdMac f 6, ethertype := rd16 f 12 } (ipv4Header (f.drop 14))
      (tcpHeader (upperOf f)) = synAckBytes p f := by
  unfold synAckFrame synAckBytes
  rw [ethBuildReply_frame p f (by omega), ipv4BuildReplyHeader_frame f h, synAck_frame p f h hu]

/-! ## Lengths -/

theorem replyEthernet_length (p : Params) (f : List Byte) (h : 14 ≤ f.length) : (replyEthernet p f).length = 14 := by
  simp [replyEthernet, slice_length]; omega

theorem arpReplyBytes_length (p : Params) (f : List Byte) (h : 42 ≤ f.length) : (arpReplyBytes p f).length = 42 := by
  simp [arpReplyBytes, replyEthernet_length p f (by omega), slice_length]; omega

theorem replyIpv4_length (f : List Byte) (h : 34 ≤ f.length) : (replyIpv4 f).length = 20 := by
  simp [replyIpv4, replyIpv4With, slice_length]; omega

theorem echoReplyBytes_length (p : Params) (f : List Byte) (h : 34 ≤ f.length) (hu : 8 ≤ (upperOf f).length) :
    (echoReplyBytes p f).length = 34 + (upperOf f).length := by
  simp [echoReplyBytes, replyEthernet_length p f (by omega), replyIpv4_length f h, echoReplyWith]; omega

theorem synAckBytes_length (p : Params) (f : List Byte) (h : 34 ≤ f.length) (hu : 20 ≤ (upperOf f).length) :
    (synAckBytes p f).length = 74 := by
  simp [synAckBytes, replyEthernet_length p f (by omega), replyIpv4_length f h, synAckWith, slice_length]; omega

theorem upperOf_length (f : List Byte) : (upperOf f).length = f.length - (14 + ihlOf f * 4) := by
  simp [upperOf]

end Sys2Proof.Machine
end

