-- ==== Sys2Proof/Laws/Process.lean ====
section
/-! SUPPORT. `PROCESS` and the frame classes on each kind of frame: the run they end with, in the frame's own terms. -/

namespace Sys2Proof.Machine

/-- The Ethernet header of a frame of at least 14 bytes. -/
def ethOf (f : List Byte) : EthHeader := { dst := rdMac f 0, src := rdMac f 6, ethertype := rd16 f 12 }

/-- The ARP message of a frame of at least 42 bytes. -/
def arpOf (f : List Byte) : ArpMessage :=
  { hardwareType := rd16 f 14, protoType := rd16 f 16, hardwareSize := rd8 f 18, protoSize := rd8 f 19
    opcode := rd16 f 20, senderMac := rdMac f 22, senderIp := rd32 f 28, targetMac := rdMac f 32
    targetIp := rd32 f 38 }

/-! ## Any frame -/

theorem onFrame_ok (s : State) (k : EthHeader → List Byte → Run) (h : LegalLengths s) (hf : 14 ≤ (handedOver s).length) :
    onFrame s k = endProcess s (k (ethOf (handedOver s)) (handedOver s)) := by
  rw [onFrame_eq s k h.inLen, ethDecode_of_length _ hf]
  rfl

theorem onFrame_short (s : State) (k : EthHeader → List Byte → Run) (h : LegalLengths s)
    (hf : (handedOver s).length < 14) : onFrame s k = endProcess s (plainRun s.cache (.raise .ethTooShort)) := by
  rw [onFrame_eq s k h.inLen, ethDecode_short _ hf]
  rfl

theorem execProcess_ok (s : State) (h : LegalLengths s) (hf : 14 ≤ (handedOver s).length) :
    execProcess s = endProcess s (ethDispatch s.cfg s.cache (ethOf (handedOver s)) (handedOver s)) :=
  onFrame_ok s _ h hf

/-! ## ARP frames -/

theorem onArp_ok (s : State) (k : EthHeader → ArpMessage → Run) (h : LegalLengths s) (hf : isArpFrame (handedOver s)) :
    onArp s k = endProcess s (k (ethOf (handedOver s)) (arpOf (handedOver s))) := by
  have := hf.1
  unfold onArp
  rw [onFrame_ok s _ h (by omega), arpDecode_frame _ hf.1]
  rfl

theorem execEthArp_ok (s : State) (h : LegalLengths s) (hf : isArpFrame (handedOver s)) :
    execEthArp s = endProcess s (arpDispatch s.cfg s.cache (ethOf (handedOver s)) (arpOf (handedOver s))) := by
  have := hf.1
  unfold execEthArp
  rw [onFrame_ok s _ h (by omega)]
  unfold ethArpRun
  rw [arpDecode_frame _ hf.1]
  rfl

theorem execProcess_arp (s : State) (h : LegalLengths s) (hf : isArpFrame (handedOver s)) :
    execProcess s = execEthArp s := by
  have := hf.1
  unfold execEthArp
  rw [execProcess_ok s h (by omega), onFrame_ok s _ h (by omega)]
  unfold ethDispatch
  rw [if_pos (show (ethOf (handedOver s)).ethertype = 0x0806 from hf.2)]

theorem arpMerge_cache (s : State) (f : List Byte) (e : Ending) :
    (arpMerge s.cfg s.cache (arpOf f) e).cache = (senderMerge s f).1 := rfl

theorem arpMerge_report (s : State) (f : List Byte) (e : Ending) :
    runReport (arpMerge s.cfg s.cache (arpOf f) e) = arpReport s f (endingCode e) := rfl

/-! ## IPv4 frames -/

theorem onIpv4_ok (s : State) (k : EthHeader → Ipv4Header → List Byte → Ending) (h : LegalLengths s)
    (hf : isIpv4Frame (handedOver s)) :
    onIpv4 s k = endProcess s (ipv4Run s.cache (ipv4Header ((handedOver s).drop 14))
      (k (ethOf (handedOver s)) (ipv4Header ((handedOver s).drop 14)) (upperOf (handedOver s)))) := by
  have := hf.1
  unfold onIpv4
  rw [onFrame_ok s _ h (by omega), ipv4Decode_ok _ hf]
  simp only [orMalformed, upperView_frame]

theorem execEthIpv4_ok (s : State) (h : LegalLengths s) (hf : isIpv4Frame (handedOver s)) :
    execEthIpv4 s = endProcess s (ipv4Run s.cache (ipv4Header ((handedOver s).drop 14))
      (ipv4Dispatch s.cfg (ethOf (handedOver s)) (ipv4Header ((handedOver s).drop 14)) (upperOf (handedOver s)))) := by
  have := hf.1
  unfold execEthIpv4
  rw [onFrame_ok s _ h (by omega)]
  unfold ethIpv4Run
  rw [ipv4Decode_ok _ hf]
  simp only [orMalformed, upperView_frame]

theorem execProcess_ipv4 (s : State) (h : LegalLengths s) (hf : isIpv4Frame (handedOver s)) :
    execProcess s = execEthIpv4 s := by
  have := hf.1
  unfold execEthIpv4
  rw [execProcess_ok s h (by omega), onFrame_ok s _ h (by omega)]
  unfold ethDispatch
  rw [if_neg (show ¬ (ethOf (handedOver s)).ethertype = 0x0806 by
    show ¬ rd16 (handedOver s) 12 = 0x0806; rw [hf.2.1]; decide),
    if_pos (show (ethOf (handedOver s)).ethertype = 0x0800 from hf.2.1)]

theorem ipv4Run_report (f : List Byte) (c : Cache) (e : Ending) (h : 34 ≤ f.length) :
    runReport (ipv4Run c (ipv4Header (f.drop 14)) e) = ipv4Report f (endingCode e) := by
  unfold runReport ipv4Run ipv4Report
  rw [headerMismatch_frame f h]

theorem ipv4Dispatch_frame (p : Params) (eth : EthHeader) (f u : List Byte) :
    ipv4Dispatch p eth (ipv4Header (f.drop 14)) u =
      if rd8 f 23 = 1 then icmpHandle p eth (ipv4Header (f.drop 14)) u
      else if rd8 f 23 = 6 then tcpHandle p eth (ipv4Header (f.drop 14)) u
      else if rd8 f 23 = 17 then ipUdpEnding
      else if rd8 f 23 = 2 then ipIgmpEnding
      else ipOtherEnding := by
  unfold ipv4Dispatch
  rw [ipv4Header_protocol]

/-! ## What an IPv4 class answers -/

/-- An IPv4 class with an informational ending drops the frame. -/
theorem ipv4_finish (s : State) (h : Ipv4Header) (e : Ending) (d : Disposition) (he : e = .finish d) :
    ∃ t, endProcess s (ipv4Run s.cache h e) = .next t ∧ Dropped s t (runReport (ipv4Run s.cache h e)) false ∧
      t.cache = s.cache := by
  subst he
  exact endProcess_finish s _ d rfl

end Sys2Proof.Machine
end

