-- ==== Sys2Proof/Laws/Runs.lean ====
section
/-! SUPPORT. What the run of any frame class can be: every reply fits in `OUT` (47_dispatcher.md R276), every disposition
is of its ending's class (60_exceptions.md R303), and the cache is as it was or has had one update (42_arp_cache.md R173).
-/

namespace Sys2Proof.Machine

/-- A legal end of a `PROCESS` whose `OUT` has `limit` bytes. -/
def goodEnding (limit : Nat) : Ending → Prop
  | .emit d x => x.length ≤ limit ∧ x.length < 65536 ∧ dispIsError d = false
  | .finish d => dispIsError d = false
  | .raise d => dispIsError d = true

/-- A legal run from a state. -/
structure GoodRun (s : State) (r : Run) : Prop where
  ending : goodEnding s.cfg.maxFrameLen r.ending
  cache : r.cache = s.cache ∨ ∃ ip mac, r.cache = (cacheUpdate s.cfg.cacheCapacity s.cache ip mac).1

theorem plainRun_good (s : State) (e : Ending) (h : goodEnding s.cfg.maxFrameLen e) : GoodRun s (plainRun s.cache e) :=
  ⟨h, .inl rfl⟩

theorem arpMerge_good (s : State) (m : ArpMessage) (e : Ending) (h : goodEnding s.cfg.maxFrameLen e) :
    GoodRun s (arpMerge s.cfg s.cache m e) := ⟨h, .inr ⟨m.senderIp, m.senderMac, rfl⟩⟩

theorem ipv4Run_good (s : State) (h : Ipv4Header) (e : Ending) (he : goodEnding s.cfg.maxFrameLen e) :
    GoodRun s (ipv4Run s.cache h e) := ⟨he, .inl rfl⟩

/-- A legal run ends in a next state. -/
theorem endProcess_next (s : State) (r : Run) (h : GoodRun s r) : ∃ t, endProcess s r = .next t := by
  rcases endProcess_cases s r with ⟨d, x, he, hl, -⟩ | ⟨d, x, t, -, -, e, -⟩ | ⟨d, t, -, e, -⟩ | ⟨d, t, -, e, -⟩
  · have := h.ending; rw [he] at this; exact absurd this.1 (by omega)
  · exact ⟨t, e⟩
  · exact ⟨t, e⟩
  · exact ⟨t, e⟩

/-! ## The decoders' errors are malformed -/

theorem ethDecode_error (f : List Byte) (d : Disposition) (h : ethDecode f = .error d) : d = .ethTooShort := by
  unfold ethDecode at h; split at h
  · injection h with h; exact h.symm
  · exact absurd h (by simp)

theorem arpDecode_error (a : List Byte) (d : Disposition) (h : arpDecode a = .error d) : d = .arpTooShort := by
  unfold arpDecode at h; split at h
  · injection h with h; exact h.symm
  · exact absurd h (by simp)

theorem ipv4Decode_error (p : List Byte) (d : Disposition) (h : ipv4Decode p = .error d) :
    d = .ipv4TooShort ∨ d = .ipv4BadVersion ∨ d = .ipv4BadIhl := by
  unfold ipv4Decode at h
  split at h
  · injection h with h; exact .inl h.symm
  · split at h
    · injection h with h; exact .inr (.inl h.symm)
    · split at h
      · injection h with h; exact .inr (.inr h.symm)
      · split at h
        · injection h with h; exact .inl h.symm
        · exact absurd h (by simp)

theorem icmpDecode_error (u : List Byte) (d : Disposition) (h : icmpDecode u = .error d) : d = .icmpTooShort := by
  unfold icmpDecode at h; split at h
  · injection h with h; exact h.symm
  · exact absurd h (by simp)

theorem tcpDecode_error (u : List Byte) (d : Disposition) (h : tcpDecode u = .error d) :
    d = .tcpTooShort ∨ d = .tcpBadDataOffset := by
  unfold tcpDecode at h
  split at h
  · injection h with h; exact .inl h.symm
  · split at h
    · injection h with h; exact .inr h.symm
    · split at h
      · injection h with h; exact .inl h.symm
      · exact absurd h (by simp)

/-! ## What a decoded header says of its view -/

theorem ethDecode_inv (f : List Byte) (h : EthHeader) (e : ethDecode f = .ok h) : 14 ≤ f.length ∧ h = ethOf f := by
  by_cases hl : f.length < 14
  · rw [ethDecode_short f hl] at e; exact absurd e (by simp)
  · rw [ethDecode_of_length f (by omega)] at e; injection e with e; exact ⟨by omega, e.symm⟩

theorem ipv4Decode_inv (f : List Byte) (h : Ipv4Header) (e : ipv4Decode (f.drop 14) = .ok h) :
    34 ≤ f.length ∧ 5 ≤ ihlOf f ∧ 14 + ihlOf f * 4 ≤ f.length ∧ h = ipv4Header (f.drop 14) := by
  rw [ipv4Decode_frame] at e
  split at e
  · exact absurd e (by simp)
  · split at e
    · exact absurd e (by simp)
    · split at e
      · exact absurd e (by simp)
      · split at e
        · exact absurd e (by simp)
        · injection e with e
          exact ⟨by omega, by omega, by omega, e.symm⟩

theorem icmpDecode_inv (u : List Byte) (m : IcmpMessage) (e : icmpDecode u = .ok m) : 8 ≤ u.length := by
  by_contra h
  rw [icmpDecode_short u (by omega)] at e; exact absurd e (by simp)

theorem tcpDecode_inv (u : List Byte) (t : TcpHeader) (e : tcpDecode u = .ok t) : isTcpSegment u ∧ t = tcpHeader u := by
  rw [tcpDecode_checks] at e
  split at e
  · exact absurd e (by simp)
  · split at e
    · exact absurd e (by simp)
    · split at e
      · exact absurd e (by simp)
      · injection e with e; exact ⟨⟨by omega, by omega, by omega⟩, e.symm⟩

/-! ## The runs of the classes -/

theorem orMalformed_good {α : Type} (s : State) (d : Except Disposition α) (k : α → Run)
    (he : ∀ c, d = .error c → dispIsError c = true) (hk : ∀ h, d = .ok h → GoodRun s (k h)) :
    GoodRun s (orMalformed d s.cache k) := by
  cases d with
  | error c => exact plainRun_good s _ (he c rfl)
  | ok h => exact hk h rfl

theorem orRaise_good {α : Type} (limit : Nat) (d : Except Disposition α) (k : α → Ending)
    (he : ∀ c, d = .error c → dispIsError c = true) (hk : ∀ h, d = .ok h → goodEnding limit (k h)) :
    goodEnding limit (orRaise d k) := by
  cases d with
  | error c => exact he c rfl
  | ok h => exact hk h rfl

theorem onFrame_good (s : State) (k : EthHeader → List Byte → Run) (h : LegalLengths s)
    (hk : ∀ f, f = handedOver s → 14 ≤ f.length → f.length ≤ s.cfg.maxFrameLen → f.length < 65536 →
      GoodRun s (k (ethOf f) f)) :
    ∃ r, onFrame s k = endProcess s r ∧ GoodRun s r := by
  refine ⟨_, onFrame_eq s k h.inLen, orMalformed_good s _ _ (fun c hc => ?_) (fun eth he => ?_)⟩
  · rw [ethDecode_error _ _ hc]; rfl
  · obtain ⟨hl, rfl⟩ := ethDecode_inv _ _ he
    have := handedOver_length s
    have := h.inLen
    have := s.inLen.isLt
    exact hk _ rfl hl (by omega) (by omega)

theorem arpRun_good (s : State) (f : List Byte) (k : ArpMessage → Run)
    (hk : 42 ≤ f.length → GoodRun s (k (arpOf f))) :
    GoodRun s (orMalformed (arpDecode (f.drop 14)) s.cache k) := by
  by_cases h : f.length < 42
  · rw [arpDecode_short f h]; exact plainRun_good s _ rfl
  · rw [arpDecode_frame f (by omega)]; exact hk (by omega)

theorem onArp_good (s : State) (k : EthHeader → ArpMessage → Run) (h : LegalLengths s)
    (hk : ∀ f, f = handedOver s → 42 ≤ f.length → GoodRun s (k (ethOf f) (arpOf f))) :
    ∃ r, onArp s k = endProcess s r ∧ GoodRun s r :=
  onFrame_good s _ h fun f hf _ _ _ => arpRun_good s f _ (hk f hf)

theorem ipv4RunOf_good (s : State) (f : List Byte) (k : Ipv4Header → List Byte → Ending)
    (hk : 34 ≤ f.length → 34 + (upperOf f).length ≤ f.length →
      goodEnding s.cfg.maxFrameLen (k (ipv4Header (f.drop 14)) (upperOf f))) :
    GoodRun s (orMalformed (ipv4Decode (f.drop 14)) s.cache fun h => ipv4Run s.cache h (k h (upperView h (f.drop 14)))) := by
  refine orMalformed_good s _ _ (fun c hc => ?_) (fun h he => ?_)
  · rcases ipv4Decode_error _ _ hc with rfl | rfl | rfl <;> rfl
  · obtain ⟨h1, h2, h3, rfl⟩ := ipv4Decode_inv f h he
    rw [upperView_frame]
    exact ipv4Run_good s _ _ (hk h1 (by rw [upperOf_length]; omega))

theorem onIpv4_good (s : State) (k : EthHeader → Ipv4Header → List Byte → Ending) (h : LegalLengths s)
    (hk : ∀ f, f = handedOver s → 34 ≤ f.length → 34 + (upperOf f).length ≤ f.length → f.length ≤ s.cfg.maxFrameLen →
      f.length < 65536 → goodEnding s.cfg.maxFrameLen (k (ethOf f) (ipv4Header (f.drop 14)) (upperOf f))) :
    ∃ r, onIpv4 s k = endProcess s r ∧ GoodRun s r :=
  onFrame_good s _ h fun f hf _ h2 h3 => ipv4RunOf_good s f _ fun h4 h5 => hk f hf h4 h5 h2 h3

theorem arpRequestRun_good (s : State) (f : List Byte) (h : LegalLengths s) (hf : 42 ≤ f.length) :
    GoodRun s (arpRequestRun s.cfg s.cache (ethOf f) (arpOf f)) := by
  refine arpMerge_good s _ _ ?_
  split
  · have hr := arpReply_frame s.cfg f hf
    have hl := arpReplyBytes_length s.cfg f hf
    have := h.room
    rw [show ethBuildReply s.cfg (ethOf f) ++ arpReplyMessage s.cfg (arpOf f) = _ from hr]
    exact ⟨by omega, by omega, rfl⟩
  · rfl

theorem arpDispatch_good (s : State) (f : List Byte) (h : LegalLengths s) (hf : 42 ≤ f.length) :
    GoodRun s (arpDispatch s.cfg s.cache (ethOf f) (arpOf f)) := by
  unfold arpDispatch
  split
  · exact arpRequestRun_good s f h hf
  · split
    · exact arpMerge_good s _ _ rfl
    · split
      · exact arpMerge_good s _ _ rfl
      · split
        · exact arpMerge_good s _ _ rfl
        · exact plainRun_good s _ rfl

theorem echoRequestEnding_good (s : State) (f : List Byte) (h1 : 34 ≤ f.length) (h8 : 8 ≤ (upperOf f).length)
    (h2 : 34 + (upperOf f).length ≤ f.length) (h3 : f.length ≤ s.cfg.maxFrameLen) (h4 : f.length < 65536) :
    goodEnding s.cfg.maxFrameLen (echoRequestEnding s.cfg (ethOf f) (ipv4Header (f.drop 14)) (upperOf f)) := by
  have hr := echoReplyFrame_frame s.cfg f h1
  have hl := echoReplyBytes_length s.cfg f h1 h8
  unfold echoRequestEnding
  rw [show echoReplyFrame s.cfg (ethOf f) _ _ = _ from hr]
  exact ⟨by omega, by omega, rfl⟩

theorem icmpHandle_good (s : State) (f : List Byte) (h1 : 34 ≤ f.length)
    (h2 : 34 + (upperOf f).length ≤ f.length) (h3 : f.length ≤ s.cfg.maxFrameLen) (h4 : f.length < 65536) :
    goodEnding s.cfg.maxFrameLen (icmpHandle s.cfg (ethOf f) (ipv4Header (f.drop 14)) (upperOf f)) := by
  refine orRaise_good _ _ _ (fun c hc => ?_) (fun m hm => ?_)
  · rw [icmpDecode_error _ _ hc]; rfl
  · unfold icmpDispatch
    split
    · exact echoRequestEnding_good s f h1 (icmpDecode_inv _ _ hm) h2 h3 h4
    · repeat' split
      all_goals rfl

theorem pureSynEnding_good (s : State) (f : List Byte) (h : LegalLengths s) (h1 : 34 ≤ f.length)
    (hu : isTcpSegment (upperOf f)) :
    goodEnding s.cfg.maxFrameLen
      (pureSynEnding s.cfg (ethOf f) (ipv4Header (f.drop 14)) (tcpHeader (upperOf f))) := by
  have hr := synAckFrame_frame s.cfg f h1 hu.1
  have hl := synAckBytes_length s.cfg f h1 hu.1
  have := h.room
  unfold pureSynEnding
  rw [show synAckFrame s.cfg (ethOf f) _ _ = _ from hr]
  exact ⟨by omega, by omega, rfl⟩

theorem tcpError_isError (u : List Byte) (c : Disposition) (h : tcpDecode u = .error c) : dispIsError c = true := by
  rcases tcpDecode_error _ _ h with rfl | rfl <;> rfl

theorem tcpHandle_good (s : State) (f : List Byte) (h : LegalLengths s) (h1 : 34 ≤ f.length) :
    goodEnding s.cfg.maxFrameLen (tcpHandle s.cfg (ethOf f) (ipv4Header (f.drop 14)) (upperOf f)) := by
  refine orRaise_good _ _ _ (tcpError_isError _) (fun t ht => ?_)
  obtain ⟨hu, rfl⟩ := tcpDecode_inv _ _ ht
  unfold tcpDispatch
  split
  · exact pureSynEnding_good s f h h1 hu
  · rfl

theorem ipv4Dispatch_good (s : State) (f : List Byte) (h : LegalLengths s) (h1 : 34 ≤ f.length)
    (h2 : 34 + (upperOf f).length ≤ f.length) (h3 : f.length ≤ s.cfg.maxFrameLen) (h4 : f.length < 65536) :
    goodEnding s.cfg.maxFrameLen (ipv4Dispatch s.cfg (ethOf f) (ipv4Header (f.drop 14)) (upperOf f)) := by
  unfold ipv4Dispatch
  split
  · exact icmpHandle_good s f h1 h2 h3 h4
  · split
    · exact tcpHandle_good s f h h1
    · repeat' split
      all_goals rfl

theorem ethDispatch_good (s : State) (f : List Byte) (h : LegalLengths s) (h3 : f.length ≤ s.cfg.maxFrameLen)
    (h4 : f.length < 65536) : GoodRun s (ethDispatch s.cfg s.cache (ethOf f) f) := by
  unfold ethDispatch
  split
  · exact arpRun_good s f _ fun hf => arpDispatch_good s f h hf
  · split
    · exact ipv4RunOf_good s f _ fun h1 h2 => ipv4Dispatch_good s f h h1 h2 h3 h4
    · exact plainRun_good s _ rfl

/-- The frame classes, that is every instruction but the five commands that do not process a frame. -/
def processesFrame (i : Instr) : Bool := i ∉ [Instr.csum16, .csum16p, .csumPseudo, .cacheLookup, .cacheUpdate]

/-- Every meaning that processes a frame is the end of a legal run. -/
theorem exec_good (s : State) (i : Instr) (h : LegalLengths s) (hi : processesFrame i = true) :
    ∃ r, exec i s = endProcess s r ∧ GoodRun s r := by
  have quiet4 : ∀ d, dispIsError d = false → ∃ r, onIpv4 s (fun _ _ _ => .finish d) = endProcess s r ∧ GoodRun s r :=
    fun d hd => onIpv4_good s _ h fun _ _ _ _ _ _ => hd
  have icmp : ∀ k : EthHeader → Ipv4Header → List Byte → Ending,
      (∀ f, 34 ≤ f.length → 8 ≤ (upperOf f).length → 34 + (upperOf f).length ≤ f.length →
        f.length ≤ s.cfg.maxFrameLen → f.length < 65536 →
        goodEnding s.cfg.maxFrameLen (k (ethOf f) (ipv4Header (f.drop 14)) (upperOf f))) →
      ∃ r, onIcmp s k = endProcess s r ∧ GoodRun s r := fun k hk =>
    onIpv4_good s _ h fun f _ h1 h2 h3 h4 => orRaise_good _ _ _
      (fun c hc => by rw [icmpDecode_error _ _ hc]; rfl)
      (fun m hm => hk f h1 (icmpDecode_inv _ _ hm) h2 h3 h4)
  have quietIcmp : ∀ d, dispIsError d = false → ∃ r, onIcmp s (fun _ _ _ => .finish d) = endProcess s r ∧ GoodRun s r :=
    fun d hd => icmp _ fun _ _ _ _ _ _ => hd
  have tcp : ∀ k : EthHeader → Ipv4Header → TcpHeader → Ending,
      (∀ f, 34 ≤ f.length → isTcpSegment (upperOf f) →
        goodEnding s.cfg.maxFrameLen (k (ethOf f) (ipv4Header (f.drop 14)) (tcpHeader (upperOf f)))) →
      ∃ r, onTcp s k = endProcess s r ∧ GoodRun s r := fun k hk =>
    onIpv4_good s _ h fun f _ h1 _ _ _ => orRaise_good _ _ _ (tcpError_isError _) (fun t ht => by
      obtain ⟨hu, rfl⟩ := tcpDecode_inv _ _ ht
      exact hk f h1 hu)
  cases i with
  | csum16 => exact absurd hi (by decide)
  | csum16p => exact absurd hi (by decide)
  | csumPseudo => exact absurd hi (by decide)
  | cacheLookup => exact absurd hi (by decide)
  | cacheUpdate => exact absurd hi (by decide)
  | process => exact onFrame_good s _ h fun f _ _ h3 h4 => ethDispatch_good s f h h3 h4
  | ethArp => exact onFrame_good s _ h fun f _ _ _ _ => arpRun_good s f _ fun hf => arpDispatch_good s f h hf
  | ethIpv4 =>
    exact onFrame_good s _ h fun f _ _ h3 h4 => ipv4RunOf_good s f _ fun h1 h2 => ipv4Dispatch_good s f h h1 h2 h3 h4
  | ethOther k => exact onFrame_good s _ h fun f _ _ _ _ => plainRun_good s _ rfl
  | arpRequest => exact onArp_good s _ h fun f _ hf => arpRequestRun_good s f h hf
  | arpReply => exact onArp_good s _ h fun f _ _ => arpMerge_good s _ _ rfl
  | arpRarpRequest => exact onArp_good s _ h fun f _ _ => arpMerge_good s _ _ rfl
  | arpRarpReply => exact onArp_good s _ h fun f _ _ => arpMerge_good s _ _ rfl
  | arpBadOpcode k => exact onArp_good s _ h fun f _ _ => plainRun_good s _ rfl
  | ipIcmp => exact onIpv4_good s _ h fun f _ h1 h2 h3 h4 => icmpHandle_good s f h1 h2 h3 h4
  | ipIgmp => exact quiet4 _ rfl
  | ipTcp => exact onIpv4_good s _ h fun f _ h1 _ _ _ => tcpHandle_good s f h h1
  | ipUdp => exact quiet4 _ rfl
  | ipOther k => exact quiet4 _ rfl
  | icmpEchoRequest => exact icmp _ fun f h1 h8 h2 h3 h4 => echoRequestEnding_good s f h1 h8 h2 h3 h4
  | icmpEchoReply => exact quietIcmp _ rfl
  | icmpType3 => exact quietIcmp _ rfl
  | icmpType4 => exact quietIcmp _ rfl
  | icmpType5 => exact quietIcmp _ rfl
  | icmpType9 => exact quietIcmp _ rfl
  | icmpType10 => exact quietIcmp _ rfl
  | icmpType11 => exact quietIcmp _ rfl
  | icmpType12 => exact quietIcmp _ rfl
  | icmpOther k => exact quietIcmp _ rfl
  | tcpPureSyn => exact tcp _ fun f h1 hu => pureSynEnding_good s f h h1 hu
  | tcpOther k => exact tcp _ fun _ _ _ => rfl

end Sys2Proof.Machine
end

