-- ==== Sys2Proof/Laws/Dispositions.lean ====
section
/-! SUPPORT. The one run a `PROCESS` makes of a frame: its ending is the one of its first disposition (60_exceptions.md
R309), its flags and its cache are those of the path it took. -/

namespace Sys2Proof.Machine

/-- The run of `PROCESS` on a frame. -/
def processRun (p : Params) (c : Cache) (f : List Byte) : Run :=
  orMalformed (ethDecode f) c fun eth => ethDispatch p c eth f

/-- The ending a disposition stands for. -/
def endingFor (p : Params) (f : List Byte) (d : Disposition) : Ending :=
  if d = .arpReply then .emit d (arpReplyBytes p f)
  else if d = .icmpEchoReply then .emit d (echoReplyBytes p f)
  else if d = .tcpSynAck then .emit d (synAckBytes p f)
  else if dispIsError d then .raise d
  else .finish d

theorem execProcess_run (s : State) (h : LegalLengths s) :
    execProcess s = endProcess s (processRun s.cfg s.cache (handedOver s)) := onFrame_eq s _ h.inLen

theorem processRun_good (s : State) (h : LegalLengths s) : GoodRun s (processRun s.cfg s.cache (handedOver s)) := by
  refine orMalformed_good s _ _ (fun c hc => ?_) (fun eth he => ?_)
  · rw [ethDecode_error _ _ hc]; rfl
  · obtain ⟨hl, rfl⟩ := ethDecode_inv _ _ he
    have := handedOver_length s
    have := h.inLen
    have := s.inLen.isLt
    exact ethDispatch_good s _ h (by omega) (by omega)

/-- The ending on the IPv4 path. -/
theorem ipv4Dispatch_ending (p : Params) (f : List Byte) (hf : isIpv4Frame f) :
    ipv4Dispatch p (ethOf f) (ipv4Header (f.drop 14)) (upperOf f) = endingFor p f (firstDisposition p.localIp f) := by
  obtain ⟨h1, h2, h3, h4, h5⟩ := hf
  unfold firstDisposition
  rw [if_neg (by omega), if_neg (by rw [h2]; decide), if_pos h2, if_neg (by omega), if_neg (by simpa using h3),
    if_neg (by omega), if_neg (by omega), ipv4Dispatch_frame]
  by_cases e1 : rd8 f 23 = 1
  · rw [if_pos e1, if_pos e1]
    unfold icmpHandle
    by_cases h8 : (upperOf f).length < 8
    · rw [icmpDecode_short _ h8, if_pos h8]; rfl
    rw [icmpDecode_ok _ (by omega), if_neg h8]
    simp only [orRaise]
    unfold icmpDispatch
    simp only
    by_cases t8 : rd8 (upperOf f) 0 = 8
    · rw [if_pos t8, if_pos t8]
      unfold echoRequestEnding
      rw [show echoReplyFrame p (ethOf f) _ _ = _ from echoReplyFrame_frame p f h1]; rfl
    rw [if_neg t8, if_neg t8]
    by_cases t0 : rd8 (upperOf f) 0 = 0
    · rw [if_pos t0, if_pos t0]; rfl
    rw [if_neg t0, if_neg t0]
    repeat' split
    all_goals rfl
  rw [if_neg e1, if_neg e1]
  by_cases e6 : rd8 f 23 = 6
  · rw [if_pos e6, if_pos e6]
    unfold tcpHandle
    rw [tcpDecode_checks]
    by_cases k1 : (upperOf f).length < 20
    · rw [if_pos k1, if_pos k1]; rfl
    rw [if_neg k1, if_neg k1]
    by_cases k2 : doffOf (upperOf f) < 5
    · rw [if_pos k2, if_pos k2]; rfl
    rw [if_neg k2, if_neg k2]
    by_cases k3 : (upperOf f).length < doffOf (upperOf f) * 4
    · rw [if_pos k3, if_pos k3]; rfl
    rw [if_neg k3, if_neg k3]
    simp only [orRaise]
    unfold tcpDispatch
    by_cases k4 : flagsOf (upperOf f) = 0x002
    · rw [if_pos k4, if_pos (by exact k4)]
      unfold pureSynEnding
      rw [show synAckFrame p (ethOf f) _ _ = _ from synAckFrame_frame p f h1 (by omega)]; rfl
    rw [if_neg k4, if_neg (by exact k4)]; rfl
  rw [if_neg e6, if_neg e6]
  by_cases e17 : rd8 f 23 = 17
  · rw [if_pos e17, if_pos e17]; rfl
  rw [if_neg e17, if_neg e17]
  by_cases e2 : rd8 f 23 = 2
  · rw [if_pos e2, if_pos e2]; rfl
  rw [if_neg e2, if_neg e2]; rfl

/-- The run on an IPv4 frame whose header passes its checks. -/
theorem processRun_ipv4 (p : Params) (c : Cache) (f : List Byte) (hf : isIpv4Frame f) :
    processRun p c f = ipv4Run c (ipv4Header (f.drop 14)) (endingFor p f (firstDisposition p.localIp f)) := by
  have h1 := hf.1
  unfold processRun
  rw [ethDecode_of_length f (by omega)]
  simp only [orMalformed]
  unfold ethDispatch
  simp only
  rw [if_neg (by rw [hf.2.1]; decide), if_pos hf.2.1]
  unfold ethIpv4Run
  rw [ipv4Decode_ok f hf]
  simp only [orMalformed, upperView_frame]
  rw [← ipv4Dispatch_ending p f hf]
  rfl

/-- The run on an ARP frame whose message passes its checks: merged, then ended. -/
theorem processRun_arp (p : Params) (c : Cache) (f : List Byte) (hf : isArpFrame f)
    (ho : rd16 f 20 = 1 ∨ rd16 f 20 = 2 ∨ rd16 f 20 = 3 ∨ rd16 f 20 = 4) :
    processRun p c f = arpMerge p c (arpOf f) (endingFor p f (firstDisposition p.localIp f)) := by
  have h1 := hf.1
  unfold processRun
  rw [ethDecode_of_length f (by omega)]
  simp only [orMalformed]
  unfold ethDispatch
  simp only
  rw [if_pos hf.2]
  unfold ethArpRun
  rw [arpDecode_frame f h1]
  simp only [orMalformed]
  unfold arpDispatch firstDisposition
  simp only
  rw [if_neg (by omega : ¬ f.length < 14), if_pos hf.2, if_neg (by omega : ¬ f.length < 42)]
  by_cases o1 : rd16 f 20 = 1
  · rw [if_pos o1, if_pos o1]
    unfold arpRequestRun
    by_cases hip : rd32 f 38 = p.localIp
    · rw [if_pos hip, if_pos hip]
      rw [show ethBuildReply p _ ++ arpReplyMessage p _ = _ from arpReply_frame p f h1]
      rfl
    · rw [if_neg hip, if_neg hip]; rfl
  rw [if_neg o1, if_neg o1]
  by_cases o2 : rd16 f 20 = 2
  · rw [if_pos o2, if_pos o2]; rfl
  rw [if_neg o2, if_neg o2]
  by_cases o3 : rd16 f 20 = 3
  · rw [if_pos o3, if_pos o3]; rfl
  rw [if_neg o3, if_neg o3]
  by_cases o4 : rd16 f 20 = 4
  · rw [if_pos o4, if_pos o4]; rfl
  · rcases ho with e | e | e | e <;> contradiction

/-- The run on any other frame: no flag, no cache access. -/
theorem processRun_other (p : Params) (c : Cache) (f : List Byte) (h4 : ¬ isIpv4Frame f)
    (ha : ¬ (isArpFrame f ∧ (rd16 f 20 = 1 ∨ rd16 f 20 = 2 ∨ rd16 f 20 = 3 ∨ rd16 f 20 = 4))) :
    processRun p c f = plainRun c (endingFor p f (firstDisposition p.localIp f)) := by
  unfold processRun firstDisposition
  by_cases h14 : f.length < 14
  · rw [ethDecode_short f h14, if_pos h14]; rfl
  rw [ethDecode_of_length f (by omega), if_neg h14]
  simp only [orMalformed]
  unfold ethDispatch
  simp only
  by_cases hta : rd16 f 12 = 0x0806
  · rw [if_pos hta, if_pos hta]
    unfold ethArpRun
    by_cases h42 : f.length < 42
    · rw [arpDecode_short f h42, if_pos h42]; rfl
    rw [arpDecode_frame f (by omega), if_neg h42]
    have hf : isArpFrame f := ⟨by omega, hta⟩
    have ho : ¬ (rd16 f 20 = 1 ∨ rd16 f 20 = 2 ∨ rd16 f 20 = 3 ∨ rd16 f 20 = 4) := fun ho => ha ⟨hf, ho⟩
    simp only [not_or] at ho
    simp only [orMalformed]
    unfold arpDispatch
    simp only
    rw [if_neg ho.1, if_neg ho.2.1, if_neg ho.2.2.1, if_neg ho.2.2.2, if_neg ho.1, if_neg ho.2.1, if_neg ho.2.2.1,
      if_neg ho.2.2.2]
    rfl
  rw [if_neg hta, if_neg hta]
  by_cases hi : rd16 f 12 = 0x0800
  · rw [if_pos hi, if_pos hi]
    unfold ethIpv4Run
    rw [ipv4Decode_frame]
    by_cases q1 : f.length < 34
    · rw [if_pos q1, if_pos q1]; rfl
    rw [if_neg q1, if_neg q1]
    by_cases q2 : (rd8 f 14).extractLsb' 4 4 ≠ 4
    · rw [if_pos q2, if_pos q2]; rfl
    rw [if_neg q2, if_neg q2]
    by_cases q3 : ihlOf f < 5
    · rw [if_pos q3, if_pos q3]; rfl
    rw [if_neg q3, if_neg q3]
    by_cases q4 : f.length < 14 + ihlOf f * 4
    · rw [if_pos q4, if_pos q4]; rfl
    exact absurd ⟨by omega, hi, by simpa using q2, by omega, by omega⟩ h4
  rw [if_neg hi, if_neg hi]; rfl

/-- Every run ends as its first disposition says. -/
theorem processRun_ending (p : Params) (c : Cache) (f : List Byte) :
    (processRun p c f).ending = endingFor p f (firstDisposition p.localIp f) := by
  by_cases h4 : isIpv4Frame f
  · rw [processRun_ipv4 p c f h4]; rfl
  · by_cases ha : isArpFrame f ∧ (rd16 f 20 = 1 ∨ rd16 f 20 = 2 ∨ rd16 f 20 = 3 ∨ rd16 f 20 = 4)
    · rw [processRun_arp p c f ha.1 ha.2]; rfl
    · rw [processRun_other p c f h4 ha]; rfl

theorem endingFor_code (p : Params) (f : List Byte) (d : Disposition) : endingCode (endingFor p f d) = d := by
  unfold endingFor
  split_ifs <;> rfl

/-- A run leaves the cache as it was unless the frame is an ARP frame with an opcode from 1 to 4. -/
theorem processRun_cache (p : Params) (c : Cache) (f : List Byte) (ha : rd16 f 12 ≠ 0x0806) :
    (processRun p c f).cache = c := by
  by_cases h4 : isIpv4Frame f
  · rw [processRun_ipv4 p c f h4]; rfl
  · rw [processRun_other p c f h4 (fun h => ha h.1.2)]; rfl

/-! ## What the first disposition says of the frame -/

/-- The cases of the first disposition: a frame that is no IPv4 frame in good order, a request for the local address,
and on an IPv4 frame in good order an end without a reply, an echo reply or a SYN-ACK. -/
theorem firstDisposition_cases (ip : Ip) (f : List Byte) (P : Disposition → Prop)
    (other : ¬ isIpv4Frame f → ∀ d, d ∈ [Disposition.ethTooShort, .arpTooShort, .arpRequestNotLocal, .arpReplySeen,
      .arpUnsupported, .arpBadOpcode, .ipv4TooShort, .ipv4BadVersion, .ipv4BadIhl, .ethUnsupportedType] → P d)
    (arp : isArpFrame f → rd16 f 20 = 1 → rd32 f 38 = ip → P .arpReply)
    (quiet : isIpv4Frame f → ∀ d, d ∈ [Disposition.icmpTooShort, .icmpEchoReplySeen, .icmpUnhandled, .tcpTooShort,
      .tcpBadDataOffset, .tcpUnhandled, .ipv4Udp, .ipv4Igmp, .ipv4UnknownProto] → P d)
    (echo : isIpv4Frame f → rd8 f 23 = 1 → 8 ≤ (upperOf f).length → rd8 (upperOf f) 0 = 8 → P .icmpEchoReply)
    (syn : isIpv4Frame f → rd8 f 23 = 6 → isTcpSegment (upperOf f) → flagsOf (upperOf f) = 0x002 → P .tcpSynAck) :
    P (firstDisposition ip f) := by
  unfold firstDisposition
  by_cases h14 : f.length < 14
  · rw [if_pos h14]; exact other (fun h => by have := h.1; omega) _ (by decide)
  rw [if_neg h14]
  by_cases hta : rd16 f 12 = 0x0806
  · have n4 : ¬ isIpv4Frame f := fun h => absurd (h.2.1.symm.trans hta) (by decide)
    rw [if_pos hta]
    by_cases h42 : f.length < 42
    · rw [if_pos h42]; exact other n4 _ (by decide)
    rw [if_neg h42]
    by_cases o1 : rd16 f 20 = 1
    · rw [if_pos o1]
      by_cases hip : rd32 f 38 = ip
      · rw [if_pos hip]; exact arp ⟨by omega, hta⟩ o1 hip
      · rw [if_neg hip]; exact other n4 _ (by decide)
    rw [if_neg o1]
    by_cases o2 : rd16 f 20 = 2
    · rw [if_pos o2]; exact other n4 _ (by decide)
    rw [if_neg o2]
    by_cases o3 : rd16 f 20 = 3
    · rw [if_pos o3]; exact other n4 _ (by decide)
    rw [if_neg o3]
    by_cases o4 : rd16 f 20 = 4
    · rw [if_pos o4]; exact other n4 _ (by decide)
    rw [if_neg o4]; exact other n4 _ (by decide)
  rw [if_neg hta]
  by_cases hi : rd16 f 12 = 0x0800
  · rw [if_pos hi]
    by_cases q1 : f.length < 34
    · rw [if_pos q1]; exact other (fun h => by have := h.1; omega) _ (by decide)
    rw [if_neg q1]
    by_cases q2 : (rd8 f 14).extractLsb' 4 4 ≠ 4
    · rw [if_pos q2]; exact other (fun h => q2 h.2.2.1) _ (by decide)
    rw [if_neg q2]
    by_cases q3 : ihlOf f < 5
    · rw [if_pos q3]; exact other (fun h => by have := h.2.2.2.1; omega) _ (by decide)
    rw [if_neg q3]
    by_cases q4 : f.length < 14 + ihlOf f * 4
    · rw [if_pos q4]; exact other (fun h => by have := h.2.2.2.2; omega) _ (by decide)
    rw [if_neg q4]
    have h4 : isIpv4Frame f := ⟨by omega, hi, by simpa using q2, by omega, by omega⟩
    by_cases e1 : rd8 f 23 = 1
    · rw [if_pos e1]
      by_cases h8 : (upperOf f).length < 8
      · rw [if_pos h8]; exact quiet h4 _ (by decide)
      rw [if_neg h8]
      by_cases t8 : rd8 (upperOf f) 0 = 8
      · rw [if_pos t8]; exact echo h4 e1 (by omega) t8
      rw [if_neg t8]
      by_cases t0 : rd8 (upperOf f) 0 = 0
      · rw [if_pos t0]; exact quiet h4 _ (by decide)
      rw [if_neg t0]; exact quiet h4 _ (by decide)
    rw [if_neg e1]
    by_cases e6 : rd8 f 23 = 6
    · rw [if_pos e6]
      by_cases k1 : (upperOf f).length < 20
      · rw [if_pos k1]; exact quiet h4 _ (by decide)
      rw [if_neg k1]
      by_cases k2 : doffOf (upperOf f) < 5
      · rw [if_pos k2]; exact quiet h4 _ (by decide)
      rw [if_neg k2]
      by_cases k3 : (upperOf f).length < doffOf (upperOf f) * 4
      · rw [if_pos k3]; exact quiet h4 _ (by decide)
      rw [if_neg k3]
      by_cases k4 : flagsOf (upperOf f) = 0x002
      · rw [if_pos k4]; exact syn h4 e6 ⟨by omega, by omega, by omega⟩ k4
      rw [if_neg k4]; exact quiet h4 _ (by decide)
    rw [if_neg e6]
    by_cases e17 : rd8 f 23 = 17
    · rw [if_pos e17]; exact quiet h4 _ (by decide)
    rw [if_neg e17]
    by_cases e2 : rd8 f 23 = 2
    · rw [if_pos e2]; exact quiet h4 _ (by decide)
    rw [if_neg e2]; exact quiet h4 _ (by decide)
  rw [if_neg hi]; exact other (fun h => hi h.2.1) _ (by decide)

theorem firstDisposition_arpReply (ip : Ip) (f : List Byte) :
    firstDisposition ip f = .arpReply → isArpFrame f ∧ rd16 f 20 = 1 ∧ rd32 f 38 = ip := by
  refine firstDisposition_cases ip f (fun d => d = .arpReply → isArpFrame f ∧ rd16 f 20 = 1 ∧ rd32 f 38 = ip)
    (fun _ d hd e => ?_) (fun a b c _ => ⟨a, b, c⟩) (fun _ d hd e => ?_) (fun _ _ _ _ e => ?_) (fun _ _ _ _ e => ?_)
  · subst e; exact absurd hd (by decide)
  · subst e; exact absurd hd (by decide)
  · exact absurd e (by decide)
  · exact absurd e (by decide)

theorem firstDisposition_echo (ip : Ip) (f : List Byte) :
    firstDisposition ip f = .icmpEchoReply →
      isIpv4Frame f ∧ rd8 f 23 = 1 ∧ 8 ≤ (upperOf f).length ∧ rd8 (upperOf f) 0 = 8 := by
  refine firstDisposition_cases ip f (fun d => d = .icmpEchoReply → _)
    (fun _ d hd e => ?_) (fun _ _ _ e => ?_) (fun _ d hd e => ?_) (fun a b c d _ => ⟨a, b, c, d⟩) (fun _ _ _ _ e => ?_)
  · subst e; exact absurd hd (by decide)
  · exact absurd e (by decide)
  · subst e; exact absurd hd (by decide)
  · exact absurd e (by decide)

theorem firstDisposition_synAck (ip : Ip) (f : List Byte) :
    firstDisposition ip f = .tcpSynAck →
      isIpv4Frame f ∧ rd8 f 23 = 6 ∧ isTcpSegment (upperOf f) ∧ flagsOf (upperOf f) = 0x002 := by
  refine firstDisposition_cases ip f (fun d => d = .tcpSynAck → _)
    (fun _ d hd e => ?_) (fun _ _ _ e => ?_) (fun _ d hd e => ?_) (fun _ _ _ _ e => ?_) (fun a b c d _ => ⟨a, b, c, d⟩)
  · subst e; exact absurd hd (by decide)
  · exact absurd e (by decide)
  · subst e; exact absurd hd (by decide)
  · exact absurd e (by decide)

/-- A `PROCESS` never ends with `OK` or a command error (60_exceptions.md R303). -/
theorem firstDisposition_ne (ip : Ip) (f : List Byte) :
    firstDisposition ip f ∉ [Disposition.ok, .cmdIllegal, .cmdRange, .cmdCsumOdd] := by
  refine firstDisposition_cases ip f (fun d => d ∉ [Disposition.ok, .cmdIllegal, .cmdRange, .cmdCsumOdd])
    (fun _ d hd => ?_) (fun _ _ _ => by decide) (fun _ d hd => ?_) (fun _ _ _ _ => by decide) (fun _ _ _ _ => by decide)
  · revert d; decide
  · revert d; decide

end Sys2Proof.Machine
end

