-- ==== Sys2Proof/Laws/Moves.lean ====
section
/-! SUPPORT. What any instruction and any move of the host can do, said once: the frame of `exec`, the form
of the five commands that process no frame, the end of a legal run, and the cases of a register write and of a move. -/

namespace Sys2Proof.Machine

/-- Every state that meets the invariant has legal lengths. -/
theorem legalLengths_of_inv (s : State) (h : Inv s) : LegalLengths s := by
  have := h.params
  simp only [legalParams, Bool.and_eq_true, decide_eq_true_eq] at this
  exact ⟨this.1.1, h.inLength, h.outLength⟩

/-- How a legal run ends: its report, its cache, and a reply or none. -/
theorem endProcess_good (s : State) (r : Run) (h : GoodRun s r) :
    ∃ t, endProcess s r = .next t ∧ t.report = runReport r ∧ t.cache = r.cache ∧
    t.err = dispIsError (endingCode r.ending) ∧
    ((∃ d x, r.ending = .emit d x ∧ Replied s t (runReport r) x) ∨
     ((∀ d x, r.ending ≠ .emit d x) ∧ Dropped s t (runReport r) (dispIsError (endingCode r.ending)))) := by
  obtain ⟨hg, -⟩ := h
  cases he : r.ending with
  | emit d x =>
    rw [he] at hg
    obtain ⟨t, a, b, c⟩ := endProcess_emit s r d x he hg.1 hg.2.1
    exact ⟨t, a, b.ends.report, c, by rw [b.ends.err]; exact hg.2.2.symm, .inl ⟨d, x, rfl, b⟩⟩
  | finish d =>
    rw [he] at hg
    obtain ⟨t, a, b, c⟩ := endProcess_finish s r d he
    exact ⟨t, a, b.ends.report, c, by rw [b.ends.err]; exact hg.symm, .inr
      ⟨fun _ _ => by simp, by rw [show dispIsError (endingCode (.finish d)) = false from hg]; exact b⟩⟩
  | raise d =>
    rw [he] at hg
    obtain ⟨t, a, b, c⟩ := endProcess_raise s r d he
    exact ⟨t, a, b.ends.report, c, by rw [b.ends.err]; exact hg.symm, .inr
      ⟨fun _ _ => by simp, by rw [show dispIsError (endingCode (.raise d)) = true from hg]; exact b⟩⟩

/-! ## The frame of `exec` -/

/-- A meaning over the frame changes nothing that no command changes. -/
theorem onFrame_kept (s t : State) (k : EthHeader → List Byte → Run) (h : onFrame s k = .next t) :
    ∃ rep err r0 r1, CommandEnds s t rep err r0 r1 := by
  rcases onFrame_cases s k with ⟨_, e⟩ | e
  · rw [e] at h; exact absurd h (by simp)
  · rw [e] at h
    generalize orMalformed _ _ _ = r at h
    rcases endProcess_cases s r with
      ⟨d, x, he, hl, e⟩ | ⟨d, x, t', he, hl, e, rfl⟩ | ⟨d, t', -, e, hd, -⟩ | ⟨d, t', -, e, hd, -⟩
    · rw [e] at h; exact absurd h (by simp)
    · rw [e] at h; injection h with h; subst h
      refine ⟨runReport r, false, 1, BitVec.ofNat 32 x.length, ?_⟩
      constructor <;> first | rfl | (intro a; rfl)
    · rw [e] at h; injection h with h; subst h; exact ⟨_, _, _, _, hd.ends⟩
    · rw [e] at h; injection h with h; subst h; exact ⟨_, _, _, _, hd.ends⟩

theorem commandError_kept (s t : State) (d : Disposition) (h : commandError s d = .next t) :
    CommandEnds s t (plainReport d) true 0 0 ∧ OutKept s t ∧ t.cache = s.cache := by
  injection h with h; subst h; exact ⟨endCommand_commandEnds _ _ _ _ _, endCommand_outKept _ _ _ _ _, rfl⟩

theorem withView_kept (t : State) (v : Option (List Byte)) (k : List Byte → Result) (h : withView v k = .next t) :
    ∃ b, v = some b ∧ k b = .next t := by
  cases v with
  | none => exact absurd h (by simp [withView])
  | some b => exact ⟨b, rfl, h⟩

theorem csumResult_kept (s t : State) (c : Half) (x : Nat) (h : csumResult s c x = .next t) :
    CommandEnds s t (plainReport .ok) false (c.setWidth 32) (BitVec.ofNat 32 x) ∧
      OutKept s t ∧ t.cache = s.cache := by
  injection h with h; subst h; exact ⟨endCommand_commandEnds _ _ _ _ _, endCommand_outKept _ _ _ _ _, rfl⟩

/-- What a command that processes no frame leaves. -/
theorem exec_other (s t : State) (i : Instr) (hi : processesFrame i = false) (h : exec i s = .next t) :
    (∃ rep err r0 r1, CommandEnds s t rep err r0 r1 ∧ (err = dispIsError rep.disp) ∧
      (err = true → r0 = 0 ∧ r1 = 0)) ∧
    OutKept s t ∧ (i ≠ .cacheUpdate → t.cache = s.cache) ∧
    (t.cache = s.cache ∨ ∃ ip mac, t.cache = (cacheUpdate s.cfg.cacheCapacity s.cache ip mac).1) := by
  cases i with
  | csum16 =>
    have h : execCsum16 s = .next t := h
    unfold execCsum16 at h
    split at h
    · obtain ⟨a, b, c⟩ := commandError_kept _ _ _ h
      exact ⟨⟨_, _, _, _, a, rfl, fun _ => ⟨rfl, rfl⟩⟩, b, fun _ => c, .inl c⟩
    · obtain ⟨b, -, h⟩ := withView_kept t _ _ h
      split at h
      · obtain ⟨a, b, c⟩ := commandError_kept _ _ _ h
        exact ⟨⟨_, _, _, _, a, rfl, fun _ => ⟨rfl, rfl⟩⟩, b, fun _ => c, .inl c⟩
      · obtain ⟨a, b, c⟩ := csumResult_kept _ _ _ _ h
        exact ⟨⟨_, _, _, _, a, rfl, fun q => absurd q (by simp)⟩, b, fun _ => c, .inl c⟩
  | csum16p =>
    have h : execCsum16p s = .next t := h
    unfold execCsum16p at h
    split at h
    · obtain ⟨a, b, c⟩ := commandError_kept _ _ _ h
      exact ⟨⟨_, _, _, _, a, rfl, fun _ => ⟨rfl, rfl⟩⟩, b, fun _ => c, .inl c⟩
    · obtain ⟨b, -, h⟩ := withView_kept t _ _ h
      obtain ⟨a, b, c⟩ := csumResult_kept _ _ _ _ h
      exact ⟨⟨_, _, _, _, a, rfl, fun q => absurd q (by simp)⟩, b, fun _ => c, .inl c⟩
  | csumPseudo =>
    have h : execCsumPseudo s = .next t := h
    unfold execCsumPseudo at h
    split at h
    · obtain ⟨a, b, c⟩ := commandError_kept _ _ _ h
      exact ⟨⟨_, _, _, _, a, rfl, fun _ => ⟨rfl, rfl⟩⟩, b, fun _ => c, .inl c⟩
    · obtain ⟨b, -, h⟩ := withView_kept t _ _ h
      obtain ⟨a, b, c⟩ := csumResult_kept _ _ _ _ h
      exact ⟨⟨_, _, _, _, a, rfl, fun q => absurd q (by simp)⟩, b, fun _ => c, .inl c⟩
  | cacheLookup =>
    have h : execCacheLookup s = .next t := h
    injection h with h; subst h
    exact ⟨⟨_, _, _, _, endCommand_commandEnds _ _ _ _ _, rfl, fun q => absurd q (by simp)⟩,
      endCommand_outKept _ _ _ _ _, fun _ => rfl, .inl rfl⟩
  | cacheUpdate =>
    have h : execCacheUpdate s = .next t := h
    injection h with h; subst h
    refine ⟨⟨updateReport (cacheUpdate s.cfg.cacheCapacity s.cache (argIp s) (argMac s)).2, false, 0, 0, ?_, rfl,
      fun q => absurd q (by simp)⟩, ⟨rfl, fun _ => rfl⟩, fun q => absurd rfl q, .inr ⟨_, _, rfl⟩⟩
    constructor <;> first | rfl | (intro a; rfl)
  | _ => exact absurd hi (by simp [processesFrame])

/-- Every other instruction is a meaning over the frame. -/
theorem exec_onFrame (s : State) (i : Instr) (hi : processesFrame i = true) : ∃ k, exec i s = onFrame s k := by
  cases i <;> first | exact ⟨_, rfl⟩ | exact absurd hi (by simp [processesFrame])

/-- No instruction changes the opcode, the arguments, `IN_LEN`, `IN`, the parameters or the host. -/
theorem exec_kept (s t : State) (i : Instr) (h : exec i s = .next t) :
    ∃ rep err r0 r1, CommandEnds s t rep err r0 r1 := by
  cases hi : processesFrame i with
  | true => obtain ⟨k, e⟩ := exec_onFrame s i hi; rw [e] at h; exact onFrame_kept s t k h
  | false => obtain ⟨⟨a, b, c, d, e, _⟩, _⟩ := exec_other s t i hi h; exact ⟨a, b, c, d, e⟩

/-- A command that processes no frame ends with its report and at most one update of the cache. -/
theorem exec_other_form (s : State) (i : Instr) (hi : processesFrame i = false) (hl : LegalLengths s) :
    ∃ c rep r0 r1, exec i s = .next (endCommand { s with cache := c } rep r0 r1 (dispIsError rep.disp)) ∧
      (dispIsError rep.disp = true → r0 = 0 ∧ r1 = 0) ∧
      (c = s.cache ∨ ∃ ip mac, c = (cacheUpdate s.cfg.cacheCapacity s.cache ip mac).1) := by
  have hview : csumOutOfRange s = false → ∃ b, csumView s = some b := by
    intro hr
    refine ⟨_, (memRead_eq_some _ _ _ _ _).2 ⟨?_, rfl⟩⟩
    unfold csumOutOfRange validLen at hr
    have h1 := hl.inLen
    have h2 := hl.outLen
    simp only [decide_eq_false_iff_not, not_lt] at hr
    split at hr <;> omega
  cases i with
  | csum16 =>
    show ∃ c rep r0 r1, execCsum16 s = _ ∧ _
    unfold execCsum16
    cases hr : csumOutOfRange s with
    | true => exact ⟨s.cache, plainReport .cmdRange, 0, 0, rfl, fun _ => ⟨rfl, rfl⟩, .inl rfl⟩
    | false =>
      obtain ⟨b, hb⟩ := hview hr
      rw [hb]
      simp only [withView, Bool.false_eq_true, if_false]
      cases csum16 b with
      | none => exact ⟨s.cache, plainReport .cmdCsumOdd, 0, 0, rfl, fun _ => ⟨rfl, rfl⟩, .inl rfl⟩
      | some x => exact ⟨s.cache, plainReport .ok, _, _, rfl, fun q => absurd q (by decide), .inl rfl⟩
  | csum16p =>
    show ∃ c rep r0 r1, execCsum16p s = _ ∧ _
    unfold execCsum16p
    cases hr : csumOutOfRange s with
    | true => exact ⟨s.cache, plainReport .cmdRange, 0, 0, rfl, fun _ => ⟨rfl, rfl⟩, .inl rfl⟩
    | false =>
      obtain ⟨b, hb⟩ := hview hr
      rw [hb]
      exact ⟨s.cache, plainReport .ok, _, _, rfl, fun q => absurd q (by decide), .inl rfl⟩
  | csumPseudo =>
    show ∃ c rep r0 r1, execCsumPseudo s = _ ∧ _
    unfold execCsumPseudo
    cases hr : csumOutOfRange s with
    | true => exact ⟨s.cache, plainReport .cmdRange, 0, 0, rfl, fun _ => ⟨rfl, rfl⟩, .inl rfl⟩
    | false =>
      obtain ⟨b, hb⟩ := hview hr
      rw [hb]
      exact ⟨s.cache, plainReport .ok, _, _, rfl, fun q => absurd q (by decide), .inl rfl⟩
  | cacheLookup => exact ⟨s.cache, plainReport .ok, _, _, rfl, fun q => absurd q (by decide), .inl rfl⟩
  | cacheUpdate =>
    exact ⟨_, updateReport (cacheUpdate s.cfg.cacheCapacity s.cache (argIp s) (argMac s)).2, 0, 0, rfl,
      fun q => absurd (show dispIsError .ok = true from q) (by decide), .inr ⟨_, _, rfl⟩⟩
  | _ => exact absurd hi (by simp [processesFrame])

/-! ## The host -/

/-- What a register write can do (10_state.md R28 to R38). -/
theorem regWrite_cases (s : State) (o : Nat) (v : Word) :
    regWrite s o v = s ∨ (s.busy = false ∧
      ((o = 0x00 ∧ regWrite s o v = latchCommand s (v.extractLsb' 0 8)) ∨
       (o = 0x08 ∧ regWrite s o v = { s with arg0 := v }) ∨ (o = 0x0C ∧ regWrite s o v = { s with arg1 := v }) ∨
       (o = 0x10 ∧ regWrite s o v = { s with arg2 := v }) ∨ (o = 0x14 ∧ regWrite s o v = { s with arg3 := v }) ∨
       (o = 0x24 ∧ regWrite s o v = { s with inLen := clampInLen s v }))) := by
  unfold regWrite
  cases s.busy with
  | true => exact .inl rfl
  | false =>
    simp only [Bool.false_eq_true, if_false]
    split
    · next h => exact .inr ⟨trivial, .inl ⟨h, rfl⟩⟩
    split
    · next h => exact .inr ⟨trivial, .inr (.inl ⟨h, rfl⟩)⟩
    split
    · next h => exact .inr ⟨trivial, .inr (.inr (.inl ⟨h, rfl⟩))⟩
    split
    · next h => exact .inr ⟨trivial, .inr (.inr (.inr (.inl ⟨h, rfl⟩)))⟩
    split
    · next h => exact .inr ⟨trivial, .inr (.inr (.inr (.inr (.inl ⟨h, rfl⟩))))⟩
    split
    · next h => exact .inr ⟨trivial, .inr (.inr (.inr (.inr (.inr ⟨h, rfl⟩))))⟩
    · exact .inl rfl

/-- A host access has its move, or is refused. -/
theorem hostMove_next_or_refused (s : State) (m : HostMove) :
    (hasMove s m = true ∧ ∃ t, hostMove m s = .next t) ∨
      (hasMove s m = false ∧ hostMove m s = .refused .hostAccess) := by
  cases m <;> simp only [hostMove, hasMove] <;> (try split) <;> simp_all

/-- What a move of the host can do. -/
theorem hostMove_cases (s t : State) (m : HostMove) (h : hostMove m s = .next t) :
    (∃ o v, m = .regWrite 4 o v ∧ t = regWrite (hostAdvance s) o v) ∨
    (∃ a b, m = .inWrite a b ∧ a < s.cfg.maxFrameLen ∧ t = inWrite (hostAdvance s) a b) ∨
    (∃ v, t = hostSees (hostAdvance s) v) ∨ t = hostAdvance s ∨
    (∃ v bit target, t = hostBranch (hostSees (hostAdvance s) v) v bit target) ∨
    (m = .reset ∧ t = hostAdvance (hostReset s)) := by
  cases m with
  | regWrite w o v =>
    simp only [hostMove] at h
    split at h
    · next hw =>
      injection h with h
      simp only [isRegAccess, Bool.and_eq_true, beq_iff_eq] at hw
      obtain rfl := hw.1.1
      exact .inl ⟨o, v, rfl, h.symm⟩
    · exact absurd h (by simp)
  | regRead w o =>
    simp only [hostMove] at h
    split at h
    · injection h with h; exact .inr (.inr (.inl ⟨_, h.symm⟩))
    · exact absurd h (by simp)
  | inWrite a b =>
    simp only [hostMove] at h
    split at h
    · next ha => injection h with h; exact .inr (.inl ⟨a, b, rfl, ha, h.symm⟩)
    · exact absurd h (by simp)
  | inRead a =>
    simp only [hostMove] at h
    split at h
    · injection h with h; exact .inr (.inr (.inl ⟨_, h.symm⟩))
    · exact absurd h (by simp)
  | outWrite a b =>
    simp only [hostMove] at h
    split at h
    · injection h with h; exact .inr (.inr (.inr (.inl h.symm)))
    · exact absurd h (by simp)
  | outRead a =>
    simp only [hostMove] at h
    split at h
    · injection h with h; exact .inr (.inr (.inl ⟨_, h.symm⟩))
    · exact absurd h (by simp)
  | branchZero o bit target =>
    simp only [hostMove] at h
    split at h
    · injection h with h; exact .inr (.inr (.inr (.inr (.inl ⟨_, _, _, h.symm⟩))))
    · exact absurd h (by simp)
  | reset => injection h with h; exact .inr (.inr (.inr (.inr (.inr ⟨rfl, h.symm⟩))))

end Sys2Proof.Machine
end

