-- ==== Sys2Proof/Laws/PerInstr.lean ====
section
/-! SUPPORT. One statement for every instruction, as syntax: the key the encoder writes lies in the instruction's own row
of the opcode table (30_encoding.md R108). One lemma per constructor. -/

namespace Sys2Proof.Laws.KeyInRow

/-- The key of `i` is written in the format of its row and matches the row: `key & mask = match` (R108). -/
def Statement (i : Instr) : Prop :=
  (encode i).1 = (rowOf i).format ∧ (encode i).2 &&& (rowOf i).mask = (rowOf i).mtch

theorem csum16 : Statement .csum16 := ⟨rfl, rfl⟩
theorem csum16p : Statement .csum16p := ⟨rfl, rfl⟩
theorem csumPseudo : Statement .csumPseudo := ⟨rfl, rfl⟩
theorem cacheLookup : Statement .cacheLookup := ⟨rfl, rfl⟩
theorem cacheUpdate : Statement .cacheUpdate := ⟨rfl, rfl⟩
theorem process : Statement .process := ⟨rfl, rfl⟩
theorem ethArp : Statement .ethArp := ⟨rfl, rfl⟩
theorem ethIpv4 : Statement .ethIpv4 := ⟨rfl, rfl⟩
theorem ethOther (key : BitVec 16) : Statement (.ethOther key) := ⟨rfl, BitVec.and_zero⟩
theorem arpRequest : Statement .arpRequest := ⟨rfl, rfl⟩
theorem arpReply : Statement .arpReply := ⟨rfl, rfl⟩
theorem arpRarpRequest : Statement .arpRarpRequest := ⟨rfl, rfl⟩
theorem arpRarpReply : Statement .arpRarpReply := ⟨rfl, rfl⟩
theorem arpBadOpcode (key : BitVec 16) : Statement (.arpBadOpcode key) := ⟨rfl, BitVec.and_zero⟩
theorem ipIcmp : Statement .ipIcmp := ⟨rfl, rfl⟩
theorem ipIgmp : Statement .ipIgmp := ⟨rfl, rfl⟩
theorem ipTcp : Statement .ipTcp := ⟨rfl, rfl⟩
theorem ipUdp : Statement .ipUdp := ⟨rfl, rfl⟩
theorem ipOther (key : BitVec 8) : Statement (.ipOther key) := ⟨rfl, BitVec.and_zero⟩
theorem icmpEchoRequest : Statement .icmpEchoRequest := ⟨rfl, rfl⟩
theorem icmpEchoReply : Statement .icmpEchoReply := ⟨rfl, rfl⟩
theorem icmpType3 : Statement .icmpType3 := ⟨rfl, rfl⟩
theorem icmpType4 : Statement .icmpType4 := ⟨rfl, rfl⟩
theorem icmpType5 : Statement .icmpType5 := ⟨rfl, rfl⟩
theorem icmpType9 : Statement .icmpType9 := ⟨rfl, rfl⟩
theorem icmpType10 : Statement .icmpType10 := ⟨rfl, rfl⟩
theorem icmpType11 : Statement .icmpType11 := ⟨rfl, rfl⟩
theorem icmpType12 : Statement .icmpType12 := ⟨rfl, rfl⟩
theorem icmpOther (key : BitVec 8) : Statement (.icmpOther key) := ⟨rfl, BitVec.and_zero⟩
theorem tcpPureSyn : Statement .tcpPureSyn := ⟨rfl, rfl⟩
theorem tcpOther (key : BitVec 9) : Statement (.tcpOther key) := ⟨rfl, BitVec.and_zero⟩

end Sys2Proof.Laws.KeyInRow
end

