-- ==== Sys2Proof/Machine/HostAsm.lean ====
section
/-! DEFINITION. The host assembly of 30_encoding.md R120 and R121: its statements and pseudo-statements, and the bus
transactions (host moves) they stand for. -/

namespace Sys2Proof.Machine

/-- The register names of 10_state.md R26. -/
inductive RegName where
  | cmd
  | status
  | arg0
  | arg1
  | arg2
  | arg3
  | res0
  | res1
  | report
  | inLen
  | outLen
  | localIp
  | localMacHi
  | localMacLo
  | cacheCount
deriving DecidableEq, Repr

/-- The offset of a register (R26). -/
def regOffset : RegName → Nat
  | .cmd => 0x00
  | .status => 0x04
  | .arg0 => 0x08
  | .arg1 => 0x0C
  | .arg2 => 0x10
  | .arg3 => 0x14
  | .res0 => 0x18
  | .res1 => 0x1C
  | .report => 0x20
  | .inLen => 0x24
  | .outLen => 0x28
  | .localIp => 0x2C
  | .localMacHi => 0x30
  | .localMacLo => 0x34
  | .cacheCount => 0x38

/-- A statement (R120) or a pseudo-statement (R121) of a host program. -/
inductive HostStmt where
  | wr (reg : RegName) (value : BitVec 32)
  | rd (reg : RegName)
  | inb (addr : Nat) (bytes : List (BitVec 8))
  | outb (addr count : Nat)
  | label (name : String)
  | bz (reg : RegName) (bit : Nat) (name : String)
  | cmd (opc : BitVec 8)
  | wait
  | frame (bytes : List (BitVec 8))
  | process
  | csum16 (sp : Space) (off len : BitVec 16)
  | csum16p (sp : Space) (off len : BitVec 16)
  | csumPseudo (sp : Space) (off len : BitVec 16) (src dst : BitVec 32)
  | lookup (ip : BitVec 32)
  | update (ip : BitVec 32) (mac : BitVec 48)
deriving DecidableEq, Repr

/-- One 32-bit register write. -/
def wrMove (r : RegName) (v : Word) : HostMove := .regWrite 4 (regOffset r) v

/-- The byte writes of `inb addr: b0 … bk`, in increasing address order (20_memory.md R63). -/
def inbMoves : Nat → List (BitVec 8) → List HostMove
  | _, [] => []
  | a, b :: rest => .inWrite a b :: inbMoves (a + 1) rest

/-- `wait`, standing at the program index `here`: poll `STATUS` until `DONE = 1` (R121). -/
def waitMove (here : Nat) : HostMove := .branchZero (regOffset .status) 1 here

/-- The word of an opcode (30_encoding.md R91). -/
def cmdMove (opc : BitVec 8) : HostMove := wrMove .cmd (opc.setWidth 32)

/-- `SP<<16 | OFF` (R121). -/
def spaceOff (sp : Space) (off : BitVec 16) : Word :=
  match sp with
  | .inbound => 0#16 ++ off
  | .outbound => 1#16 ++ off

/-- The moves of a statement that stands at the program index `here`; `none` for a branch to a label the program does
not have. -/
def stmtMoves (labels : List (String × Nat)) (here : Nat) : HostStmt → Option (List HostMove)
  | .wr r v => some [wrMove r v]
  | .rd r => some [.regRead 4 (regOffset r)]
  | .inb a bs => some (inbMoves a bs)
  | .outb a n => some ((List.range n).map fun i => .outRead (a + i))
  | .label _ => some []
  | .bz r bit name => (labels.lookup name).map fun t => [.branchZero (regOffset r) bit t]
  | .cmd opc => some [cmdMove opc]
  | .wait => some [waitMove here]
  | .frame bs => some (inbMoves 0 bs ++ [wrMove .inLen (BitVec.ofNat 32 bs.length)])
  | .process => some [cmdMove 0x20, waitMove (here + 1)]
  | .csum16 sp off len =>
    some [wrMove .arg0 (spaceOff sp off), wrMove .arg1 (len.setWidth 32), cmdMove 0x01, waitMove (here + 3)]
  | .csum16p sp off len =>
    some [wrMove .arg0 (spaceOff sp off), wrMove .arg1 (len.setWidth 32), cmdMove 0x02, waitMove (here + 3)]
  | .csumPseudo sp off len src dst =>
    some [wrMove .arg0 (spaceOff sp off), wrMove .arg1 (len.setWidth 32), wrMove .arg2 src, wrMove .arg3 dst,
      cmdMove 0x03, waitMove (here + 5)]
  | .lookup ip => some [wrMove .arg2 ip, cmdMove 0x10, waitMove (here + 2)]
  | .update ip mac =>
    some [wrMove .arg0 ((mac.extractLsb' 32 16).setWidth 32), wrMove .arg1 (mac.extractLsb' 0 32), wrMove .arg2 ip,
      cmdMove 0x11, waitMove (here + 4)]

/-- How many moves a statement stands for. -/
def stmtSize : HostStmt → Nat
  | .bz _ _ _ => 1
  | st => ((stmtMoves [] 0 st).getD []).length

/-- The program index of every label: it names the statement after it (R120). -/
def labelTable : Nat → List HostStmt → List (String × Nat)
  | _, [] => []
  | here, .label name :: rest => (name, here) :: labelTable here rest
  | here, st :: rest => labelTable (here + stmtSize st) rest

/-- The moves of the statements from the program index `here` on. -/
def assembleFrom (labels : List (String × Nat)) : Nat → List HostStmt → Option (List HostMove)
  | _, [] => some []
  | here, st :: rest =>
    match stmtMoves labels here st, assembleFrom labels (here + stmtSize st) rest with
    | some ms, some more => some (ms ++ more)
    | _, _ => none

/-- A host program as the moves its statements stand for. -/
def assemble (prog : List HostStmt) : Option (List HostMove) := assembleFrom (labelTable 0 prog) 0 prog

end Sys2Proof.Machine
end

