-- ==== Sys2Proof/Tests/Slice0.lean ====
section
/-! SUPPORT. Tests: the ill-formed terms the checks refuse, the decoding of every constructor's key as written out from
30_encoding.md R92 and R109, one or two steps per instruction against the vectors of 95_test_vectors.md, and for every
obligation with hypotheses a state and operands that meet them. -/

namespace Sys2Proof.Tests

open Sys2Proof.Machine

set_option Elab.async false

/-! ## WellFormed -/

theorem test_wellFormed_refuses_ethOther : wellFormed (.ethOther 0x0806) = false := by decide
theorem test_wellFormed_refuses_arpBadOpcode : wellFormed (.arpBadOpcode 4) = false := by decide
theorem test_wellFormed_refuses_ipOther : wellFormed (.ipOther 17) = false := by decide
theorem test_wellFormed_refuses_icmpOther : wellFormed (.icmpOther 0) = false := by decide
theorem test_wellFormed_refuses_tcpOther : wellFormed (.tcpOther 0x002) = false := by decide
theorem test_wellFormed_accepts : wellFormed .process = true ∧ wellFormed (.ethOther 0x86DD) = true ∧
    wellFormed (.arpBadOpcode 5) = true ∧ wellFormed (.ipOther 41) = true ∧ wellFormed (.icmpOther 13) = true ∧
    wellFormed (.tcpOther 0x102) = true := by decide

/-! ## Decoding, from the tables of R92 and R109 (only the bits of the key count: R94, R108) -/

theorem test_decode_csum16 : decode .cmd 0x00000001 = .ok .csum16 := rfl
theorem test_decode_csum16p : decode .cmd 0x00000002 = .ok .csum16p := rfl
theorem test_decode_csumPseudo : decode .cmd 0x00000003 = .ok .csumPseudo := rfl
theorem test_decode_cacheLookup : decode .cmd 0x00000010 = .ok .cacheLookup := rfl
theorem test_decode_cacheUpdate : decode .cmd 0x00000011 = .ok .cacheUpdate := rfl
theorem test_decode_process : decode .cmd 0x00000120 = .ok .process := rfl
theorem test_decode_ethArp : decode .etype 0x0806 = .ok .ethArp := rfl
theorem test_decode_ethIpv4 : decode .etype 0x0800 = .ok .ethIpv4 := rfl
theorem test_decode_ethOther : decode .etype 0x0005 = .ok (.ethOther 0x0005) := rfl
theorem test_decode_arpRequest : decode .arpop 0x0001 = .ok .arpRequest := rfl
theorem test_decode_arpReply : decode .arpop 0x0002 = .ok .arpReply := rfl
theorem test_decode_arpRarpRequest : decode .arpop 0x0003 = .ok .arpRarpRequest := rfl
theorem test_decode_arpRarpReply : decode .arpop 0x0004 = .ok .arpRarpReply := rfl
theorem test_decode_arpBadOpcode : decode .arpop 0x0100 = .ok (.arpBadOpcode 0x0100) := rfl
theorem test_decode_ipIcmp : decode .ipproto 0x01 = .ok .ipIcmp := rfl
theorem test_decode_ipIgmp : decode .ipproto 0x02 = .ok .ipIgmp := rfl
theorem test_decode_ipTcp : decode .ipproto 0x06 = .ok .ipTcp := rfl
theorem test_decode_ipUdp : decode .ipproto 0x11 = .ok .ipUdp := rfl
theorem test_decode_ipOther : decode .ipproto 0x29 = .ok (.ipOther 0x29) := rfl
theorem test_decode_icmpEchoRequest : decode .icmptype 0x08 = .ok .icmpEchoRequest := rfl
theorem test_decode_icmpEchoReply : decode .icmptype 0x00 = .ok .icmpEchoReply := rfl
theorem test_decode_icmpType3 : decode .icmptype 0x03 = .ok .icmpType3 := rfl
theorem test_decode_icmpType4 : decode .icmptype 0x04 = .ok .icmpType4 := rfl
theorem test_decode_icmpType5 : decode .icmptype 0x05 = .ok .icmpType5 := rfl
theorem test_decode_icmpType9 : decode .icmptype 0x09 = .ok .icmpType9 := rfl
theorem test_decode_icmpType10 : decode .icmptype 0x0A = .ok .icmpType10 := rfl
theorem test_decode_icmpType11 : decode .icmptype 0x0B = .ok .icmpType11 := rfl
theorem test_decode_icmpType12 : decode .icmptype 0x0C = .ok .icmpType12 := rfl
theorem test_decode_icmpOther : decode .icmptype 0x0D = .ok (.icmpOther 0x0D) := rfl
theorem test_decode_tcpPureSyn : decode .tcpflags 0x002 = .ok .tcpPureSyn := rfl
theorem test_decode_tcpOther : decode .tcpflags 0x102 = .ok (.tcpOther 0x102) := rfl
theorem test_decode_illegal : decode .cmd 0x0000007F = .error (.illegalOpcode 0x7F) := rfl
theorem test_table_word : decodeTableWord 8 0x20 = some .process ∧ decodeTableWord 16 0x0806 = some .ethArp := by decide

/-! ## States to start from -/

/-- The test parameters of 95_test_vectors.md L2.0. -/
def testParams : Params :=
  { localMac := 0x525400123456, localIp := 0xC0A80002, isnConst := 0x1000, prefixLen := 0, maxFrameLen := 1518
    cacheCapacity := none, extraStatic := [] }

/-- Reset under the test parameters, then the bytes `f` in `IN` with their length, and `PROCESS` latched. -/
def frameState (f : List Byte) : State :=
  { State.resetWith testParams with
    opc := 0x20, busy := true, inMem := memStoreBytes [] 0 f, inLen := BitVec.ofNat 16 f.length }

/-- The same with the arguments `ARG0` to `ARG3`. -/
def argState (f : List Byte) (a0 a1 a2 a3 : Word) : State :=
  { frameState f with arg0 := a0, arg1 := a1, arg2 := a2, arg3 := a3 }

/-- The same with the capacity 2, which the initial cache fills (V-CMD-7). -/
def fullState (f : List Byte) (a0 a1 a2 : Word) : State :=
  { argState f a0 a1 a2 0 with cfg := { testParams with cacheCapacity := some 2 } }

/-- `REPORT`, `STATUS`, `RES0`, `RES1`, `OUT_LEN` and `CACHE_COUNT` after a step, as the vectors give them. -/
def observe : Result → List Nat
  | .next t => [(reportWord t.report).toNat, (statusWord t).toNat, t.res0.toNat, t.res1.toNat, t.outLen.toNat,
      t.cache.length]
  | .fault _ => []
  | .refused _ => []

/-- The reply in `OUT` after a step. -/
def replyOf : Result → List Byte
  | .next t => bytesAt t .outbound 0 t.outLen.toNat
  | .fault _ => []
  | .refused _ => []

/-- A frame from the peer of L2.0 with this ether-type. -/
def ethFrame (hi lo : Byte) (p : List Byte) : List Byte :=
  [0x52, 0x54, 0x00, 0x12, 0x34, 0x56, 0x02, 0x11, 0x22, 0x33, 0x44, 0x55, hi, lo] ++ p

/-- An ARP message of the peer with this opcode, for 192.168.0.`target`. -/
def arpFrame (op target : Byte) : List Byte :=
  ethFrame 0x08 0x06 ([0x00, 0x01, 0x08, 0x00, 0x06, 0x04, 0x00, op] ++
    [0x02, 0x11, 0x22, 0x33, 0x44, 0x55, 0xC0, 0xA8, 0x00, 0x01] ++
    [0x00, 0x00, 0x00, 0x00, 0x00, 0x00, 0xC0, 0xA8, 0x00, target])

/-- An IPv4 packet from the peer to the block. -/
def ipFrame (total proto check1 check2 : Byte) (p : List Byte) : List Byte :=
  ethFrame 0x08 0x00 ([0x45, 0x00, 0x00, total, 0x00, 0x01, 0x40, 0x00, 0x40, proto, check1, check2] ++
    [0xC0, 0xA8, 0x00, 0x01, 0xC0, 0xA8, 0x00, 0x02] ++ p)

/-- An ICMP message of this type, with the other bytes of ICMP-1. -/
def icmpFrame (type : Byte) : List Byte :=
  ipFrame 0x1E 0x01 0xB9 0x8A [type, 0x00, 0x3B, 0x0F, 0x12, 0x34, 0x00, 0x01, 0xAA, 0xBB]

/-- A TCP segment with these bytes 12 and 13, the others as in V-TCP-8. -/
def tcpFrame (b12 b13 : Byte) : List Byte :=
  ipFrame 0x28 0x06 0xB9 0x7B ([0xC0, 0x00, 0x00, 0x50, 0x00, 0x00, 0x00, 0x64, 0x12, 0x34, 0x56, 0x78] ++
    [b12, b13, 0xFA, 0xF0, 0x0A, 0x3D, 0x00, 0x00])

/-- V-ETH-4: ether-type 0x0005. -/
def etherFive : List Byte := ethFrame 0x00 0x05 (zeros 46)

/-- The `IN` bytes of V-CK-1. -/
def ckBytes : List Byte := [0x00, 0x01, 0xF2, 0x03, 0xF4, 0xF5, 0xF6, 0xF7]

/-! ## One step per instruction -/

/-- V-CK-1. -/
theorem test_csum16 :
    observe (exec .csum16 (argState ckBytes 0 8 0 0)) = [0, 2, 0x220D, 0xDDF2, 0, 2] := by
  decide +kernel

/-- V-CK-12: the range is checked before oddness. -/
theorem test_csum16_range_first :
    observe (exec .csum16 (argState ckBytes 6 3 0 0)) = [0x31, 6, 0, 0, 0, 2] := by
  decide +kernel

/-- V-CK-4. -/
theorem test_csum16p :
    observe (exec .csum16p (argState [0x01, 0x02, 0x03] 0 3 0 0)) = [0, 2, 0xFBFD, 0x0402, 0, 2] := by
  decide +kernel

/-- V-CK-14: `SP = 1`, `OUT_LEN = 0`. -/
theorem test_csum16p_out :
    observe (exec .csum16p (argState [] 0x00010000 1 0 0)) = [0x31, 6, 0, 0, 0, 2] := by
  decide +kernel

/-- V-CK-15. -/
theorem test_csumPseudo :
    observe (exec .csumPseudo (argState [] 0 0 0xC0A80002 0xC0A80001)) = [0, 2, 0x7EA5, 0x815A, 0, 2] := by
  decide +kernel

/-- V-CK-17. -/
theorem test_csumPseudo_odd :
    observe (exec .csumPseudo (argState [0x01, 0x02, 0x03] 0 3 0 0)) = [0, 2, 0xFBF4, 0x040B, 0, 2] := by
  decide +kernel

/-- V-CMD-2. -/
theorem test_cacheLookup :
    observe (exec .cacheLookup (argState [] 0 0 0xC0A80002 0)) = [0, 2, 0x00015254, 0x00123456, 0, 2] := by
  decide +kernel

/-- V-CMD-3. -/
theorem test_cacheLookup_absent :
    observe (exec .cacheLookup (argState [] 0 0 0x0A000001 0)) = [0, 2, 0, 0, 0, 2] := by
  decide +kernel

/-- V-CMD-6: the local binding is superseded. -/
theorem test_cacheUpdate :
    observe (exec .cacheUpdate (argState [] 0x0000AABB 0xCCDDEEFF 0xC0A80002 0)) = [0x400, 2, 0, 0, 0, 2] := by
  decide +kernel

/-- V-CMD-7. -/
theorem test_cacheUpdate_full :
    observe (exec .cacheUpdate (fullState [] 0x00000211 0x22334455 0xC0A80001)) = [0x800, 2, 0, 0, 0, 2] := by
  decide +kernel

/-- V-ETH-1. -/
theorem test_process_too_short :
    observe (exec .process (frameState [0x52, 0x54, 0x00, 0x12, 0x34, 0x56, 0x02, 0x11, 0x22, 0x33, 0x44, 0x55, 0x08])) = [0x20, 6, 0, 0, 0, 2] := by
  decide +kernel

/-- V-CMD-9: an opcode of no row. -/
theorem test_illegal : observe (engineStep { frameState [] with opc := 0x7F }) = [0x30, 6, 0, 0, 0, 2] := by
  decide +kernel

/-- V-ARP-4: a request for another address. -/
theorem test_ethArp :
    observe (exec .ethArp (frameState (arpFrame 1 9))) = [0x211, 2, 0, 0, 0, 3] := by
  decide +kernel

/-- V-IP-6. -/
theorem test_ethIpv4 :
    observe (exec .ethIpv4 (frameState (ipFrame 0x1C 0x11 0xB9 0x7C (zeros 8)))) = [0x16, 2, 0, 0, 0, 2] := by
  decide +kernel

/-- V-ETH-4. -/
theorem test_ethOther :
    observe (exec (.ethOther 0x0005) (frameState etherFive)) = [0x19, 2, 0, 0, 0, 2] := by
  decide +kernel

/-- ARP-1. -/
theorem test_arpRequest :
    observe (exec .arpRequest (frameState (arpFrame 1 2))) = [0x201, 2, 1, 42, 42, 3] := by
  decide +kernel

/-- ARP-1, the reply. -/
theorem test_arpRequest_reply : replyOf (exec .arpRequest (frameState (arpFrame 1 2))) =
    [0x02, 0x11, 0x22, 0x33, 0x44, 0x55, 0x52, 0x54, 0x00, 0x12, 0x34, 0x56, 0x08, 0x06, 0x00, 0x01, 0x08, 0x00,
    0x06, 0x04, 0x00, 0x02, 0x52, 0x54, 0x00, 0x12, 0x34, 0x56, 0xC0, 0xA8, 0x00, 0x02, 0x02, 0x11, 0x22, 0x33, 0x44,
    0x55, 0xC0, 0xA8, 0x00, 0x01] := by
  decide +kernel

/-- V-ARP-5. -/
theorem test_arpReply :
    observe (exec .arpReply (frameState (arpFrame 2 2))) = [0x210, 2, 0, 0, 0, 3] := by
  decide +kernel

/-- V-ARP-6. -/
theorem test_arpRarpRequest :
    observe (exec .arpRarpRequest (frameState (arpFrame 3 2))) = [0x212, 2, 0, 0, 0, 3] := by
  decide +kernel

/-- V-ARP-7. -/
theorem test_arpRarpReply :
    observe (exec .arpRarpReply (frameState (arpFrame 4 2))) = [0x212, 2, 0, 0, 0, 3] := by
  decide +kernel

/-- V-ARP-2. -/
theorem test_arpBadOpcode :
    observe (exec (.arpBadOpcode 5) (frameState (arpFrame 5 2))) = [0x22, 6, 0, 0, 0, 2] := by
  decide +kernel

/-- V-ICMP-3. -/
theorem test_ipIcmp_too_short :
    observe (exec .ipIcmp (frameState (ipFrame 0x1B 0x01 0xB9 0x8D [0x08, 0x00, 0x3B, 0x0F, 0x12, 0x34, 0x00]))) = [0x26, 6, 0, 0, 0, 2] := by
  decide +kernel

/-- V-IP-7. -/
theorem test_ipIgmp :
    observe (exec .ipIgmp (frameState (ipFrame 0x1C 0x02 0xB9 0x8B (zeros 8)))) = [0x17, 2, 0, 0, 0, 2] := by
  decide +kernel

/-- V-TCP-5, in the segment of V-TCP-8. -/
theorem test_ipTcp_bad_offset :
    observe (exec .ipTcp (frameState (tcpFrame 0x40 0x02))) = [0x28, 6, 0, 0, 0, 2] := by
  decide +kernel

/-- V-IP-6. -/
theorem test_ipUdp :
    observe (exec .ipUdp (frameState (ipFrame 0x1C 0x11 0xB9 0x7C (zeros 8)))) = [0x16, 2, 0, 0, 0, 2] := by
  decide +kernel

/-- V-IP-8. -/
theorem test_ipOther :
    observe (exec (.ipOther 0x29) (frameState (ipFrame 0x28 0x29 0xB9 0x58 (zeros 20)))) = [0x18, 2, 0, 0, 0, 2] := by
  decide +kernel

/-- ICMP-1. -/
theorem test_icmpEchoRequest :
    observe (exec .icmpEchoRequest (frameState (icmpFrame 8))) = [2, 2, 1, 44, 44, 2] := by
  decide +kernel

/-- ICMP-1, the reply. -/
theorem test_icmpEchoRequest_reply : replyOf (exec .icmpEchoRequest (frameState (icmpFrame 8))) =
    [0x02, 0x11, 0x22, 0x33, 0x44, 0x55, 0x52, 0x54, 0x00, 0x12, 0x34, 0x56, 0x08, 0x00, 0x45, 0x00, 0x00, 0x1E,
    0x00, 0x01, 0x40, 0x00, 0x40, 0x01, 0xB9, 0x8A, 0xC0, 0xA8, 0x00, 0x02, 0xC0, 0xA8, 0x00, 0x01, 0x00, 0x00, 0x43,
    0x0F, 0x12, 0x34, 0x00, 0x01, 0xAA, 0xBB] := by
  decide +kernel

/-- V-ICMP-1. -/
theorem test_icmpEchoReply :
    observe (exec .icmpEchoReply (frameState (icmpFrame 0))) = [0x13, 2, 0, 0, 0, 2] := by
  decide +kernel

/-- 45_icmp.md R236 (V-ICMP-2). -/
theorem test_icmpType3 :
    observe (exec .icmpType3 (frameState (icmpFrame 3))) = [0x14, 2, 0, 0, 0, 2] := by
  decide +kernel

/-- 45_icmp.md R236. -/
theorem test_icmpType4 :
    observe (exec .icmpType4 (frameState (icmpFrame 4))) = [0x14, 2, 0, 0, 0, 2] := by
  decide +kernel

/-- 45_icmp.md R236. -/
theorem test_icmpType5 :
    observe (exec .icmpType5 (frameState (icmpFrame 5))) = [0x14, 2, 0, 0, 0, 2] := by
  decide +kernel

/-- 45_icmp.md R236. -/
theorem test_icmpType9 :
    observe (exec .icmpType9 (frameState (icmpFrame 9))) = [0x14, 2, 0, 0, 0, 2] := by
  decide +kernel

/-- 45_icmp.md R236. -/
theorem test_icmpType10 :
    observe (exec .icmpType10 (frameState (icmpFrame 10))) = [0x14, 2, 0, 0, 0, 2] := by
  decide +kernel

/-- 45_icmp.md R236. -/
theorem test_icmpType11 :
    observe (exec .icmpType11 (frameState (icmpFrame 11))) = [0x14, 2, 0, 0, 0, 2] := by
  decide +kernel

/-- 45_icmp.md R236. -/
theorem test_icmpType12 :
    observe (exec .icmpType12 (frameState (icmpFrame 12))) = [0x14, 2, 0, 0, 0, 2] := by
  decide +kernel

/-- 45_icmp.md R236. -/
theorem test_icmpOther :
    observe (exec (.icmpOther 13) (frameState (icmpFrame 13))) = [0x14, 2, 0, 0, 0, 2] := by
  decide +kernel

/-- V-TCP-8. -/
theorem test_tcpPureSyn :
    observe (exec .tcpPureSyn (frameState (tcpFrame 0x50 0x02))) = [3, 2, 1, 74, 74, 2] := by
  decide +kernel

/-- V-TCP-8, the reply. -/
theorem test_tcpPureSyn_reply : replyOf (exec .tcpPureSyn (frameState (tcpFrame 0x50 0x02))) =
    [0x02, 0x11, 0x22, 0x33, 0x44, 0x55, 0x52, 0x54, 0x00, 0x12, 0x34, 0x56, 0x08, 0x00, 0x45, 0x00, 0x00, 0x28,
    0x00, 0x01, 0x40, 0x00, 0x40, 0x06, 0xB9, 0x7B, 0xC0, 0xA8, 0x00, 0x02, 0xC0, 0xA8, 0x00, 0x01, 0x00, 0x50, 0xC0,
    0x00, 0x12, 0x34, 0x56, 0x79, 0x00, 0x00, 0x00, 0x65, 0xA0, 0x12, 0xFA, 0xF0, 0xBA, 0x16, 0x00, 0x00, 0x00, 0x00,
    0x00, 0x00, 0x00, 0x00, 0x00, 0x00, 0x00, 0x00, 0x00, 0x00, 0x00, 0x00, 0x00, 0x00, 0x00, 0x00, 0x00, 0x00] := by
  decide +kernel

/-- V-TCP-4, in the segment of V-TCP-8. -/
theorem test_tcpOther :
    observe (exec (.tcpOther 0x102) (frameState (tcpFrame 0x51 0x02))) = [0x15, 2, 0, 0, 0, 2] := by
  decide +kernel

/-! ## States and operands that meet the hypotheses of the obligations -/

theorem frameState_handedOver (f : List Byte) (h : f.length ≤ 1518) : handedOver (frameState f) = f := by
  have hb := bytesAt_inbound_written (frameState f) [] 0 f rfl
  have hn : (BitVec.ofNat 16 f.length).toNat = f.length := by
    rw [BitVec.toNat_ofNat]
    exact Nat.mod_eq_of_lt (by omega)
  unfold handedOver
  rw [show (frameState f).inLen.toNat - (frameState f).cfg.prefixLen = f.length from hn]
  exact hb

theorem frameState_legal (f : List Byte) (h : f.length ≤ 1518) : LegalLengths (frameState f) := by
  refine ⟨show 74 ≤ 1518 by decide, ?_, Nat.zero_le 1518⟩
  show (BitVec.ofNat 16 f.length).toNat ≤ 1518
  rw [BitVec.toNat_ofNat]
  exact le_trans (Nat.mod_le _ _) h

theorem frameState_inv (f : List Byte) (h : f.length ≤ 1518) : Inv (frameState f) where
  params := show legalParams testParams = true by decide
  handshake := rfl
  errDone := fun h => Bool.noConfusion h
  errClass := fun h => Bool.noConfusion h
  errResults := fun h => Bool.noConfusion h
  inLength := (frameState_legal f h).inLen
  outLength := Nat.zero_le 1518
  inWf := memStoreBytes_wf _ _ _ rfl
  outWf := rfl
  inBound := memStoreBytes_within _ _ _ _ (by show 0 + f.length ≤ 1518; omega) rfl
  outBound := rfl
  outReply := fun _ ha => absurd ha (Nat.not_lt_zero _)
  cacheCanonical := show cacheWf (initialCache testParams) = true by decide
  cacheBounded := fun _ hk => absurd hk (by simp [frameState, State.resetWith, testParams])

/-- An idle host: `PROCESS` has ended, and the host reads `CMD` next. -/
def idleState (m : HostMove) : State := { State.resetWith testParams with hostProg := [m] }

theorem idleState_inv (m : HostMove) : Inv (idleState m) := by
  have h := frameState_inv [] (by decide)
  exact ⟨h.params, rfl, fun h => Bool.noConfusion h, fun h => Bool.noConfusion h, fun h => Bool.noConfusion h,
    h.inLength, h.outLength, h.inWf, rfl, h.inBound, rfl, h.outReply, h.cacheCanonical, h.cacheBounded⟩

/-- A latched `PROCESS` whose engine waits for two more host moves. -/
def waitingState (ms : List HostMove) : State := { frameState etherFive with delay := 2, hostProg := ms }

/-! ### Encoding and the step -/

theorem test_witness_keyFrame : wellFormed (.tcpOther 0x102) = true ∧ (encode (.tcpOther 0x102)).1 ≠ .cmd := by decide
theorem test_witness_decode_ok : decode .icmptype 0xFFFFFF08 = .ok .icmpEchoRequest ∧ decode .etype 0 = .ok (.ethOther 0) :=
  ⟨rfl, rfl⟩
theorem test_witness_decode_error : decode .cmd 0 = .error (.illegalOpcode 0) := rfl
theorem test_witness_illegal : (State.resetWith testParams).busy = false ∧
    decodeCommand (State.resetWith testParams).opc = .error (.illegalOpcode 0) := ⟨rfl, rfl⟩
theorem test_witness_step_engine : (frameState etherFive).busy = true ∧ hostNext (frameState etherFive) = none ∧
    decodeCommand (frameState etherFive).opc = .ok .process := ⟨rfl, rfl, rfl⟩
theorem test_witness_step_delay_over : (idleState (.regRead 4 0)).delay = 0 ∧ hostNext (idleState (.regRead 4 0)) ≠ none := by
  decide
theorem test_witness_step_class : Instr.ethOther 0x0005 ∈ frameClasses (handedOver (frameState etherFive)) := by
  rw [frameState_handedOver _ (by decide)]
  decide +kernel
theorem test_witness_step_host : (idleState (.regRead 4 0)).busy = false ∧
    hostNext (idleState (.regRead 4 0)) = some (.regRead 4 0) := ⟨rfl, rfl⟩
theorem test_witness_step_waiting : (waitingState [.reset]).delay ≠ 0 ∧ hostNext (waitingState [.reset]) ≠ none := by
  decide
theorem test_witness_step_nothing : (State.resetWith testParams).busy = false ∧
    hostNext (State.resetWith testParams) = none := ⟨rfl, rfl⟩
theorem test_witness_classes_icmp : frameClasses (icmpFrame 8) = [.ethIpv4, .ipIcmp, .icmpEchoRequest] := by decide +kernel
theorem test_witness_classes_tcp : frameClasses (tcpFrame 0x50 0x02) = [.ethIpv4, .ipTcp, .tcpPureSyn] := by decide +kernel
theorem test_witness_classes_arp : frameClasses (arpFrame 5 2) = [.ethArp, .arpBadOpcode 5] := by decide +kernel
theorem test_witness_tableWord : decodeTableWord 16 0x0800 = some .ethIpv4 ∧ decodeTableWord 8 0x11 = some .cacheUpdate := by
  decide

/-! ### The invariant -/

theorem test_witness_inv : Inv (frameState etherFive) := frameState_inv _ (by decide)
theorem test_witness_inv_step : Inv (frameState etherFive) ∧ ∃ t, step (frameState etherFive) = .next t := by
  obtain ⟨r, e, g⟩ := exec_good (frameState etherFive) .process (frameState_legal _ (by decide)) rfl
  obtain ⟨t, ht⟩ := endProcess_next _ r g
  exact ⟨frameState_inv _ (by decide), t, e.trans ht⟩
theorem test_witness_moveless : Inv (idleState (.regRead 1 0)) ∧ engineTurn (idleState (.regRead 1 0)) = false ∧
    step (idleState (.regRead 1 0)) = .refused .hostAccess := ⟨idleState_inv _, rfl, rfl⟩
theorem test_witness_latched : Inv (frameState etherFive) ∧ (frameState etherFive).busy = true :=
  ⟨frameState_inv _ (by decide), rfl⟩

/-! ### The checksum commands -/

theorem test_witness_sum_words : [0xAB, 0xCD, 0x01].length % 2 = 1 := rfl
theorem test_witness_fold : 4294967295 < 2 ^ 32 := by decide
theorem test_witness_verify : slice [0x45, 0x00, 0xBA, 0xFF] 2 4 = be16 (csum16p (patch [0x45, 0x00, 0xBA, 0xFF] 2 (zeros 2))) ∧
    2 % 2 = 0 ∧ 2 + 2 ≤ [0x45#8, 0x00, 0xBA, 0xFF].length := by decide +kernel
theorem test_witness_perm : [1#16, 2#16].Perm [2#16, 1#16] := List.Perm.swap _ _ _
theorem test_witness_lengths : (zeros 12).length = 12 ∧ [1#8, 2, 3, 4].length = 4 := by decide

/-- In range with `OFF + LEN = lim`, in `IN`. -/
theorem test_witness_csum_at_limit : LegalLengths (argState ckBytes 6 2 0 0) ∧
    (argState ckBytes 6 2 0 0).arg0.getLsbD 16 = false ∧ (argState ckBytes 6 2 0 0).inLen.toNat = 6 + 2 :=
  ⟨⟨by decide, by decide, by decide⟩, by decide, by decide⟩
/-- V-CK-13: at the limit. -/
theorem test_csum_at_limit : observe (exec .csum16 (argState ckBytes 6 2 0 0)) = [0, 2, 0x0908, 0xF6F7, 0, 2] := by
  decide +kernel
/-- One beyond the limit, and odd in range. -/
theorem test_witness_csum_beyond : LegalLengths (argState ckBytes 6 3 0 0) ∧ (argState ckBytes 6 3 0 0).inLen.toNat < 6 + 3 :=
  ⟨⟨by decide, by decide, by decide⟩, by decide⟩
theorem test_witness_csum_odd : LegalLengths (argState ckBytes 0 3 0 0) ∧ 0 + 3 ≤ (argState ckBytes 0 3 0 0).inLen.toNat :=
  ⟨⟨by decide, by decide, by decide⟩, by decide⟩
/-- In `OUT`: nothing is valid there after reset. -/
theorem test_witness_csum_out : LegalLengths (argState [] 0x00010000 0 0 0) ∧
    (argState [] 0x00010000 0 0 0).arg0.getLsbD 16 = true ∧ (argState [] 0x00010000 0 0 0).outLen.toNat = 0 :=
  ⟨⟨by decide, by decide, by decide⟩, by decide, by decide⟩

/-! ### The cache -/

/-- The state of V-CMD-2: `ARG2` is the local address, which is bound. -/
def boundState (a0 a1 : Word) : State := argState [] a0 a1 0xC0A80002 0

/-- The state of V-CMD-5: `ARG2` is the peer's address, which is not bound. -/
def unboundState : State := argState [] 0x00000211 0x22334455 0xC0A80001 0

theorem test_witness_cache : cacheWf (boundState 0 0).cache = true ∧ (boundState 0 0).cache.length = 2 := by decide
theorem test_witness_lookup_found : cacheLookup (boundState 0 0).cache (boundState 0 0).arg2 = some 0x525400123456 := by decide
theorem test_witness_lookup_absent : cacheLookup unboundState.cache unboundState.arg2 = none := by decide
theorem test_witness_update_full : cacheWf (fullState [] 0x211 0x22334455 0xC0A80001).cache = true ∧
    cacheLookup (fullState [] 0x211 0x22334455 0xC0A80001).cache 0xC0A80001 = none ∧
    (fullState [] 0x211 0x22334455 0xC0A80001).cfg.cacheCapacity =
      some (fullState [] 0x211 0x22334455 0xC0A80001).cache.length := by decide
theorem test_witness_update_inserted : cacheWf unboundState.cache = true ∧ cacheLookup unboundState.cache unboundState.arg2 = none ∧
    unboundState.cfg.cacheCapacity ≠ some unboundState.cache.length := by decide
theorem test_witness_update_changed : cacheWf (boundState 0xAABB 0xCCDDEEFF).cache = true ∧
    cacheLookup (boundState 0xAABB 0xCCDDEEFF).cache 0xC0A80002 = some 0x525400123456 ∧
    (0x525400123456 : Mac) ≠ (boundState 0xAABB 0xCCDDEEFF).arg0.extractLsb' 0 16 ++ (boundState 0xAABB 0xCCDDEEFF).arg1 := by
  decide
theorem test_witness_update_unchanged : cacheLookup (boundState 0x5254 0x00123456).cache 0xC0A80002 =
    some ((boundState 0x5254 0x00123456).arg0.extractLsb' 0 16 ++ (boundState 0x5254 0x00123456).arg1) := by decide
theorem test_witness_update_next : ∃ t, exec .cacheUpdate (boundState 0xAABB 0xCCDDEEFF) = .next t := ⟨_, rfl⟩
theorem test_witness_initial_extra : cacheLookup (initialCache { testParams with
    extraStatic := [(0x7F000001, 5), (1, 2), (1, 3)] }) 1 = some 3 := by decide
theorem test_witness_initial_one : (initialCache { testParams with localIp := 0x7F000001 }).length = 1 := by decide
theorem test_witness_noBinding : Inv (idleState .reset) ∧ hostNext (idleState .reset) = some .reset ∧
    ∃ t, step (idleState .reset) = .next t := ⟨idleState_inv _, rfl, _, rfl⟩
theorem test_witness_noCacheWrite : (∃ t, exec .csum16 (argState [] 0 0 0 0) = .next t) ∧
    rd16 (handedOver (frameState etherFive)) 12 ≠ 0x0806 := by
  refine ⟨⟨_, rfl⟩, ?_⟩
  rw [frameState_handedOver _ (by decide)]
  decide +kernel
theorem test_witness_ipv4_cache : rd16 (handedOver (frameState (icmpFrame 8))) 12 = 0x0800 := by
  rw [frameState_handedOver _ (by decide)]
  decide +kernel

/-! ### Frame classes -/

/-- A frame in `IN` is handed over by a state with legal lengths. -/
theorem frameState_hands (f : List Byte) (h : f.length ≤ 1518) :
    LegalLengths (frameState f) ∧ f = handedOver (frameState f) :=
  ⟨frameState_legal f h, (frameState_handedOver f h).symm⟩

theorem test_witness_OtherEtherTypesAreDropped :
    (LegalLengths (frameState etherFive) ∧ etherFive = handedOver (frameState etherFive)) ∧
    14 ≤ etherFive.length ∧ rd16 etherFive 12 ≠ 0x0806 ∧ rd16 etherFive 12 ≠ 0x0800 :=
  ⟨frameState_hands _ (by decide), by decide +kernel⟩
theorem test_witness_ArpRequests_local :
    (LegalLengths (frameState (arpFrame 1 2)) ∧ arpFrame 1 2 = handedOver (frameState (arpFrame 1 2))) ∧
    isArpFrame (arpFrame 1 2) ∧ rd16 (arpFrame 1 2) 20 = 1 ∧ rd32 (arpFrame 1 2) 38 = testParams.localIp :=
  ⟨frameState_hands _ (by decide), by unfold isArpFrame; decide +kernel⟩
theorem test_witness_ArpRequests_other :
    (LegalLengths (frameState (arpFrame 1 9)) ∧ arpFrame 1 9 = handedOver (frameState (arpFrame 1 9))) ∧
    isArpFrame (arpFrame 1 9) ∧ rd16 (arpFrame 1 9) 20 = 1 ∧ rd32 (arpFrame 1 9) 38 ≠ testParams.localIp :=
  ⟨frameState_hands _ (by decide), by unfold isArpFrame; decide +kernel⟩
theorem test_witness_ArpRepliesAndRarp : ∀ op ∈ [2#8, 3, 4],
    (LegalLengths (frameState (arpFrame op 2)) ∧ arpFrame op 2 = handedOver (frameState (arpFrame op 2))) ∧
    isArpFrame (arpFrame op 2) ∧ rd16 (arpFrame op 2) 20 = op.setWidth 16 := fun op hop =>
  ⟨frameState_hands _ (show 42 ≤ 1518 by decide), by
    revert op
    unfold isArpFrame
    decide +kernel⟩
theorem test_witness_BadArpOpcodes : ∀ op ∈ [0#8, 5],
    (LegalLengths (frameState (arpFrame op 2)) ∧ arpFrame op 2 = handedOver (frameState (arpFrame op 2))) ∧
    isArpFrame (arpFrame op 2) ∧ rd16 (arpFrame op 2) 20 ≠ 1 ∧ rd16 (arpFrame op 2) 20 ≠ 2 ∧
    rd16 (arpFrame op 2) 20 ≠ 3 ∧ rd16 (arpFrame op 2) 20 ≠ 4 := fun op hop =>
  ⟨frameState_hands _ (show 42 ≤ 1518 by decide), by
    revert op
    unfold isArpFrame
    decide +kernel⟩
theorem test_witness_Ipv4ProtocolDispatch : ∀ proto ∈ [1#8, 6, 17, 2, 0, 41],
    (LegalLengths (frameState (ipFrame 0x1C proto 0xB9 0x7C (zeros 20))) ∧
      ipFrame 0x1C proto 0xB9 0x7C (zeros 20) =
        handedOver (frameState (ipFrame 0x1C proto 0xB9 0x7C (zeros 20)))) ∧
    isIpv4Frame (ipFrame 0x1C proto 0xB9 0x7C (zeros 20)) ∧
    rd8 (ipFrame 0x1C proto 0xB9 0x7C (zeros 20)) 23 = proto := fun proto hp =>
  ⟨frameState_hands _ (show 54 ≤ 1518 by decide), by
    revert proto
    unfold isIpv4Frame
    decide +kernel⟩
theorem test_witness_icmp_types : ∀ type ∈ [8#8, 0, 3, 4, 5, 9, 10, 11, 12, 1, 13, 255],
    (LegalLengths (frameState (icmpFrame type)) ∧ icmpFrame type = handedOver (frameState (icmpFrame type))) ∧
    isIpv4Frame (icmpFrame type) ∧ rd8 (icmpFrame type) 23 = 1 ∧ 8 ≤ (upperOf (icmpFrame type)).length ∧
    rd8 (upperOf (icmpFrame type)) 0 = type := fun type ht =>
  ⟨frameState_hands _ (show 44 ≤ 1518 by decide), by
    revert type
    unfold isIpv4Frame
    decide +kernel⟩
/-- The shortest echo request, 8 bytes (V-ICMP-5). -/
theorem test_witness_icmp_shortest : (upperOf (ipFrame 0x1C 0x01 0xB9 0x8C ([0x08#8] ++ zeros 7))).length = 8 ∧
    rd8 (upperOf (ipFrame 0x1C 0x01 0xB9 0x8C ([0x08#8] ++ zeros 7))) 0 = 8 := by decide +kernel
theorem test_witness_tcp_flags : ∀ b ∈ [0x02#8, 0x12, 0x00],
    (LegalLengths (frameState (tcpFrame 0x50 b)) ∧ tcpFrame 0x50 b = handedOver (frameState (tcpFrame 0x50 b))) ∧
    isIpv4Frame (tcpFrame 0x50 b) ∧ rd8 (tcpFrame 0x50 b) 23 = 6 ∧ isTcpSegment (upperOf (tcpFrame 0x50 b)) ∧
    flagsOf (upperOf (tcpFrame 0x50 b)) = b.setWidth 9 := fun b hb =>
  ⟨frameState_hands _ (show 54 ≤ 1518 by decide), by
    revert b
    unfold isIpv4Frame isTcpSegment
    decide +kernel⟩

/-! ### `PROCESS` as a whole -/

theorem test_witness_malformed_ipv4 : isIpv4Frame (tcpFrame 0x40 0x02) ∧
    firstDisposition testParams.localIp (tcpFrame 0x40 0x02) = .tcpBadDataOffset ∧ dispIsError .tcpBadDataOffset = true :=
  ⟨⟨by decide, rfl, rfl, by decide +kernel, by decide +kernel⟩, by decide +kernel, rfl⟩
theorem test_witness_malformed_other : ¬ isIpv4Frame (arpFrame 5 2) ∧
    firstDisposition testParams.localIp (arpFrame 5 2) = .arpBadOpcode ∧ dispIsError .arpBadOpcode = true :=
  ⟨fun h => absurd h.2.1 (by decide +kernel), by decide +kernel, rfl⟩
theorem test_witness_first_order : firstDisposition testParams.localIp (ethFrame 0x08 0x06 []) = .arpTooShort ∧
    firstDisposition testParams.localIp (ethFrame 0x08 0x00 []) = .ipv4TooShort ∧
    firstDisposition testParams.localIp (tcpFrame 0x60 0x02) = .tcpTooShort := by decide +kernel
theorem test_witness_replies : firstDisposition testParams.localIp (arpFrame 1 2) = .arpReply ∧
    firstDisposition testParams.localIp (icmpFrame 8) = .icmpEchoReply ∧
    firstDisposition testParams.localIp (tcpFrame 0x50 0x02) = .tcpSynAck := by decide +kernel
theorem test_witness_process_next : ∃ t, exec .process (frameState (icmpFrame 8)) = .next t := by
  obtain ⟨r, e, g⟩ := exec_good (frameState (icmpFrame 8)) .process (frameState_legal _ (by decide)) rfl
  obtain ⟨t, ht⟩ := endProcess_next _ r g
  exact ⟨t, e.trans ht⟩
/-- Two states that differ in an argument and in what `OUT` holds, and hand over the same frame. -/
theorem test_witness_same_frame :
    frameState (icmpFrame 8) ≠ { frameState (icmpFrame 8) with arg0 := 1, outMem := [(0, 1)] } ∧
    handedOver { frameState (icmpFrame 8) with arg0 := 1, outMem := [(0, 1)] } = handedOver (frameState (icmpFrame 8)) :=
  ⟨fun h => absurd (congrArg State.arg0 h) (by decide), rfl⟩

/-! ### Headers -/

theorem test_witness_ethernet : 14 ≤ (ethFrame 0x08 0x06 []).length := by decide
theorem test_witness_ipv4_decode : ∃ h, ipv4Decode ((icmpFrame 8).drop 14) = .ok h ∧ csum16 h.raw20 = some 0 ∧
    h.headerChecksum = 0xB98A := ⟨_, rfl, by decide +kernel, by decide +kernel⟩
/-- A header that verifies although its checksum field is 0xFFFF: the other words sum to 0xFFFF. -/
theorem test_witness_ipv4_ffff :
    csum16 ([0x45, 0x00, 0xBA, 0xFF] ++ zeros 6 ++ [0xFF, 0xFF] ++ zeros 8) = some 0 ∧
    (ipv4Header ([0x45, 0x00, 0xBA, 0xFF] ++ zeros 6 ++ [0xFF, 0xFF] ++ zeros 8)).headerChecksum = 0xFFFF ∧
    (∃ h, ipv4Decode ([0x45, 0x00, 0xBA, 0xFF] ++ zeros 6 ++ [0xFF, 0xFF] ++ zeros 8) = .ok h) :=
  ⟨by decide +kernel, by decide +kernel, _, rfl⟩
theorem test_witness_doff : (tcpDecode (zeros 12 ++ [0x50, 0x02] ++ zeros 6)).toOption.isSome = true ∧
    (tcpDecode (zeros 12 ++ [0xF0, 0x02] ++ zeros 46)).toOption.isSome = true ∧
    doffOf (zeros 12 ++ [0x40, 0x02] ++ zeros 6) = 4 ∧ (zeros 12 ++ [0x40, 0x02] ++ zeros 6).length = 20 := by
  decide +kernel

/-! ### The host -/

theorem test_witness_idle : (idleState (.regWrite 4 0x00 0x20)).busy = false ∧
    (idleState (.regWrite 4 0x00 0x20)).cfg.maxFrameLen ≤ 65535 := by decide
theorem test_witness_busy : (frameState etherFive).busy = true ∧
    (∃ t, hostMove (.regWrite 4 0x08 7) (frameState etherFive) = .next t) ∧
    ∃ t, hostMove (.inWrite 1517 7) (frameState etherFive) = .next t := ⟨rfl, ⟨_, rfl⟩, _, rfl⟩
/-- The clamp of `IN_LEN` at the limit and one above (10_state.md R34). -/
theorem test_inLen_clamp : (regWrite (idleState .reset) 0x24 1518).inLen = 1518 ∧
    (regWrite (idleState .reset) 0x24 1519).inLen = 1518 ∧ (regWrite (idleState .reset) 0x24 0xFFFF0005).inLen = 5 := by
  decide +kernel
theorem test_witness_reserved : 0x3C % 4 = 0 ∧ 0x3C < 0x100 ∧ 0xFC % 4 = 0 ∧ 0xFC < 0x100 ∧
    0x04 ∉ [0x00, 0x08, 0x0C, 0x10, 0x14, 0x24] := by decide
theorem test_witness_count : (frameState etherFive).cache.length < 2 ^ 32 := by decide
theorem test_witness_identity_step : ∃ t, step (idleState (.regRead 4 0x2C)) = .next t := ⟨_, rfl⟩
theorem test_witness_last_byte : 1517 < (idleState .reset).cfg.maxFrameLen ∧ (idleState .reset).busy = false := by decide
/-- A host program of R121 stands for its moves: `lookup` waits at its own last move. -/
theorem test_assemble : assemble [.lookup 0x7F000001] =
    some [.regWrite 4 0x10 0x7F000001, .regWrite 4 0x00 0x10, .branchZero 0x04 1 2] := by decide +kernel

end Sys2Proof.Tests
end

section
/-! SUPPORT. The rules of the step and of the register space that the proofs about the state share: whose turn it is and
what each turn does, what each register reads, what a write stores, and what no step changes. -/

namespace Sys2Proof.Machine

/-! ## Whose turn it is -/

theorem engineTurn_iff (s : State) : engineTurn s = true ↔ s.busy = true ∧ (hostNext s = none ∨ s.delay = 0) := by
  simp [engineTurn]

/-- What a step does: the engine's step in its turn, else the host's next move, else nothing (10_state.md R46). -/
theorem step_cases {s t : State} (ht : step s = .next t) :
    (engineTurn s = true ∧ engineStep s = .next t) ∨
    (engineTurn s = false ∧ ∃ m, hostNext s = some m ∧ hostMove m s = .next t) ∨
    (engineTurn s = false ∧ hostNext s = none ∧ t = s) := by
  unfold step at ht
  split at ht
  · next hturn => exact .inl ⟨hturn, ht⟩
  · next hturn =>
    have hturn : engineTurn s = false := by simpa using hturn
    split at ht
    · next m hm => exact .inr (.inl ⟨hturn, m, hm, ht⟩)
    · next hm =>
      injection ht with ht
      exact .inr (.inr ⟨hturn, hm, ht.symm⟩)

/-! ## The engine's step -/

/-- The engine decodes the latched opcode (10_state.md R29, 30_encoding.md R94). -/
theorem decode_fetchWord (s : State) : decode .cmd (fetchWord s) = decodeCommand s.opc := by
  rw [decode, fetchWord, BitVec.setWidth_setWidth_of_le _ (by decide), BitVec.setWidth_eq]

theorem engineStep_legal {s : State} {i : Instr} (h : decodeCommand s.opc = .ok i) : engineStep s = exec i s := by
  rw [engineStep, decode_fetchWord, h]

/-- An opcode in no row of the opcode map (30_encoding.md R93). -/
theorem engineStep_illegal {s : State} {e : DecodeError} (h : decodeCommand s.opc = .error e) :
    engineStep s = illegalCommand s := by
  rw [engineStep, decode_fetchWord, h]

/-- What the engine's step runs: the instruction the opcode decodes to, or the end of an illegal opcode (30_encoding.md
R93). -/
theorem engineStep_cases {s t : State} (ht : engineStep s = .next t) :
    (∃ i, exec i s = .next t) ∨ t = endCommand s (plainReport .cmdIllegal) 0 0 true := by
  unfold engineStep at ht
  split at ht
  · next i _ => exact .inl ⟨i, ht⟩
  · injection ht with ht
    exact .inr ht.symm

/-! ## The host's bookkeeping -/

theorem blockAlike_hostAdvance (s : State) : blockAlike s (hostAdvance s) := rfl

theorem blockAlike_hostSees (s : State) (v : Word) : blockAlike s (hostSees (hostAdvance s) v) := rfl

theorem blockAlike_hostBranch (s : State) (v : Word) (bit target : Nat) :
    blockAlike s (hostBranch (hostSees (hostAdvance s) v) v bit target) := rfl

/-! ## What each register reads -/

@[simp] theorem regRead_cmd (s : State) : regRead s 0x00 = s.opc.setWidth 32 := rfl
@[simp] theorem regRead_status (s : State) : regRead s 0x04 = statusWord s := rfl
@[simp] theorem regRead_arg0 (s : State) : regRead s 0x08 = s.arg0 := rfl
@[simp] theorem regRead_arg1 (s : State) : regRead s 0x0C = s.arg1 := rfl
@[simp] theorem regRead_arg2 (s : State) : regRead s 0x10 = s.arg2 := rfl
@[simp] theorem regRead_arg3 (s : State) : regRead s 0x14 = s.arg3 := rfl
@[simp] theorem regRead_res0 (s : State) : regRead s 0x18 = s.res0 := rfl
@[simp] theorem regRead_res1 (s : State) : regRead s 0x1C = s.res1 := rfl
@[simp] theorem regRead_report (s : State) : regRead s 0x20 = reportWord s.report := rfl
@[simp] theorem regRead_inLen (s : State) : regRead s 0x24 = s.inLen.setWidth 32 := rfl
@[simp] theorem regRead_outLen (s : State) : regRead s 0x28 = s.outLen.setWidth 32 := rfl
@[simp] theorem regRead_localIp (s : State) : regRead s 0x2C = s.cfg.localIp := rfl
@[simp] theorem regRead_localMacHi (s : State) :
    regRead s 0x30 = (s.cfg.localMac.extractLsb' 32 16).setWidth 32 := rfl
@[simp] theorem regRead_localMacLo (s : State) : regRead s 0x34 = s.cfg.localMac.extractLsb' 0 32 := rfl
@[simp] theorem regRead_cacheCount (s : State) : regRead s 0x38 = cacheCountWord s := rfl

/-- The offsets above the last register are reserved (10_state.md R28). -/
theorem regRead_reserved (s : State) {offset : Nat} (h : 0x3C ≤ offset) : regRead s offset = 0 := by
  unfold regRead
  repeat rw [if_neg (by omega)]

/-! ## What a write stores -/

theorem regWrite_busy {s : State} (h : s.busy = true) (offset : Nat) (v : Word) : regWrite s offset v = s := by
  simp [regWrite, h]

section Idle

variable {s : State} (h : s.busy = false) (v : Word)
include h

theorem regWrite_cmd : regWrite s 0x00 v = latchCommand s (v.extractLsb' 0 8) := by simp [regWrite, h]
theorem regWrite_arg0 : regWrite s 0x08 v = { s with arg0 := v } := by simp [regWrite, h]
theorem regWrite_arg1 : regWrite s 0x0C v = { s with arg1 := v } := by simp [regWrite, h]
theorem regWrite_arg2 : regWrite s 0x10 v = { s with arg2 := v } := by simp [regWrite, h]
theorem regWrite_arg3 : regWrite s 0x14 v = { s with arg3 := v } := by simp [regWrite, h]
theorem regWrite_inLen : regWrite s 0x24 v = { s with inLen := clampInLen s v } := by simp [regWrite, h]

end Idle

/-- A write to any other offset is lost, busy or not (10_state.md R28, R30, R32 to R38). -/
theorem regWrite_readOnly (s : State) {offset : Nat} (v : Word)
    (h : offset ∉ [0x00, 0x08, 0x0C, 0x10, 0x14, 0x24]) : regWrite s offset v = s := by
  rcases regWrite_cases s offset v with
    e | ⟨-, ⟨rfl, -⟩ | ⟨rfl, -⟩ | ⟨rfl, -⟩ | ⟨rfl, -⟩ | ⟨rfl, -⟩ | ⟨rfl, -⟩⟩
  · exact e
  all_goals exact absurd h (by decide)

/-- What `IN_LEN` stores, when 16 bits hold `MAX_FRAME_LEN` (10_state.md R34). -/
theorem clampInLen_toNat (s : State) (v : Word) (h : s.cfg.maxFrameLen ≤ 65535) :
    (clampInLen s v).toNat = min (v.toNat % 65536) s.cfg.maxFrameLen := by
  simp only [clampInLen, BitVec.extractLsb'_toNat, BitVec.toNat_ofNat, Nat.shiftRight_zero]
  omega

/-- The legal range of `MAX_FRAME_LEN` (20_memory.md R61). -/
theorem legalParams_maxFrameLen {p : Params} (h : legalParams p = true) :
    74 ≤ p.maxFrameLen ∧ p.maxFrameLen ≤ 65535 := by
  simp only [legalParams, Bool.and_eq_true, decide_eq_true_eq] at h
  obtain ⟨hlen, -⟩ := h
  exact hlen

/-! ## The fields of `STATUS` and `REPORT` -/

/-- The number of a concatenation: the high part counts multiples of 2 to the width of the low one. -/
theorem toNat_append_add {m n : Nat} (x : BitVec m) (y : BitVec n) : (x ++ y).toNat = x.toNat * 2 ^ n + y.toNat := by
  rw [BitVec.toNat_append, ← Nat.shiftLeft_add_eq_or_of_lt y.isLt, Nat.shiftLeft_eq]

theorem statusWord_toNat (s : State) :
    (statusWord s).toNat = s.busy.toNat + 2 * s.done.toNat + 4 * s.err.toNat := by
  simp only [statusWord, toNat_append_add, BitVec.toNat_ofBool, BitVec.toNat_ofNat]
  omega

theorem reportWord_toNat (r : Report) :
    (reportWord r).toNat = (dispCode r.disp).toNat + 256 * r.csumMismatch.toNat
      + 512 * (cacheEventCode r.cacheEvent).toNat + 2048 * r.cacheFull.toNat := by
  simp only [reportWord, toNat_append_add, BitVec.toNat_ofBool, BitVec.toNat_ofNat]
  omega

theorem cacheCountWord_toNat {s : State} (h : s.cache.length < 2 ^ 32) :
    (cacheCountWord s).toNat = s.cache.length := by
  have hfits : s.cache.length < 4294967296 := h
  rw [cacheCountWord, if_pos hfits, BitVec.toNat_ofNat, Nat.mod_eq_of_lt hfits]

/-! ## The parameters and the cache -/

theorem regWrite_keeps (s : State) (offset : Nat) (v : Word) :
    (regWrite s offset v).cfg = s.cfg ∧ (regWrite s offset v).cache = s.cache := by
  rcases regWrite_cases s offset v with
    e | ⟨-, ⟨-, e⟩ | ⟨-, e⟩ | ⟨-, e⟩ | ⟨-, e⟩ | ⟨-, e⟩ | ⟨-, e⟩⟩ <;> rw [e] <;> exact ⟨rfl, rfl⟩

theorem inWrite_keeps (s : State) (a : Nat) (b : Byte) :
    (inWrite s a b).cfg = s.cfg ∧ (inWrite s a b).cache = s.cache := by
  unfold inWrite
  split <;> exact ⟨rfl, rfl⟩

/-- The host writes no parameter, and the cache by a reset alone (10_state.md R23, R42). -/
theorem hostMove_keeps {s t : State} {m : HostMove} (ht : hostMove m s = .next t) :
    t.cfg = s.cfg ∧ (m = .reset ∨ t.cache = s.cache) := by
  rcases hostMove_cases s t m ht with
    ⟨o, v, -, rfl⟩ | ⟨a, b, -, -, rfl⟩ | ⟨v, rfl⟩ | rfl | ⟨v, bit, target, rfl⟩ | ⟨rfl, rfl⟩
  · exact (regWrite_keeps (hostAdvance s) o v).imp_right .inr
  · exact (inWrite_keeps (hostAdvance s) a b).imp_right .inr
  · exact ⟨rfl, .inr rfl⟩
  · exact ⟨rfl, .inr rfl⟩
  · exact ⟨rfl, .inr rfl⟩
  · exact ⟨rfl, .inl rfl⟩

theorem engineStep_cfg {s t : State} (ht : engineStep s = .next t) : t.cfg = s.cfg := by
  rcases engineStep_cases ht with ⟨i, hi⟩ | rfl
  · obtain ⟨_, _, _, _, hends⟩ := exec_kept s t i hi
    exact hends.cfg
  · rfl

/-- The parameters are fixed constants (10_state.md R23). -/
theorem step_cfg {s t : State} (ht : step s = .next t) : t.cfg = s.cfg := by
  rcases step_cases ht with ⟨-, he⟩ | ⟨-, m, -, hm⟩ | ⟨-, -, rfl⟩
  · exact engineStep_cfg he
  · exact (hostMove_keeps hm).1
  · rfl

/-- No instruction does more to the cache than one update (42_arp_cache.md R170). -/
theorem exec_cache {s t : State} (hl : LegalLengths s) (i : Instr) (ht : exec i s = .next t) :
    t.cache = s.cache ∨ ∃ ip mac, t.cache = (cacheUpdate s.cfg.cacheCapacity s.cache ip mac).1 := by
  cases hi : processesFrame i with
  | true =>
    obtain ⟨r, e, hr⟩ := exec_good s i hl hi
    obtain ⟨t', e', -, hcache, -⟩ := endProcess_good s r hr
    rw [e, e'] at ht
    cases ht
    exact hcache ▸ hr.cache
  | false =>
    obtain ⟨-, -, -, hcache⟩ := exec_other s t i hi ht
    exact hcache

/-- What a step does to the cache: a reset, nothing, or one update (10_state.md R42, R43). -/
theorem step_cache {s t : State} (hl : LegalLengths s) (ht : step s = .next t) :
    (engineTurn s = false ∧ hostNext s = some .reset) ∨ t.cache = s.cache ∨
      ∃ ip mac, t.cache = (cacheUpdate s.cfg.cacheCapacity s.cache ip mac).1 := by
  rcases step_cases ht with ⟨-, he⟩ | ⟨hturn, m, hnext, hm⟩ | ⟨-, -, rfl⟩
  · rcases engineStep_cases he with ⟨i, hi⟩ | rfl
    · exact .inr (exec_cache hl i hi)
    · exact .inr (.inl rfl)
  · rcases (hostMove_keeps hm).2 with rfl | hcache
    · exact .inl ⟨hturn, hnext⟩
    · exact .inr (.inl hcache)
  · exact .inr (.inl rfl)

end Sys2Proof.Machine
end

section
/-! PROOFS. Every step keeps the invariant (O9, O10): one preservation lemma per update of the state, then the engine's
step and the host's moves as compositions of those updates. -/

namespace Sys2Proof.Machine

/-! ## The invariant under each update of the state -/

/-- The invariant says nothing of what the host itself keeps. -/
theorem inv_of_blockAlike {s t : State} (ht : blockAlike s t) (h : Inv s) : Inv t := by
  rw [← ht] at h
  obtain ⟨hp, hh, hed, hec, her, hil, hol, hiw, how, hib, hob, hor, hcc, hcb⟩ := h
  exact ⟨hp, hh, hed, hec, her, hil, hol, hiw, how, hib, hob, hor, hcc, hcb⟩

theorem inv_withArgs {s : State} (h : Inv s) (a b c d : Word) :
    Inv { s with arg0 := a, arg1 := b, arg2 := c, arg3 := d } := by
  obtain ⟨hp, hh, hed, hec, her, hil, hol, hiw, how, hib, hob, hor, hcc, hcb⟩ := h
  exact ⟨hp, hh, hed, hec, her, hil, hol, hiw, how, hib, hob, hor, hcc, hcb⟩

theorem inv_withInLen {s : State} (h : Inv s) (n : BitVec 16) (hn : n.toNat ≤ s.cfg.maxFrameLen) :
    Inv { s with inLen := n } := by
  obtain ⟨hp, hh, hed, hec, her, -, hol, hiw, how, hib, hob, hor, hcc, hcb⟩ := h
  exact ⟨hp, hh, hed, hec, her, hn, hol, hiw, how, hib, hob, hor, hcc, hcb⟩

theorem inv_withInMem {s : State} (h : Inv s) (m : Memory) (hw : m.wf = true)
    (hb : withinSpace s.cfg.maxFrameLen m = true) : Inv { s with inMem := m } := by
  obtain ⟨hp, hh, hed, hec, her, hil, hol, -, how, -, hob, hor, hcc, hcb⟩ := h
  exact ⟨hp, hh, hed, hec, her, hil, hol, hw, how, hb, hob, hor, hcc, hcb⟩

theorem inv_withCache {s : State} (h : Inv s) (c : Cache) (hw : cacheWf c = true)
    (hb : withinCapacity s.cfg.cacheCapacity c.length) : Inv { s with cache := c } := by
  obtain ⟨hp, hh, hed, hec, her, hil, hol, hiw, how, hib, hob, hor, -, -⟩ := h
  exact ⟨hp, hh, hed, hec, her, hil, hol, hiw, how, hib, hob, hor, hw, hb⟩

/-- `OUT` drawn anew with the reply `r` in it, which is nothing when the frame is dropped (20_memory.md R83). -/
theorem inv_withReply {s : State} (h : Inv s) (draw : Nat) (r : List Byte) (hr : r.length ≤ s.cfg.maxFrameLen)
    (h16 : r.length < 65536) :
    Inv { s with outMem := memStoreBytes [] 0 r, outDraw := draw, outLen := BitVec.ofNat 16 r.length } := by
  obtain ⟨hp, hh, hed, hec, her, hil, -, hiw, -, hib, -, -, hcc, hcb⟩ := h
  have hlen : (BitVec.ofNat 16 r.length).toNat = r.length := by simpa using Nat.mod_eq_of_lt h16
  refine ⟨hp, hh, hed, hec, her, hil, hlen.trans_le hr, hiw, memStoreBytes_wf r [] 0 rfl, hib,
    memStoreBytes_within _ r [] 0 (by simpa using hr) rfl, fun a ha => ?_, hcc, hcb⟩
  have ha : a < r.length := hlen ▸ ha
  simp [memLookup_memStoreBytes, ha]

/-- The end of a command sets the handshake, and its error bit agrees with its disposition (10_state.md R30, R32). -/
theorem inv_endCommand {s : State} (h : Inv s) (rep : Report) (r0 r1 : Word) {err : Bool}
    (he : err = dispIsError rep.disp) (hz : err = true → r0 = 0 ∧ r1 = 0) : Inv (endCommand s rep r0 r1 err) := by
  obtain ⟨hp, -, -, -, -, hil, hol, hiw, how, hib, hob, hor, hcc, hcb⟩ := h
  exact ⟨hp, rfl, fun _ => rfl, fun _ => he, hz, hil, hol, hiw, how, hib, hob, hor, hcc, hcb⟩

theorem inv_latchCommand {s : State} (h : Inv s) (opc : BitVec 8) : Inv (latchCommand s opc) := by
  obtain ⟨hp, -, -, -, -, hil, hol, hiw, how, hib, hob, hor, hcc, hcb⟩ := h
  exact ⟨hp, rfl, nofun, nofun, nofun, hil, hol, hiw, how, hib, hob, hor, hcc, hcb⟩

/-! ## The state after reset -/

/-- A legal capacity holds the initial cache (10_state.md R42 with R43). -/
theorem initialCache_within {p : Params} (hp : legalParams p = true) :
    withinCapacity p.cacheCapacity (initialCache p).length := by
  intro k hk
  simp only [legalParams, hk, Bool.and_eq_true, decide_eq_true_eq] at hp
  obtain ⟨-, -, hfits⟩ := hp
  exact hfits

/-- The state after reset meets the invariant under every legal parameter set (10_state.md R49). -/
theorem inv_resetWith {p : Params} (hp : legalParams p = true) : Inv (State.resetWith p) where
  params := hp
  handshake := rfl
  errDone := fun h => h
  errClass := fun _ => rfl
  errResults := fun _ => ⟨rfl, rfl⟩
  inLength := Nat.zero_le _
  outLength := Nat.zero_le _
  inWf := rfl
  outWf := rfl
  inBound := rfl
  outBound := rfl
  outReply := fun a ha => absurd ha (Nat.not_lt_zero a)
  cacheCanonical := initialCache_wf p
  cacheBounded := initialCache_within hp

theorem inv_hostReset {s : State} (h : Inv s) : Inv (hostReset s) := by
  obtain ⟨hp, hh, hed, hec, her, hil, hol, hiw, how, hib, hob, hor, hcc, hcb⟩ := inv_resetWith h.params
  exact ⟨hp, hh, hed, hec, her, hil, hol, hiw, how, hib, hob, hor, hcc, hcb⟩

/-! ## The engine's step -/

/-- A cache that is as it was or has had one update keeps its canonical form and its bound. -/
theorem inv_withUpdatedCache {s : State} (h : Inv s) (c : Cache)
    (hc : c = s.cache ∨ ∃ ip mac, c = (cacheUpdate s.cfg.cacheCapacity s.cache ip mac).1) :
    Inv { s with cache := c } := by
  rcases hc with rfl | ⟨ip, mac, rfl⟩
  · exact h
  · exact inv_withCache h _ (cacheUpdate_wf _ _ ip mac h.cacheCanonical)
      (cacheUpdate_within _ _ ip mac h.cacheCanonical h.cacheBounded)

/-- A legal run of a `PROCESS` ends in a state that meets the invariant (47_dispatcher.md R274, R276). -/
theorem inv_endProcess {s t : State} (h : Inv s) {r : Run} (hr : GoodRun s r) (ht : endProcess s r = .next t) :
    Inv t := by
  obtain ⟨hend, hcache⟩ := hr
  have hupd := inv_withUpdatedCache h r.cache hcache
  have hquiet := inv_withReply hupd (s.outDraw + 1) [] (Nat.zero_le _) (by decide)
  have hdisp : (runReport r).disp = endingCode r.ending := rfl
  rcases endProcess_cases s r with
    ⟨d, x, he, hx, e⟩ | ⟨d, x, _, he, hx, e, rfl⟩ | ⟨d, _, he, e, -, -, rfl⟩ | ⟨d, _, he, e, -, -, rfl⟩ <;>
    rw [e] at ht <;> cases ht <;> rw [he] at hend hdisp
  · obtain ⟨-, h16, hd⟩ := hend
    exact inv_endCommand (inv_withReply hupd (s.outDraw + 1) x hx h16) (runReport r) 1 (BitVec.ofNat 32 x.length)
      (hdisp ▸ hd.symm) nofun
  · exact inv_endCommand hquiet (runReport r) 0 0 (hdisp ▸ hend.symm) fun _ => ⟨rfl, rfl⟩
  · exact inv_endCommand hquiet (runReport r) 0 0 (hdisp ▸ hend.symm) fun _ => ⟨rfl, rfl⟩

/-- Every instruction keeps the invariant. -/
theorem inv_exec {s t : State} (h : Inv s) (i : Instr) (ht : exec i s = .next t) : Inv t := by
  have hl := legalLengths_of_inv s h
  cases hi : processesFrame i with
  | true =>
    obtain ⟨r, e, hr⟩ := exec_good s i hl hi
    exact inv_endProcess h hr (e ▸ ht)
  | false =>
    obtain ⟨c, rep, r0, r1, e, hz, hc⟩ := exec_other_form s i hi hl
    rw [e] at ht
    injection ht with ht
    exact ht ▸ inv_endCommand (inv_withUpdatedCache h c hc) rep r0 r1 rfl hz

theorem inv_engineStep {s t : State} (h : Inv s) (ht : engineStep s = .next t) : Inv t := by
  rcases engineStep_cases ht with ⟨i, hi⟩ | rfl
  · exact inv_exec h i hi
  · exact inv_endCommand h (plainReport .cmdIllegal) 0 0 rfl fun _ => ⟨rfl, rfl⟩

/-! ## The host's moves -/

theorem inv_regWrite {s : State} (h : Inv s) (offset : Nat) (v : Word) : Inv (regWrite s offset v) := by
  rcases regWrite_cases s offset v with
    e | ⟨-, ⟨-, e⟩ | ⟨-, e⟩ | ⟨-, e⟩ | ⟨-, e⟩ | ⟨-, e⟩ | ⟨-, e⟩⟩ <;> rw [e]
  · exact h
  · exact inv_latchCommand h _
  · exact inv_withArgs h v s.arg1 s.arg2 s.arg3
  · exact inv_withArgs h s.arg0 v s.arg2 s.arg3
  · exact inv_withArgs h s.arg0 s.arg1 v s.arg3
  · exact inv_withArgs h s.arg0 s.arg1 s.arg2 v
  · have hclamp := clampInLen_toNat s v (legalParams_maxFrameLen h.params).2
    exact inv_withInLen h _ (by omega)

theorem inv_inWrite {s : State} (h : Inv s) {a : Nat} (b : Byte) (ha : a < s.cfg.maxFrameLen) :
    Inv (inWrite s a b) := by
  unfold inWrite
  split
  · exact h
  · exact inv_withInMem h _ (memStore_wf _ a b h.inWf) (memStore_within _ _ a b ha h.inBound)

theorem inv_hostMove {s t : State} (h : Inv s) (m : HostMove) (ht : hostMove m s = .next t) : Inv t := by
  have hadv : Inv (hostAdvance s) := inv_of_blockAlike (blockAlike_hostAdvance s) h
  rcases hostMove_cases s t m ht with
    ⟨o, v, -, rfl⟩ | ⟨a, b, -, ha, rfl⟩ | ⟨v, rfl⟩ | rfl | ⟨v, bit, target, rfl⟩ | ⟨-, rfl⟩
  · exact inv_regWrite hadv o v
  · exact inv_inWrite hadv b ha
  · exact inv_of_blockAlike (blockAlike_hostSees s v) h
  · exact hadv
  · exact inv_of_blockAlike (blockAlike_hostBranch s v bit target) h
  · exact inv_of_blockAlike (blockAlike_hostAdvance (hostReset s)) (inv_hostReset h)

/-! ## Reset and the step -/

/-- Settles O9: the reset state is `State.resetWith` of a legal parameter set. -/
theorem resetMeetsTheInvariant : Obligations.ResetMeetsTheInvariant := inv_resetWith configured_legal

/-- Settles O10: the engine's step and each move of the host keep the invariant. -/
theorem stepKeepsTheInvariant : Obligations.StepKeepsTheInvariant := by
  intro s t h ht
  rcases step_cases ht with ⟨-, he⟩ | ⟨-, m, -, hm⟩ | ⟨-, -, rfl⟩
  · exact inv_engineStep h he
  · exact inv_hostMove h m hm
  · exact h

end Sys2Proof.Machine
end

section
/-! PROOFS. The address-resolution cache as a finite map (O20), its initial bindings (O25), and that no step but a reset
removes a binding (O26). -/

namespace Sys2Proof.Machine

/-! ## The canonical form -/

/-- The keys of a cache rise strictly along the whole list. -/
def KeysRise (c : Cache) : Prop := c.Pairwise fun a b => a.1.toNat < b.1.toNat

/-- The canonical form compares neighbours, which is as much as comparing every pair (10_state.md R40). -/
theorem cacheWf_iff_keysRise (c : Cache) : cacheWf c = true ↔ KeysRise c := by
  have hchain : cacheWf c = true ↔ (c.map fun e => e.1.toNat).IsChain (· < ·) := by
    induction c with
    | nil => simp [cacheWf]
    | cons e rest ih =>
      cases rest with
      | nil => simp [cacheWf]
      | cons e' rest => simpa [cacheWf] using and_congr_right fun _ => ih
  rw [hchain, List.isChain_iff_pairwise, List.pairwise_map, KeysRise]

/-- A lookup answers the binding listed for the key, when no other entry has that key (42_arp_cache.md R171). -/
theorem cacheLookup_eq_some_iff {c : Cache} (h : KeysRise c) (ip : Ip) (m : Mac) :
    cacheLookup c ip = some m ↔ (ip, m) ∈ c := by
  induction c with
  | nil => simp [cacheLookup]
  | cons e rest ih =>
    obtain ⟨k, m'⟩ := e
    obtain ⟨hk, hrest⟩ := List.pairwise_cons.1 h
    simp only [cacheLookup, List.mem_cons, Prod.mk.injEq]
    split
    · next heq =>
      subst heq
      have hnot : (k, m) ∉ rest := fun hm => Nat.lt_irrefl k.toNat (hk (k, m) hm)
      simp [hnot, eq_comm]
    · next hne => simp [ih hrest, Ne.symm hne]

theorem cacheKeys_nodup {c : Cache} (h : KeysRise c) : (c.map Prod.fst).Nodup :=
  List.pairwise_map.2 (h.imp fun hlt heq => Nat.ne_of_lt hlt (congrArg BitVec.toNat heq))

/-- Two canonical caches with the same entries are one list. -/
theorem cache_ext {c d : Cache} (hc : KeysRise c) (hd : KeysRise d) (h : ∀ e, e ∈ c ↔ e ∈ d) : c = d := by
  have hperm : c.Perm d :=
    (List.perm_ext_iff_of_nodup (cacheKeys_nodup hc).of_map (cacheKeys_nodup hd).of_map).2 h
  exact hperm.eq_of_pairwise (fun _ _ _ _ hab hba => absurd hab (Nat.lt_asymm hba)) hc hd

/-- Settles O20: rising keys make the list a map. -/
theorem cacheIsAMap : Obligations.CacheIsAMap := by
  intro c hwf
  have hc := (cacheWf_iff_keysRise c).1 hwf
  refine ⟨cacheLookup_eq_some_iff hc, cacheKeys_nodup hc, fun d hwfd hsame => ?_⟩
  have hd := (cacheWf_iff_keysRise d).1 hwfd
  refine cache_ext hc hd fun ⟨ip, m⟩ => ?_
  rw [← cacheLookup_eq_some_iff hc, ← cacheLookup_eq_some_iff hd, hsame]

/-! ## The initial cache -/

/-- After binding a list of entries in order, a key has its last entry, or what it had before. -/
theorem cacheLookup_foldl_bind (l : List (Ip × Mac)) (c : Cache) (ip : Ip) :
    cacheLookup (l.foldl (fun c e => cacheBind c e.1 e.2) c) ip =
      ((l.reverse.find? fun e => e.1 = ip).map Prod.snd).or (cacheLookup c ip) := by
  induction l using List.reverseRecOn with
  | nil => rfl
  | append_singleton l e ih =>
    rw [List.foldl_append, List.reverse_append]
    simp only [List.foldl_cons, List.foldl_nil, List.reverse_singleton, List.singleton_append, List.find?_cons,
      cacheLookup_cacheBind]
    by_cases heq : ip = e.1
    · simp [heq]
    · simp [heq, Ne.symm heq, ih]

theorem cacheLookup_loopback (ip : Ip) :
    cacheLookup (cacheBind [] loopbackIp loopbackMac) ip = if ip = 0x7F000001 then some 0 else none :=
  cacheLookup_cacheBind [] loopbackIp loopbackMac ip

/-- Without extra entries the initial cache has the loopback and the local binding, which can share their key. -/
theorem initialCache_length_of_noExtra {p : Params} (h : p.extraStatic = []) :
    (initialCache p).length = if p.localIp = 0x7F000001 then 1 else 2 := by
  rw [initialCache, h, List.foldl_nil, cacheBind_length _ _ _ rfl, cacheLookup_loopback]
  split <;> rfl

/-- Settles O25: each later binding overwrites the earlier ones of its key. -/
theorem initialCacheBindings : Obligations.InitialCacheBindings := by
  refine ⟨fun p ip => ?_, fun p => initialCache_length_of_noExtra, fun p => ⟨initialCache_wf p, rfl⟩⟩
  rw [initialCache, cacheLookup_cacheBind, cacheLookup_foldl_bind, cacheLookup_loopback]
  cases p.extraStatic.reverse.find? (fun e => e.1 = ip) <;> rfl

/-! ## No binding is removed -/

theorem cacheUpdate_length_ge (cap : Option Nat) (c : Cache) (ip : Ip) (mac : Mac) (h : cacheWf c = true) :
    c.length ≤ (cacheUpdate cap c ip mac).1.length := by
  have hbind : c.length ≤ (cacheBind c ip mac).length := by
    rw [cacheBind_length c ip mac h]
    split <;> omega
  rcases cacheUpdate_cases cap c ip mac with ⟨-, -, e⟩ | ⟨-, -, e⟩ | ⟨_, -, -, e⟩ | ⟨-, e⟩ <;> rw [e]
  · exact hbind
  · exact hbind

/-- Settles O26: an update only adds a binding or changes one, and the invariant bounds the cache. -/
theorem noBindingIsRemoved : Obligations.NoBindingIsRemoved := by
  intro s t hinv ht
  have hbound : withinCapacity t.cfg.cacheCapacity t.cache.length := (stepKeepsTheInvariant s t hinv ht).cacheBounded
  refine ⟨fun k hk => hbound k (step_cfg ht ▸ hk), ?_⟩
  rcases step_cache (legalLengths_of_inv s hinv) ht with hreset | hsame | ⟨ip, mac, hupd⟩
  · exact .inl hreset
  · exact .inr ⟨hsame ▸ Nat.le_refl _, fun _ hb => hsame ▸ hb⟩
  · rw [hupd]
    exact .inr ⟨cacheUpdate_length_ge _ _ ip mac hinv.cacheCanonical, cacheUpdate_keeps _ _ ip mac⟩

end Sys2Proof.Machine
end

section
/-! PROOFS. The registers as the host reads and writes them (10_state.md R28 to R38), and the parameters, which no step
changes (O48, O50 to O54, O58). -/

namespace Sys2Proof.Machine

/-- Settles O52: the offsets of the six writable registers are all a write can hit, and the last register is at 0x38. -/
theorem readOnlyRegistersIgnoreWrites : Obligations.ReadOnlyRegistersIgnoreWrites :=
  fun s _ v _ _ => ⟨regWrite_readOnly s v, regRead_reserved s⟩

/-- Settles O50: writes by the register's own rule, and instructions by the frame of `exec`. -/
theorem argumentsHoldWhatWasWritten : Obligations.ArgumentsHoldWhatWasWritten := by
  refine ⟨fun s v h => ?_, fun s t i ht => ?_, fun s offset v h => regWrite_busy h offset v, rfl, rfl, rfl, rfl⟩
  · simp [regWrite_arg0 h, regWrite_arg1 h, regWrite_arg2 h, regWrite_arg3 h]
  · obtain ⟨_, _, _, _, hends⟩ := exec_kept s t i ht
    exact ⟨hends.arg0, hends.arg1, hends.arg2, hends.arg3⟩

/-- Settles O51: the clamped value, and the frame of `exec`. -/
theorem inLenIsClamped : Obligations.InLenIsClamped := by
  refine ⟨fun s v h hmax => ?_, fun s t i ht => ?_, rfl⟩
  · have hclamp := clampInLen_toNat s v hmax
    rw [regWrite_inLen h]
    refine ⟨hclamp, ?_, rfl⟩
    rw [regRead_inLen, BitVec.toNat_setWidth_of_le (by decide)]
    exact hclamp
  · obtain ⟨_, _, _, _, hends⟩ := exec_kept s t i ht
    exact hends.inLen

/-- Settles O48: the write of `CMD` is `latchCommand` when idle and lost when busy. -/
theorem cmdWriteLatches : Obligations.CmdWriteLatches := by
  intro s v
  have hmove : hostMove (.regWrite 4 0x00 v) s = .next (regWrite (hostAdvance s) 0x00 v) := rfl
  refine ⟨fun hidle => ?_, fun hbusy => ?_, rfl, fun e he => ?_, rfl⟩
  · have hlatch : regWrite (hostAdvance s) 0x00 v = latchCommand (hostAdvance s) (v.extractLsb' 0 8) :=
      regWrite_cmd (s := hostAdvance s) hidle v
    exact ⟨_, hmove.trans (congrArg _ hlatch), rfl, rfl, rfl, rfl, rfl⟩
  · have hlost : regWrite (hostAdvance s) 0x00 v = hostAdvance s := regWrite_busy (s := hostAdvance s) hbusy _ _
    exact ⟨_, hmove.trans (congrArg _ hlost), blockAlike_hostAdvance s⟩
  · exact ⟨_, engineStep_illegal he, rfl⟩

/-- Settles O53: the words are concatenations of their fields. -/
theorem statusAndReportFields : Obligations.StatusAndReportFields := by
  intro s
  refine ⟨statusWord_toNat s, ?_⟩
  rw [regRead_report, reportWord_toNat]
  cases s.report.cacheEvent <;> rfl

/-- Settles O54: the registers are views of the parameters and of the cache's length. -/
theorem identityAndCountRegisters : Obligations.IdentityAndCountRegisters := by
  refine ⟨fun s => ⟨rfl, ?_, ?_, cacheCountWord_toNat⟩, fun s t => step_cfg⟩
  · rw [regRead_localMacHi, regRead_localMacLo, BitVec.setWidth_setWidth_of_le _ (by decide), BitVec.setWidth_eq,
      macBytes]
  · rw [regRead_localMacHi, BitVec.toNat_setWidth_of_le (by decide)]
    exact BitVec.isLt _

/-- Settles O58: every field of the reset state is written out in `State.resetWith`. -/
theorem resetValues : Obligations.ResetValues := by
  refine ⟨fun offset ho => ?_, rfl, rfl, rfl, rfl, rfl, rfl⟩
  simp only [List.mem_cons, List.not_mem_nil, or_false] at ho
  rcases ho with rfl | rfl | rfl | rfl | rfl | rfl | rfl | rfl | rfl | rfl | rfl <;> rfl

end Sys2Proof.Machine
end

section
/-! PROOFS. The step runs the decoded instruction (O6): `PROCESS` agrees with every class its frame selects, one key at a
time in the order R108 reads them. -/

namespace Sys2Proof.Machine

/-! ## One key at a time -/

/-- Two meanings over the IPv4 header agree when their endings do on the header of the frame handed over. -/
theorem onIpv4_congr {s : State} {k k' : EthHeader → Ipv4Header → List Byte → Ending}
    (h : ∀ eth hdr, ipv4Decode ((handedOver s).drop 14) = .ok hdr →
      k eth hdr (upperView hdr ((handedOver s).drop 14)) = k' eth hdr (upperView hdr ((handedOver s).drop 14))) :
    onIpv4 s k = onIpv4 s k' := by
  refine onFrame_congr s _ _ fun eth _ => ?_
  cases hd : ipv4Decode ((handedOver s).drop 14) with
  | error d => rfl
  | ok hdr => simp only [orMalformed, h eth hdr hd]

/-- Two meanings over the ARP message agree when their runs do on the message of the frame handed over. -/
theorem onArp_congr {s : State} {k k' : EthHeader → ArpMessage → Run}
    (h : ∀ eth m, arpDecode ((handedOver s).drop 14) = .ok m → k eth m = k' eth m) : onArp s k = onArp s k' := by
  refine onFrame_congr s _ _ fun eth _ => ?_
  cases hd : arpDecode ((handedOver s).drop 14) with
  | error d => rfl
  | ok m => exact h eth m hd

/-- The key `ICMPTYPE`: the class of a type is the ICMP dispatch of any message with that type (45_icmp.md R232). -/
theorem exec_icmpType (s : State) (m : IcmpMessage) :
    exec (decodeIcmpType m.type) s = onIcmp s fun eth h u => icmpDispatch s.cfg eth h u m := by
  unfold decodeIcmpType icmpDispatch
  split_ifs <;> rfl

/-- The key `TCPFLAGS`: the class of the flags is the TCP dispatch with those flags (46_tcp.md R253). -/
theorem exec_tcpFlags (s : State) (k : BitVec 9) :
    exec (decodeTcpFlags k) s = onTcp s fun eth h t => tcpDispatch s.cfg eth h { t with flags9 := k } := by
  unfold decodeTcpFlags tcpDispatch
  split_ifs <;> rfl

/-- The key `IPPROTO`: the class of a protocol is the IPv4 dispatch with that protocol (44_ipv4.md R214). -/
theorem exec_ipProto (s : State) (k : BitVec 8) :
    exec (decodeIpProto k) s = onIpv4 s fun eth h u => ipv4Dispatch s.cfg eth { h with protocol := k } u := by
  by_cases h1 : k = 1
  · subst h1; rfl
  by_cases h2 : k = 2
  · subst h2; rfl
  by_cases h6 : k = 6
  · subst h6; rfl
  by_cases h17 : k = 17
  · subst h17; rfl
  · simp only [decodeIpProto, ipv4Dispatch, h1, h2, h6, h17, if_false]
    rfl

/-- The key `ARPOP`: the class of an opcode is the ARP dispatch with that opcode (43_arp.md R191 to R198). -/
theorem exec_arpOp (s : State) (k : BitVec 16) :
    exec (decodeArpOp k) s = onArp s fun eth m => arpDispatch s.cfg s.cache eth { m with opcode := k } := by
  unfold decodeArpOp arpDispatch
  split_ifs <;> rfl

/-- The key `ETYPE`: `PROCESS` is the class of the frame's ether-type (47_dispatcher.md R272). -/
theorem exec_process_etype {s : State} {eth : EthHeader} (he : ethDecode (handedOver s) = .ok eth) :
    exec .process s = exec (decodeEtype eth.ethertype) s := by
  have hrun : ∀ k : EthHeader → List Byte → Run,
      ethDispatch s.cfg s.cache eth (handedOver s) = k eth (handedOver s) → exec .process s = onFrame s k := by
    intro k hk
    refine onFrame_congr s _ _ fun eth' he' => ?_
    cases he.symm.trans he'
    exact hk
  unfold decodeEtype
  split_ifs with harp hip
  · exact hrun _ (by rw [ethDispatch, if_pos harp])
  · exact hrun _ (by rw [ethDispatch, if_neg harp, if_pos hip])
  · exact hrun _ (by rw [ethDispatch, if_neg harp, if_neg hip])

/-! ## The classes of a frame -/

theorem exec_arpClasses {s : State} {c : Instr} (hc : c ∈ arpClasses ((handedOver s).drop 14)) :
    exec .ethArp s = exec c s := by
  unfold arpClasses at hc
  split at hc
  · exact absurd hc List.not_mem_nil
  · next m hm =>
    rw [List.mem_singleton.1 hc, exec_arpOp]
    refine onArp_congr fun eth m' hm' => ?_
    cases hm.symm.trans hm'
    rfl

section Ipv4

variable {s : State} {hdr : Ipv4Header} (hd : ipv4Decode ((handedOver s).drop 14) = .ok hdr)
include hd

theorem exec_icmpClasses {c : Instr} (hc : c ∈ icmpClasses (upperView hdr ((handedOver s).drop 14))) :
    exec .ipIcmp s = exec c s := by
  unfold icmpClasses at hc
  split at hc
  · exact absurd hc List.not_mem_nil
  · next m hm =>
    rw [List.mem_singleton.1 hc, exec_icmpType]
    refine onIpv4_congr fun eth hdr' hd' => ?_
    cases hd.symm.trans hd'
    rw [icmpHandle, hm]
    rfl

theorem exec_tcpClasses {c : Instr} (hc : c ∈ tcpClasses (upperView hdr ((handedOver s).drop 14))) :
    exec .ipTcp s = exec c s := by
  unfold tcpClasses at hc
  split at hc
  · exact absurd hc List.not_mem_nil
  · next t ht =>
    rw [List.mem_singleton.1 hc, exec_tcpFlags]
    refine onIpv4_congr fun eth hdr' hd' => ?_
    cases hd.symm.trans hd'
    rw [tcpHandle, ht]
    rfl

theorem exec_ethIpv4_ipProto : exec .ethIpv4 s = exec (decodeIpProto hdr.protocol) s := by
  rw [exec_ipProto]
  refine onIpv4_congr (k := fun eth h u => ipv4Dispatch s.cfg eth h u) fun eth hdr' hd' => ?_
  cases hd.symm.trans hd'
  rfl

end Ipv4

theorem exec_ipv4Classes {s : State} {c : Instr} (hc : c ∈ ipv4Classes ((handedOver s).drop 14)) :
    exec .ethIpv4 s = exec c s := by
  unfold ipv4Classes at hc
  split at hc
  · exact absurd hc List.not_mem_nil
  · next hdr hd =>
    have hproto := exec_ethIpv4_ipProto hd
    split at hc
    · next hk =>
      rw [hproto, hk]
      rcases List.mem_cons.1 hc with rfl | hc
      · rfl
      · exact exec_icmpClasses hd hc
    · next hk =>
      rw [hproto, hk]
      rcases List.mem_cons.1 hc with rfl | hc
      · rfl
      · exact exec_tcpClasses hd hc
    · rw [hproto, List.mem_singleton.1 hc]

/-- `PROCESS` does what every class its frame selects says (30_encoding.md R108, R109). -/
theorem exec_process_class {s : State} {c : Instr} (hc : c ∈ frameClasses (handedOver s)) :
    exec .process s = exec c s := by
  unfold frameClasses at hc
  split at hc
  · exact absurd hc List.not_mem_nil
  · next eth he =>
    have hetype := exec_process_etype he
    split at hc
    · next hk =>
      rw [hetype, hk]
      rcases List.mem_cons.1 hc with rfl | hc
      · rfl
      · exact exec_arpClasses hc
    · next hk =>
      rw [hetype, hk]
      rcases List.mem_cons.1 hc with rfl | hc
      · rfl
      · exact exec_ipv4Classes hc
    · rw [hetype, List.mem_singleton.1 hc]

/-! ## The step -/

/-- Settles O6: in its turn the engine runs the decoded instruction, which for `PROCESS` is each class of its frame. -/
theorem stepRunsTheDecodedInstruction : Obligations.StepRunsTheDecodedInstruction := by
  refine ⟨fun s hbusy hready => ?_, fun s hwait => ?_⟩
  · have hstep : step s = engineStep s := if_pos ((engineTurn_iff s).2 ⟨hbusy, hready⟩)
    refine ⟨fun i hi => hstep.trans (engineStep_legal hi), fun c hopc hc => ?_⟩
    have hprocess : decodeCommand s.opc = .ok .process := by rw [hopc]; rfl
    rw [hstep, engineStep_legal hprocess, exec_process_class hc]
  · have hturn : ¬ engineTurn s = true := by
      rw [engineTurn_iff]
      rintro ⟨hbusy, hready⟩
      rcases hwait with hidle | ⟨hdelay, hnext⟩
      · exact absurd (hidle.symm.trans hbusy) Bool.false_ne_true
      · exact hready.elim hnext hdelay
    refine ⟨fun m hm => ?_, fun hnone => ?_⟩
    · rw [step, if_neg hturn, hm]
    · rw [step, if_neg hturn, hnone]

end Sys2Proof.Machine
end

section
/-! PROOFS. The host's accesses to the buffers and its reads (O55, O56): one equation per access that has a move, what a
byte of `IN` reads after a write, and the two obligations from them. -/

namespace Sys2Proof.Machine

/-! ## The accesses that have a move -/

/-- 10_state.md R27. -/
theorem isRegAccess_word {offset : Nat} (halign : offset % 4 = 0) (hlim : offset < 0x100) :
    isRegAccess 4 offset = true := by
  simp [isRegAccess, halign, hlim]

theorem hostMove_regRead {s : State} {width offset : Nat} (h : isRegAccess width offset = true) :
    hostMove (.regRead width offset) s = .next (hostSees (hostAdvance s) (regRead s offset)) := if_pos h

section Buffers

variable {s : State} {a : Nat} (h : a < s.cfg.maxFrameLen)
include h

theorem hostMove_inRead :
    hostMove (.inRead a) s = .next (hostSees (hostAdvance s) ((byteAt s .inbound a).setWidth 32)) := if_pos h

theorem hostMove_outRead :
    hostMove (.outRead a) s = .next (hostSees (hostAdvance s) ((byteAt s .outbound a).setWidth 32)) := if_pos h

theorem hostMove_inWrite (b : Byte) : hostMove (.inWrite a b) s = .next (inWrite (hostAdvance s) a b) := if_pos h

theorem hostMove_outWrite (b : Byte) : hostMove (.outWrite a b) s = .next (hostAdvance s) := if_pos h

end Buffers

/-! ## What a write of a byte of `IN` stores -/

@[simp] theorem byteAt_hostAdvance (s : State) (sp : Space) (x : Nat) : byteAt (hostAdvance s) sp x = byteAt s sp x := rfl

theorem inWrite_idle {s : State} (h : s.busy = false) (a : Nat) (b : Byte) :
    inWrite s a b = { s with inMem := memStore s.inMem a b } := by
  simp [inWrite, h]

theorem byteAt_inWrite_inbound {s : State} (h : s.busy = false) (a : Nat) (b : Byte) (x : Nat) :
    byteAt (inWrite s a b) .inbound x = if x = a then b else byteAt s .inbound x := by
  simp only [inWrite_idle h, byteAt, memLookup_memStore]
  split <;> rfl

theorem inWrite_frame (s : State) (a : Nat) (b : Byte) : { inWrite s a b with inMem := s.inMem } = s := by
  unfold inWrite
  split <;> rfl

/-- `IN` and `OUT` are apart (20_memory.md R63). -/
theorem byteAt_inWrite_outbound (s : State) (a : Nat) (b : Byte) (x : Nat) :
    byteAt (inWrite s a b) .outbound x = byteAt s .outbound x := by
  unfold inWrite
  split <;> rfl

/-! ## The obligations -/

/-- Settles O56: the write of `IN` by the rules of `inWrite`, on the state whose host has moved on; the write of `OUT`
moves the host on alone. -/
theorem bufferWrites : Obligations.BufferWrites := by
  intro s a b ha
  refine ⟨fun hidle => ?_, _, hostMove_outWrite ha b, blockAlike_hostAdvance s⟩
  have hbyte := byteAt_inWrite_inbound (s := hostAdvance s) hidle a b
  refine ⟨_, hostMove_inWrite ha b, ?_, fun x hx => ?_, byteAt_inWrite_outbound (hostAdvance s) a b, ?_⟩
  · exact (hbyte a).trans (if_pos rfl)
  · exact (hbyte x).trans (if_neg hx)
  · exact (inWrite_frame (hostAdvance s) a b).symm ▸ blockAlike_hostAdvance s

/-- Settles O55: a read is the host moving on and seeing the value (20_memory.md R73). -/
theorem readsChangeNothing : Obligations.ReadsChangeNothing := by
  refine fun s => ⟨fun offset halign hlim => ?_, fun a ha => ⟨?_, ?_⟩⟩
  · exact ⟨_, hostMove_regRead (isRegAccess_word halign hlim), blockAlike_hostSees s _, rfl⟩
  · exact ⟨_, hostMove_inRead ha, blockAlike_hostSees s _, rfl⟩
  · exact ⟨_, hostMove_outRead ha, blockAlike_hostSees s _, rfl⟩

end Sys2Proof.Machine
end

section
/-! SUPPORT. The keys and the rows of the opcode table (30_encoding.md R92, R108, R109): a key is read up to the bits of
its width, a row is a default or tests all of those bits, and the decoder and the encoder undo each other. -/

namespace Sys2Proof

/-! ## The bits of a key -/

/-- The bits a format reads of a word (30_encoding.md R94, R108). -/
def keyMask : Format → Word
  | .cmd => 0xFF
  | .etype => 0xFFFF
  | .arpop => 0xFFFF
  | .ipproto => 0xFF
  | .icmptype => 0xFF
  | .tcpflags => 0x1FF

/-- Masking with the low `n` bits is truncating to them. -/
theorem and_lowMask (n : Nat) (w : Word) : w &&& (BitVec.allOnes n).setWidth 32 = (w.setWidth n).setWidth 32 := by
  ext i hi
  by_cases hn : i < n <;> simp [hn, BitVec.getLsbD_eq_getElem hi]

theorem setWidth_and_lowMask {n : Nat} (h : n ≤ 32) (w : Word) :
    (w &&& (BitVec.allOnes n).setWidth 32).setWidth n = w.setWidth n := by
  rw [and_lowMask, BitVec.setWidth_setWidth_of_le _ h, BitVec.setWidth_eq]

/-- The decoder reads the bits of the key alone (30_encoding.md R94, R108). -/
theorem decode_and_keyMask (fmt : Format) (w : Word) : decode fmt (w &&& keyMask fmt) = decode fmt w := by
  have h8 : (w &&& 0xFF).setWidth 8 = w.setWidth 8 := setWidth_and_lowMask (by decide) w
  have h9 : (w &&& 0x1FF).setWidth 9 = w.setWidth 9 := setWidth_and_lowMask (by decide) w
  have h16 : (w &&& 0xFFFF).setWidth 16 = w.setWidth 16 := setWidth_and_lowMask (by decide) w
  cases fmt <;> simp only [decode, keyMask, h8, h9, h16]

/-! ## The rows -/

/-- A row is the default of a frame format, or it tests every bit of its format's key (30_encoding.md R108). -/
theorem row_cases (i : Instr) :
    ((rowOf i).mask = 0 ∧ (rowOf i).format ≠ .cmd) ∨
    ((rowOf i).mask = keyMask (rowOf i).format ∧ wellFormed i = true) := by
  cases i with
  | ethOther k => exact .inl ⟨rfl, nofun⟩
  | arpBadOpcode k => exact .inl ⟨rfl, nofun⟩
  | ipOther k => exact .inl ⟨rfl, nofun⟩
  | icmpOther k => exact .inl ⟨rfl, nofun⟩
  | tcpOther k => exact .inl ⟨rfl, nofun⟩
  | _ => exact .inr ⟨rfl, rfl⟩

theorem keyMask_and_mask (i : Instr) : keyMask (rowOf i).format &&& (rowOf i).mask = (rowOf i).mask := by
  rcases row_cases i with ⟨h, -⟩ | ⟨h, -⟩
  · rw [h]; exact BitVec.and_zero
  · rw [h]; exact BitVec.and_self

/-- The key the encoder writes lies in the instruction's own row. -/
theorem encode_matches_row (i : Instr) : Laws.KeyInRow.Statement i := by
  cases i with
  | ethOther k => exact Laws.KeyInRow.ethOther k
  | arpBadOpcode k => exact Laws.KeyInRow.arpBadOpcode k
  | ipOther k => exact Laws.KeyInRow.ipOther k
  | icmpOther k => exact Laws.KeyInRow.icmpOther k
  | tcpOther k => exact Laws.KeyInRow.tcpOther k
  | _ => exact ⟨rfl, rfl⟩

/-! ## Decoding what was encoded -/

/-- A key that no row of `ETYPE` has selects the default; so for each frame format (30_encoding.md R108). -/
theorem decodeEtype_default {k : BitVec 16} (h : wellFormed (.ethOther k) = true) :
    decodeEtype k = .ethOther k := by
  unfold decodeEtype
  split_ifs
  case neg => rfl
  all_goals subst k; exact absurd h (by decide)

theorem decodeArpOp_default {k : BitVec 16} (h : wellFormed (.arpBadOpcode k) = true) :
    decodeArpOp k = .arpBadOpcode k := by
  unfold decodeArpOp
  split_ifs
  case neg => rfl
  all_goals subst k; exact absurd h (by decide)

theorem decodeIpProto_default {k : BitVec 8} (h : wellFormed (.ipOther k) = true) :
    decodeIpProto k = .ipOther k := by
  unfold decodeIpProto
  split_ifs
  case neg => rfl
  all_goals subst k; exact absurd h (by decide)

theorem decodeIcmpType_default {k : BitVec 8} (h : wellFormed (.icmpOther k) = true) :
    decodeIcmpType k = .icmpOther k := by
  unfold decodeIcmpType
  split_ifs
  case neg => rfl
  all_goals subst k; exact absurd h (by decide)

theorem decodeTcpFlags_default {k : BitVec 9} (h : wellFormed (.tcpOther k) = true) :
    decodeTcpFlags k = .tcpOther k := by
  unfold decodeTcpFlags
  split_ifs
  case neg => rfl
  all_goals subst k; exact absurd h (by decide)

/-- A key of at most 32 bits stands whole in its key word. -/
theorem setWidth_keyWord {n : Nat} (h : n ≤ 32) (k : BitVec n) : (k.setWidth 32).setWidth n = k := by
  rw [BitVec.setWidth_setWidth_of_le _ h, BitVec.setWidth_eq]

theorem decode_encode {i : Instr} (h : wellFormed i = true) : decode (encode i).1 (encode i).2 = .ok i := by
  cases i with
  | ethOther k => simp only [encode, decode, setWidth_keyWord (n := 16) (by decide), decodeEtype_default h]
  | arpBadOpcode k => simp only [encode, decode, setWidth_keyWord (n := 16) (by decide), decodeArpOp_default h]
  | ipOther k => simp only [encode, decode, setWidth_keyWord (n := 8) (by decide), decodeIpProto_default h]
  | icmpOther k => simp only [encode, decode, setWidth_keyWord (n := 8) (by decide), decodeIcmpType_default h]
  | tcpOther k => simp only [encode, decode, setWidth_keyWord (n := 9) (by decide), decodeTcpFlags_default h]
  | _ => rfl

/-! ## Encoding what was decoded -/

/-- A decoder answers with a well-formed instruction whose key word is the key it read. -/
def Encodes (i : Instr) (fmt : Format) (key : Word) : Prop := wellFormed i = true ∧ encode i = (fmt, key)

theorem decodeCommand_encodes {k : BitVec 8} {i : Instr} (h : decodeCommand k = .ok i) :
    Encodes i .cmd (k.setWidth 32) := by
  unfold decodeCommand at h
  split_ifs at h
  all_goals cases h; subst k; exact ⟨rfl, rfl⟩

theorem decodeEtype_encodes (k : BitVec 16) : Encodes (decodeEtype k) .etype (k.setWidth 32) := by
  unfold decodeEtype
  split_ifs
  case neg => exact ⟨by simp_all [wellFormed, etypeKeys], rfl⟩
  all_goals subst k; exact ⟨rfl, rfl⟩

theorem decodeArpOp_encodes (k : BitVec 16) : Encodes (decodeArpOp k) .arpop (k.setWidth 32) := by
  unfold decodeArpOp
  split_ifs
  case neg => exact ⟨by simp_all [wellFormed, arpopKeys], rfl⟩
  all_goals subst k; exact ⟨rfl, rfl⟩

theorem decodeIpProto_encodes (k : BitVec 8) : Encodes (decodeIpProto k) .ipproto (k.setWidth 32) := by
  unfold decodeIpProto
  split_ifs
  case neg => exact ⟨by simp_all [wellFormed, ipprotoKeys], rfl⟩
  all_goals subst k; exact ⟨rfl, rfl⟩

theorem decodeIcmpType_encodes (k : BitVec 8) : Encodes (decodeIcmpType k) .icmptype (k.setWidth 32) := by
  unfold decodeIcmpType
  split_ifs
  case neg => exact ⟨by simp_all [wellFormed, icmptypeKeys], rfl⟩
  all_goals subst k; exact ⟨rfl, rfl⟩

theorem decodeTcpFlags_encodes (k : BitVec 9) : Encodes (decodeTcpFlags k) .tcpflags (k.setWidth 32) := by
  unfold decodeTcpFlags
  split_ifs
  case neg => exact ⟨by simp_all [wellFormed, tcpflagsKeys], rfl⟩
  all_goals subst k; exact ⟨rfl, rfl⟩

theorem decode_encodes {fmt : Format} {w : Word} {i : Instr} (h : decode fmt w = .ok i) :
    Encodes i fmt (w &&& keyMask fmt) := by
  have h8 : w &&& 0xFF = (w.setWidth 8).setWidth 32 := and_lowMask 8 w
  have h9 : w &&& 0x1FF = (w.setWidth 9).setWidth 32 := and_lowMask 9 w
  have h16 : w &&& 0xFFFF = (w.setWidth 16).setWidth 32 := and_lowMask 16 w
  cases fmt with
  | cmd => exact h8 ▸ decodeCommand_encodes h
  | etype => cases h; exact h16 ▸ decodeEtype_encodes _
  | arpop => cases h; exact h16 ▸ decodeArpOp_encodes _
  | ipproto => cases h; exact h8 ▸ decodeIpProto_encodes _
  | icmptype => cases h; exact h8 ▸ decodeIcmpType_encodes _
  | tcpflags => cases h; exact h9 ▸ decodeTcpFlags_encodes _

/-! ## The row a key matches -/

theorem row_of_decode {fmt : Format} {w : Word} {i : Instr} (h : decode fmt w = .ok i) :
    (rowOf i).format = fmt ∧ w &&& (rowOf i).mask = (rowOf i).mtch := by
  obtain ⟨-, henc⟩ := decode_encodes h
  obtain ⟨hfmt, hkey⟩ := encode_matches_row i
  rw [henc] at hfmt hkey
  obtain rfl : fmt = (rowOf i).format := hfmt
  rw [BitVec.and_assoc, keyMask_and_mask] at hkey
  exact ⟨rfl, hkey⟩

/-- A key that matches a row other than a default decodes to that row. -/
theorem decode_of_matches_row {w : Word} {j : Instr} (hmask : (rowOf j).mask ≠ 0)
    (h : w &&& (rowOf j).mask = (rowOf j).mtch) : decode (rowOf j).format w = .ok j := by
  rcases row_cases j with ⟨h0, -⟩ | ⟨hall, hwf⟩
  · exact absurd h0 hmask
  obtain ⟨hfmt, hkey⟩ := encode_matches_row j
  calc decode (rowOf j).format w
      = decode (rowOf j).format (w &&& keyMask (rowOf j).format) := (decode_and_keyMask _ _).symm
    _ = decode (rowOf j).format ((encode j).2 &&& keyMask (rowOf j).format) := by rw [← hall, h, hkey]
    _ = decode (encode j).1 (encode j).2 := by rw [decode_and_keyMask, hfmt]
    _ = .ok j := decode_encode hwf

/-- Every frame format has a default (30_encoding.md R108). -/
theorem format_of_decode_error {fmt : Format} {w : Word} {e : DecodeError} (h : decode fmt w = .error e) :
    fmt = .cmd := by
  cases fmt with
  | cmd => rfl
  | _ => cases h

end Sys2Proof
end

section
/-! PROOFS. The decoder against the encoder and the opcode table (O1, O3, O4). -/

namespace Sys2Proof

/-- Settles O1: the rows with a fixed key by evaluation, each default by the keys it leaves to the other rows. -/
theorem decodeInvertsEncode : Obligations.DecodeInvertsEncode := fun _ => decode_encode

/-- Settles O3: the decoder's answer encodes to the key it read, which lies in the answer's row; and any other row that
is no default would have been the answer. -/
theorem decodeAnswersTheMatchingRow : Obligations.DecodeAnswersTheMatchingRow := by
  refine ⟨fun fmt w i hi => ?_, fun fmt w e he => ⟨format_of_decode_error he, fun j hj hmatch => ?_⟩⟩
  · obtain ⟨hfmt, hrow⟩ := row_of_decode hi
    refine ⟨(decode_encodes hi).1, hfmt, hrow, fun j hj hmatch => ?_⟩
    by_cases hmask : (rowOf j).mask = 0
    · exact .inr hmask
    · have hdec := decode_of_matches_row hmask hmatch
      rw [hj, hi] at hdec
      cases hdec
      exact .inl rfl
  · rcases row_cases j with ⟨-, hframe⟩ | ⟨hmask, -⟩
    · exact hframe (hj.trans (format_of_decode_error he))
    · have hnonzero : (rowOf j).mask ≠ 0 := by
        rw [hmask, hj, format_of_decode_error he]
        decide
      have hdec := decode_of_matches_row hnonzero hmatch
      rw [hj, he] at hdec
      cases hdec

/-- Settles O4: the decoder evaluates on each of the ten words. -/
theorem knownKeysDecode : Obligations.KnownKeysDecode := ⟨rfl, rfl, rfl, rfl, rfl, rfl, rfl, rfl, rfl, rfl⟩

end Sys2Proof
end

section
/-! SUPPORT. The class at each place of a frame (30_encoding.md R101 to R105, R108): what the key there decodes to is
among the classes the frame selects, in the terms of Safety.lean; and the frame that carries a key has it there. -/

namespace Sys2Proof.Machine

/-! ## The class at each place -/

section Classes

variable {f : List Byte}

theorem decodeEtype_mem_frameClasses (hlen : 14 ≤ f.length) : decodeEtype (rd16 f 12) ∈ frameClasses f := by
  rw [frameClasses, ethDecode_of_length f hlen]
  dsimp only
  split
  · next h => rw [h]; exact List.mem_cons_self
  · next h => rw [h]; exact List.mem_cons_self
  · exact List.mem_singleton_self _

theorem decodeArpOp_mem_frameClasses (h : isArpFrame f) : decodeArpOp (rd16 f 20) ∈ frameClasses f := by
  obtain ⟨hlen, htype⟩ := h
  rw [frameClasses, ethDecode_of_length f (by omega)]
  simp [htype, decodeEtype, arpClasses, arpDecode_frame f hlen]

/-- An IPv4 frame selects the classes of its IPv4 view. -/
theorem mem_frameClasses_of_ipv4 (h : isIpv4Frame f) {c : Instr} (hc : c ∈ ipv4Classes (f.drop 14)) :
    c ∈ frameClasses f := by
  obtain ⟨hlen, htype, -⟩ := h
  rw [frameClasses, ethDecode_of_length f (by omega)]
  simp [htype, decodeEtype, hc]

theorem decodeIpProto_mem_frameClasses (h : isIpv4Frame f) : decodeIpProto (rd8 f 23) ∈ frameClasses f := by
  refine mem_frameClasses_of_ipv4 h ?_
  rw [ipv4Classes, ipv4Decode_ok f h]
  dsimp only
  rw [ipv4Header_protocol]
  split
  · next h => rw [h]; exact List.mem_cons_self
  · next h => rw [h]; exact List.mem_cons_self
  · exact List.mem_singleton_self _

theorem decodeIcmpType_mem_frameClasses (h : isIpv4Frame f) (hproto : rd8 f 23 = 1) (hlen : 8 ≤ (upperOf f).length) :
    decodeIcmpType (rd8 (upperOf f) 0) ∈ frameClasses f := by
  refine mem_frameClasses_of_ipv4 h ?_
  rw [ipv4Classes, ipv4Decode_ok f h]
  simp [ipv4Header_protocol, hproto, decodeIpProto, upperView_frame, icmpClasses, icmpDecode_ok _ hlen]

theorem decodeTcpFlags_mem_frameClasses (h : isIpv4Frame f) (hproto : rd8 f 23 = 6) (hseg : isTcpSegment (upperOf f)) :
    decodeTcpFlags (flagsOf (upperOf f)) ∈ frameClasses f := by
  refine mem_frameClasses_of_ipv4 h ?_
  rw [ipv4Classes, ipv4Decode_ok f h]
  simp [ipv4Header_protocol, hproto, decodeIpProto, upperView_frame, tcpClasses, tcpDecode_ok _ hseg, tcpHeader,
    flagsOf]

end Classes

/-! ## The frame that carries a key -/

@[simp] theorem keyEthHeader_length (t : Half) : (keyEthHeader t).length = 14 := rfl

@[simp] theorem keyIpv4Header_length (k : Byte) : (keyIpv4Header k).length = 20 := rfl

theorem rd16_keyEthHeader (t : Half) (r : List Byte) : rd16 (keyEthHeader t ++ r) 12 = t := by
  rw [keyEthHeader, List.append_assoc, rd16_append_right _ _ 12 (by simp)]
  exact rd16_be16 t r

theorem isArpFrame_keyFrame (w : Word) : isArpFrame (keyFrame .arpop w) := by
  refine ⟨by simp [keyFrame], ?_⟩
  rw [keyFrame, List.append_assoc, List.append_assoc]
  exact rd16_keyEthHeader _ _

theorem rd16_keyFrame_arpop (w : Word) : rd16 (keyFrame .arpop w) 20 = w.setWidth 16 := by
  rw [keyFrame, List.append_assoc, rd16_append_right _ _ 20 (by simp)]
  exact rd16_be16 _ _

/-- The headers before an upper-layer view, with no options between. -/
def keyIpv4Frame (protocol : Byte) (u : List Byte) : List Byte := keyEthHeader 0x0800 ++ keyIpv4Header protocol ++ u

section Ipv4

variable (k : Byte) (u : List Byte)

theorem rd8_keyIpv4Frame_version : rd8 (keyIpv4Frame k u) 14 = 0x45 := rfl

theorem rd8_keyIpv4Frame_protocol : rd8 (keyIpv4Frame k u) 23 = k := rfl

theorem ihlOf_keyIpv4Frame : ihlOf (keyIpv4Frame k u) = 5 := by
  rw [ihlOf, rd8_keyIpv4Frame_version]
  rfl

theorem isIpv4Frame_keyIpv4Frame : isIpv4Frame (keyIpv4Frame k u) := by
  have hlen : (keyIpv4Frame k u).length = 34 + u.length := by simp [keyIpv4Frame]; omega
  have hihl := ihlOf_keyIpv4Frame k u
  refine ⟨by omega, ?_, ?_, by omega, by omega⟩
  · rw [keyIpv4Frame, List.append_assoc]
    exact rd16_keyEthHeader _ _
  · rw [rd8_keyIpv4Frame_version]
    rfl

theorem upperOf_keyIpv4Frame : upperOf (keyIpv4Frame k u) = u := by
  rw [upperOf, ihlOf_keyIpv4Frame]
  exact List.drop_left' rfl

end Ipv4

/-- The TCP header that carries a key, with a data offset of 5 and zero but for its flags. -/
def keyTcpHeader (flags : BitVec 9) : List Byte := zeros 12 ++ be16 (0x5#4 ++ 0#3 ++ flags) ++ zeros 6

theorem rd16_keyTcpHeader (flags : BitVec 9) : rd16 (keyTcpHeader flags) 12 = 0x5#4 ++ 0#3 ++ flags := by
  rw [keyTcpHeader, List.append_assoc, rd16_append_right _ _ 12 (by simp)]
  exact rd16_be16 _ _

theorem doffOf_keyTcpHeader (flags : BitVec 9) : doffOf (keyTcpHeader flags) = 5 := by
  have h : (0x5#4 ++ 0#3 ++ flags).extractLsb' 12 4 = 0x5#4 := by
    rw [BitVec.append_assoc]
    exact extract_append_high (0x5#4) (0#3 ++ flags)
  rw [doffOf, rd16_keyTcpHeader, h]
  rfl

theorem flagsOf_keyTcpHeader (flags : BitVec 9) : flagsOf (keyTcpHeader flags) = flags := by
  rw [flagsOf, rd16_keyTcpHeader]
  exact extract_append_low (0x5#4 ++ 0#3) flags

theorem isTcpSegment_keyTcpHeader (flags : BitVec 9) : isTcpSegment (keyTcpHeader flags) := by
  have hlen : (keyTcpHeader flags).length = 20 := rfl
  have hdoff := doffOf_keyTcpHeader flags
  exact ⟨by omega, by omega, by omega⟩

theorem keyFrame_ipproto (w : Word) : keyFrame .ipproto w = keyIpv4Frame (w.setWidth 8) (zeros 20) := rfl

theorem keyFrame_icmptype (w : Word) : keyFrame .icmptype w = keyIpv4Frame 1 (w.setWidth 8 :: zeros 19) := rfl

theorem keyFrame_tcpflags (w : Word) : keyFrame .tcpflags w = keyIpv4Frame 6 (keyTcpHeader (w.setWidth 9)) := rfl

/-- The frame that carries a key selects the class the key decodes to, for every word. -/
theorem mem_frameClasses_keyFrame {fmt : Format} {w : Word} {i : Instr} (hfmt : fmt ≠ .cmd)
    (h : decode fmt w = .ok i) : i ∈ frameClasses (keyFrame fmt w) := by
  cases fmt with
  | cmd => exact absurd rfl hfmt
  | etype =>
    cases h
    have hmem := decodeEtype_mem_frameClasses (f := keyFrame .etype w) (by simp [keyFrame])
    rwa [keyFrame, rd16_keyEthHeader] at hmem
  | arpop =>
    cases h
    have hmem := decodeArpOp_mem_frameClasses (isArpFrame_keyFrame w)
    rwa [rd16_keyFrame_arpop] at hmem
  | ipproto =>
    cases h
    rw [keyFrame_ipproto]
    have hmem := decodeIpProto_mem_frameClasses (isIpv4Frame_keyIpv4Frame (w.setWidth 8) (zeros 20))
    rwa [rd8_keyIpv4Frame_protocol] at hmem
  | icmptype =>
    cases h
    rw [keyFrame_icmptype]
    have hmem := decodeIcmpType_mem_frameClasses (isIpv4Frame_keyIpv4Frame 1 (w.setWidth 8 :: zeros 19))
      (rd8_keyIpv4Frame_protocol _ _) (by simp [upperOf_keyIpv4Frame])
    rwa [upperOf_keyIpv4Frame] at hmem
  | tcpflags =>
    cases h
    rw [keyFrame_tcpflags]
    have hmem := decodeTcpFlags_mem_frameClasses (isIpv4Frame_keyIpv4Frame 6 (keyTcpHeader (w.setWidth 9)))
      (rd8_keyIpv4Frame_protocol _ _) (by rw [upperOf_keyIpv4Frame]; exact isTcpSegment_keyTcpHeader _)
    rwa [upperOf_keyIpv4Frame, flagsOf_keyTcpHeader] at hmem

end Sys2Proof.Machine
end

section
/-! PROOFS. The frame that carries a key selects and runs the key's class (O2, O7, O8), and an illegal opcode ends with
the command error (O5). -/

namespace Sys2Proof.Machine

/-- Settles O2: the key decodes to its instruction, and its frame selects what it decodes to. -/
theorem keyFrameSelectsItsClass : Obligations.KeyFrameSelectsItsClass :=
  fun _ hwf hfmt => mem_frameClasses_keyFrame hfmt (decode_encode hwf)

/-- Settles O7: the classes of a frame are the branches its dispatch takes, one key at a time. -/
theorem processRunsTheClassesOfItsFrame : Obligations.ProcessRunsTheClassesOfItsFrame :=
  fun _ _ => exec_process_class

/-! ## A word placed for fetching -/

theorem keyFrame_length_le (fmt : Format) (w : Word) : (keyFrame fmt w).length ≤ 54 := by
  cases fmt <;> simp [keyFrame]

/-- A frame that 16 bits can measure is handed over as it was put (47_dispatcher.md R271). -/
theorem handedOver_withFrame (s : State) (o : BitVec 8) {f : List Byte} (h : f.length < 65536) :
    handedOver (latchedNow (withFrame s f) o) = f := by
  have hlen : (BitVec.ofNat 16 f.length).toNat = f.length := by
    rw [BitVec.toNat_ofNat]
    exact Nat.mod_eq_of_lt h
  simp only [handedOver, latchedNow_inLen, withFrame_inLen, latchedNow_cfg, withFrame_cfg, hlen, Nat.sub_zero]
  exact bytesAt_inbound_written _ s.inMem 0 f rfl

/-- A latched opcode whose step comes next runs as the instruction it decodes to. -/
theorem step_latchedNow {s : State} {o : BitVec 8} {i : Instr} (h : decodeCommand o = .ok i) :
    step (latchedNow s o) = exec i (latchedNow s o) := by
  have hturn : engineTurn (latchedNow s o) = true := (engineTurn_iff _).2 ⟨rfl, .inr rfl⟩
  rw [step, if_pos hturn, engineStep_legal h]

theorem decode_cmd_ofNat (w : Nat) : decode .cmd (BitVec.ofNat 32 w) = decodeCommand (BitVec.ofNat 8 w) := by
  rw [decode, BitVec.setWidth_ofNat_of_le (by decide)]

theorem withFetchWord_cmd {s : State} {nbits w : Nat} (h : tableFormat nbits w = some .cmd) :
    s.withFetchWord nbits w = latchedNow s (BitVec.ofNat 8 w) := by
  rw [State.withFetchWord, h]

theorem withFetchWord_frame {s : State} {nbits w : Nat} {fmt : Format} (h : tableFormat nbits w = some fmt)
    (hfmt : fmt ≠ .cmd) :
    s.withFetchWord nbits w = latchedNow (withFrame s (keyFrame fmt (BitVec.ofNat 32 w))) 0x20 := by
  rw [State.withFetchWord, h]
  cases fmt with
  | cmd => exact absurd rfl hfmt
  | _ => rfl

/-- A table word is decoded in its table format. -/
theorem decode_of_decodeTableWord {nbits w : Nat} {i : Instr} (h : decodeTableWord nbits w = some i) :
    ∃ fmt, tableFormat nbits w = some fmt ∧ decode fmt (BitVec.ofNat 32 w) = .ok i := by
  unfold decodeTableWord at h
  split at h
  · next fmt hfmt =>
    refine ⟨fmt, hfmt, ?_⟩
    cases hdec : decode fmt (BitVec.ofNat 32 w) with
    | error e => rw [hdec] at h; cases h
    | ok j => rw [hdec] at h; cases h; rfl
  · cases h

/-- Settles O8: a command word is latched and runs; a frame word is carried by a frame whose `PROCESS` runs the class. -/
theorem tableWordRunsAsItsInstruction : Obligations.TableWordRunsAsItsInstruction := by
  intro s nbits w i h
  obtain ⟨fmt, hfmt, hdec⟩ := decode_of_decodeTableWord h
  by_cases hcmd : fmt = .cmd
  · subst hcmd
    rw [withFetchWord_cmd hfmt]
    exact step_latchedNow ((decode_cmd_ofNat w).symm.trans hdec)
  · have hclass := mem_frameClasses_keyFrame hcmd hdec
    have hlen := keyFrame_length_le fmt (BitVec.ofNat 32 w)
    rw [withFetchWord_frame hfmt hcmd, step_latchedNow (i := .process) rfl]
    exact exec_process_class (by rwa [handedOver_withFrame s 0x20 (by omega)])

/-! ## Illegal opcodes -/

/-- The opcode map has six opcodes (30_encoding.md R92). -/
theorem decodeCommand_error_iff (o : BitVec 8) :
    (∃ e, decodeCommand o = .error e) ↔
      ¬ (o = 0x01 ∨ o = 0x02 ∨ o = 0x03 ∨ o = 0x10 ∨ o = 0x11 ∨ o = 0x20) := by
  unfold decodeCommand
  split_ifs
  case neg => simp_all
  all_goals simp [*]

/-- Settles O5: the opcode map has six of the 256 opcodes, and the engine's step of another is the command error. -/
theorem illegalOpcodesEndWithCmdIllegal : Obligations.IllegalOpcodesEndWithCmdIllegal := by
  refine ⟨decodeCommand_error_iff, by decide +kernel, fun s v hidle => ?_, rfl, fun s e he => ?_⟩
  · rw [regWrite_cmd hidle]
    exact ⟨rfl, rfl⟩
  · exact ⟨_, engineStep_illegal he, commandError_kept s _ .cmdIllegal rfl⟩

end Sys2Proof.Machine
end

section
/-! SUPPORT. The one's-complement sum (40_checksum.md R140 to R149): the words of a byte sequence, folding as a relation
between numbers, the raw sum of a sequence put together of parts, and what a checksum command over a range does. -/

namespace Sys2Proof.Machine

/-! ## The words of a byte sequence (R140) -/

/-- The 16-bit big-endian words at even offsets, an odd last byte as the high byte of a last word (R140). -/
def sumWords (b : List Byte) : List Nat :=
  (List.range (b.length / 2)).map (fun k => (rd16 b (2 * k)).toNat)
    ++ (if b.length % 2 = 1 then [(rd8 b (b.length - 1)).toNat * 256] else [])

theorem sumWords_nil : sumWords [] = [] := rfl

theorem sumWords_singleton (x : Byte) : sumWords [x] = [x.toNat * 256] := by
  simp [sumWords, rd8]

theorem sumWords_cons_cons (x y : Byte) (b : List Byte) :
    sumWords (x :: y :: b) = (x.toNat * 256 + y.toNat) :: sumWords b := by
  have hhalf : (b.length + 1 + 1) / 2 = b.length / 2 + 1 := by omega
  have hodd : (b.length + 1 + 1) % 2 = b.length % 2 := by omega
  have hfirst : (rd16 (x :: y :: b) 0).toNat = x.toNat * 256 + y.toNat := rd16_toNat _ _
  have hrest : ((List.range (b.length / 2)).map Nat.succ).map (fun k => (rd16 (x :: y :: b) (2 * k)).toNat) =
      (List.range (b.length / 2)).map fun k => (rd16 b (2 * k)).toNat := by
    rw [List.map_map]
    rfl
  have hlast (h : b.length % 2 = 1) : rd8 (x :: y :: b) (b.length + 1) = rd8 b (b.length - 1) := by
    obtain ⟨n, hn⟩ : ∃ n, b.length = n + 1 := ⟨b.length - 1, by omega⟩
    simp [hn, rd8]
  simp only [sumWords, List.length_cons, hhalf, hodd, List.range_succ_eq_map, List.map_cons, List.cons_append,
    Nat.mul_zero, hfirst, hrest]
  refine congrArg (_ :: ·) (congrArg (_ ++ ·) (ite_congr rfl (fun h => ?_) fun _ => rfl))
  rw [Nat.add_sub_cancel, hlast h]

/-- The raw sum is the sum of the words (R140). -/
theorem wordSum_eq_sum_sumWords (b : List Byte) : wordSum b = (sumWords b).sum := by
  induction b using wordSum.induct with
  | case1 => rfl
  | case2 x => rw [sumWords_singleton, wordSum, List.sum_singleton]
  | case3 x y rest ih => rw [sumWords_cons_cons, wordSum, List.sum_cons, ih]

theorem sumWords_length (b : List Byte) : (sumWords b).length = (b.length + 1) / 2 := by
  simp only [sumWords, List.length_append, List.length_map, List.length_range]
  split <;> simp <;> omega

theorem le_of_mem_sumWords (b : List Byte) : ∀ w ∈ sumWords b, w ≤ 0xFFFF := by
  induction b using wordSum.induct with
  | case1 => simp [sumWords_nil]
  | case2 x =>
    have := x.isLt
    simp only [sumWords_singleton, List.mem_singleton, forall_eq]
    omega
  | case3 x y rest ih =>
    have := x.isLt
    have := y.isLt
    rw [sumWords_cons_cons, List.forall_mem_cons]
    exact ⟨by omega, ih⟩

/-- A sequence as long as a pseudo-header and the longest range has a raw sum of at most 32 bits. -/
theorem sumWords_sum_lt {b : List Byte} (h : b.length < 65548) : (sumWords b).sum < 2 ^ 32 := by
  have hle : (sumWords b).sum ≤ (sumWords b).length * 0xFFFF := List.sum_le_card_nsmul _ _ (le_of_mem_sumWords b)
  rw [sumWords_length] at hle
  omega

/-- Numbers that sum below 2^32 sum the same in an accumulator of 32 bits. -/
theorem foldl_word_toNat (ws : List Nat) (acc : Word) (h : acc.toNat + ws.sum < 2 ^ 32) :
    (ws.foldl (fun (acc : Word) w => acc + BitVec.ofNat 32 w) acc).toNat = acc.toNat + ws.sum := by
  induction ws generalizing acc with
  | nil => rfl
  | cons w ws ih =>
    rw [List.sum_cons] at h ⊢
    have hacc : (acc + BitVec.ofNat 32 w).toNat = acc.toNat + w := by
      rw [BitVec.toNat_add, BitVec.toNat_ofNat]
      omega
    rw [List.foldl_cons, ih _ (by omega), hacc, Nat.add_assoc]

/-! ## Folding (R140) -/

/-- `r` is the end-around-carry fold of `s`: `s` modulo 0xFFFF, taken in 1 to 0xFFFF unless `s` is 0. -/
structure IsFold (r s : Nat) : Prop where
  le : r ≤ 0xFFFF
  mod : r % 0xFFFF = s % 0xFFFF
  zero : r = 0 ↔ s = 0

theorem isFold_unique {r r' s : Nat} (h : IsFold r s) (h' : IsFold r' s) : r = r' := by
  obtain ⟨hle, hmod, hzero⟩ := h
  obtain ⟨hle', hmod', hzero'⟩ := h'
  omega

theorem isFold_sum16p (b : List Byte) : IsFold (sum16p b) (wordSum b) :=
  ⟨sum16p_le b, sum16p_mod b, sum16p_eq_zero b⟩

/-- The loop is a number of its turns (R140). -/
theorem foldCarry_eq_iterate (turns s : Nat) :
    ∃ n, foldCarry turns s = (fun s : Nat => (s &&& 0xFFFF) + (s >>> 16))^[n] s := by
  induction turns generalizing s with
  | zero => exact ⟨0, rfl⟩
  | succ turns ih =>
    rw [foldCarry]
    split
    · obtain ⟨n, hn⟩ := ih ((s &&& 0xFFFF) + (s >>> 16))
      exact ⟨n + 1, hn⟩
    · exact ⟨0, rfl⟩

/-- An addition with its carry folded at once (R140). -/
def addFold (s w : Nat) : Nat := if 0xFFFF < s + w then ((s + w) &&& 0xFFFF) + ((s + w) >>> 16) else s + w

theorem isFold_addFold {r s w : Nat} (h : IsFold r s) (hw : w ≤ 0xFFFF) : IsFold (addFold r w) (s + w) := by
  obtain ⟨hle, hmod, hzero⟩ := h
  rw [addFold, fold_turn]
  split
  · exact ⟨by omega, by omega, by omega⟩
  · exact ⟨by omega, by omega, by omega⟩

/-- Folding after every addition folds the sum. -/
theorem isFold_foldl_addFold {ws : List Nat} (hws : ∀ w ∈ ws, w ≤ 0xFFFF) {r s : Nat} (h : IsFold r s) :
    IsFold (ws.foldl addFold r) (s + ws.sum) := by
  induction ws generalizing r s with
  | nil => exact h
  | cons w ws ih =>
    obtain ⟨hw, hws⟩ := List.forall_mem_cons.1 hws
    rw [List.foldl_cons, List.sum_cons, ← Nat.add_assoc]
    exact ih hws (isFold_addFold h hw)

theorem isFold_foldl_sumWords (b : List Byte) : IsFold ((sumWords b).foldl addFold 0) (wordSum b) := by
  have hfold := isFold_foldl_addFold (le_of_mem_sumWords b) (⟨by decide, rfl, Iff.rfl⟩ : IsFold 0 0)
  rwa [Nat.zero_add, ← wordSum_eq_sum_sumWords] at hfold

/-! ## The raw sum of a whole (R148) -/

theorem wordSum_eq_zero_iff (b : List Byte) : wordSum b = 0 ↔ ∀ x ∈ b, x = 0 := by
  have hbyte (x : Byte) : x = 0 ↔ x.toNat = 0 := BitVec.toNat_eq
  induction b using wordSum.induct with
  | case1 => simp [wordSum]
  | case2 x =>
    rw [wordSum, List.forall_mem_singleton, hbyte]
    omega
  | case3 x y rest ih =>
    rw [wordSum, List.forall_mem_cons, List.forall_mem_cons, hbyte, hbyte, Nat.add_eq_zero_iff, ← and_assoc]
    exact and_congr (by omega) ih

/-- Bytes written at an even place are summed apart from the bytes around them. -/
theorem wordSum_patch {b c : List Byte} {k : Nat} (hk : k % 2 = 0) (hc : c.length % 2 = 0)
    (h : k + c.length ≤ b.length) :
    wordSum (patch b k c) = wordSum (b.take k) + wordSum c + wordSum (b.drop (k + c.length)) := by
  have htake : (b.take k).length = k := by
    rw [List.length_take]
    omega
  rw [patch, wordSum_append _ _ (by rw [List.length_append]; omega), wordSum_append _ _ (by omega)]

/-- Writing back what stands there changes nothing. -/
theorem patch_slice {b : List Byte} {k n : Nat} (h : k + n ≤ b.length) : patch b k (slice b k (k + n)) = b := by
  have hlen : (slice b k (k + n)).length = n := by
    rw [slice_length]
    omega
  rw [patch, hlen, slice, Nat.add_sub_cancel_left, List.append_assoc, ← List.drop_drop, List.take_append_drop,
    List.take_append_drop]

theorem wordSum_flatMap_be16 (ws : List Half) (tail : List Byte) :
    wordSum (ws.flatMap be16 ++ tail) = (ws.map BitVec.toNat).sum + wordSum tail := by
  induction ws with
  | nil => simp
  | cons w ws ih =>
    rw [List.flatMap_cons, List.append_assoc, wordSum_append _ _ (by simp), wordSum_be16, ih, List.map_cons,
      List.sum_cons, Nat.add_assoc]

theorem pseudoHeader_length (src dst : Ip) (n : Nat) : (pseudoHeader src dst n).length = 12 := rfl

theorem wordSum_pseudoHeader (src dst : Ip) (n : Nat) (seg : List Byte) :
    wordSum (pseudoHeader src dst n ++ seg) =
      wordSum (be32 src) + wordSum (be32 dst) + 6 + (BitVec.ofNat 16 n).toNat + wordSum seg := by
  have hfix : wordSum [0x00, 0x06] = 6 := rfl
  rw [wordSum_append _ _ (by rw [pseudoHeader_length]), pseudoHeader, wordSum_append _ _ (by simp),
    wordSum_append _ _ (by simp), wordSum_append _ _ (by simp), wordSum_be16, hfix]

/-- The checksum depends on the raw sum alone. -/
theorem sum16p_congr {b c : List Byte} (h : wordSum b = wordSum c) : sum16p b = sum16p c := by
  rw [sum16p, sum16p, h]

theorem csum16p_congr {b c : List Byte} (h : wordSum b = wordSum c) : csum16p b = csum16p c := by
  rw [csum16p, csum16p, sum16p_congr h]

theorem csum16p_eq_zero_iff (b : List Byte) : csum16p b = 0 ↔ sum16p b = 0xFFFF := by
  have hle := sum16p_le b
  have hzero : csum16p b = 0 ↔ (csum16p b).toNat = 0 := BitVec.toNat_eq
  rw [hzero, csum16p_toNat]
  omega

/-- A range whose checksum field, at an even place, holds the checksum of the range with that field 0 verifies. -/
theorem csum16p_patch_csum16p {b : List Byte} {k : Nat} (hk : k % 2 = 0) (h : k + 2 ≤ b.length) :
    csum16p (patch b k (be16 (csum16p (patch b k (zeros 2))))) = 0 := by
  have hle := sum16p_le (patch b k (zeros 2))
  have hfield := csum16p_toNat (patch b k (zeros 2))
  obtain ⟨-, hmod, hzero⟩ := isFold_sum16p (patch b k (zeros 2))
  have hblank : wordSum (patch b k (zeros 2)) = wordSum (b.take k) + wordSum (b.drop (k + 2)) := by
    rw [wordSum_patch hk (by simp) (by simpa using h), wordSum_zeros, zeros_length, Nat.add_zero]
  generalize csum16p (patch b k (zeros 2)) = c at hfield
  have hwhole : wordSum (patch b k (be16 c)) = wordSum (b.take k) + c.toNat + wordSum (b.drop (k + 2)) := by
    rw [wordSum_patch hk (by simp) (by simpa using h), wordSum_be16, be16_length]
  obtain ⟨hle', hmod', hzero'⟩ := isFold_sum16p (patch b k (be16 c))
  rw [csum16p_eq_zero_iff]
  omega

/-! ## A checksum command over a range (R141, R143) -/

/-- A command that ends in its one step with `P`, and leaves `OUT`, `OUT_LEN` and the cache. -/
def Completes (s : State) (r : Result) (P : State → Prop) : Prop :=
  ∃ t, r = .next t ∧ OutKept s t ∧ t.cache = s.cache ∧ P t

theorem commandError_completes (s : State) (d : Disposition) :
    Completes s (commandError s d) fun t => CommandEnds s t (plainReport d) true 0 0 := by
  obtain ⟨hends, hout, hcache⟩ := commandError_kept s _ d rfl
  exact ⟨_, rfl, hout, hcache, hends⟩

theorem csum16p_setWidth (b : List Byte) : (csum16p b).setWidth 32 = BitVec.ofNat 32 (0xFFFF - sum16p b) :=
  BitVec.setWidth_ofNat_of_le_of_lt (by decide) (by omega)

/-- The results of a checksum command, as numbers (30_encoding.md R95). -/
theorem csumResult_completes (s : State) (b : List Byte) :
    Completes s (csumResult s (csum16p b) (sum16p b)) fun t =>
      CommandEnds s t (plainReport .ok) false (BitVec.ofNat 32 (0xFFFF - sum16p b)) (BitVec.ofNat 32 (sum16p b)) := by
  obtain ⟨hends, hout, hcache⟩ := csumResult_kept s _ (csum16p b) (sum16p b) rfl
  exact ⟨_, rfl, hout, hcache, csum16p_setWidth b ▸ hends⟩

/-- The limit of a view is the valid length of its space (20_memory.md R69). -/
theorem validLen_argSpace (s : State) :
    validLen s (argSpace s) = if s.arg0.getLsbD 16 then s.outLen.toNat else s.inLen.toNat := by
  rw [argSpace]
  split <;> rfl

theorem validLen_le {s : State} (hl : LegalLengths s) (sp : Space) : validLen s sp ≤ s.cfg.maxFrameLen := by
  cases sp with
  | inbound => exact hl.inLen
  | outbound => exact hl.outLen

/-- The range named by the arguments (30_encoding.md R95). -/
def argRange (s : State) : List Byte := bytesAt s (argSpace s) (argOff s) (argLen s)

theorem csumView_eq {s : State} (hl : LegalLengths s) (h : argOff s + argLen s ≤ validLen s (argSpace s)) :
    csumView s = some (argRange s) :=
  (memRead_eq_some _ _ _ _ _).2 ⟨h.trans (validLen_le hl _), rfl⟩

/-- A command over a range ends with `CMD_RANGE` when the range goes beyond the valid data, and else as it does on the
bytes of the range (R141, 60_exceptions.md R311). -/
theorem rangeCommand_completes {s : State} (hl : LegalLengths s) {k : List Byte → Result} {P : State → Prop}
    (hk : Completes s (k (argRange s)) P) :
    Completes s (if csumOutOfRange s then commandError s .cmdRange else withView (csumView s) k) fun t =>
      if validLen s (argSpace s) < argOff s + argLen s then CommandEnds s t (plainReport .cmdRange) true 0 0
      else P t := by
  by_cases h : validLen s (argSpace s) < argOff s + argLen s
  · simp only [csumOutOfRange, h, decide_true, if_true]
    exact commandError_completes s .cmdRange
  · simp only [csumOutOfRange, h, decide_false, Bool.false_eq_true, if_false, csumView_eq hl (Nat.le_of_not_lt h)]
    exact hk

/-- `CSUM16` of an odd range is an error, of an even one the checksum (R143). -/
theorem execCsum16_completes {s : State} (hl : LegalLengths s) :
    Completes s (execCsum16 s) fun t =>
      if validLen s (argSpace s) < argOff s + argLen s then CommandEnds s t (plainReport .cmdRange) true 0 0
      else if argLen s % 2 = 1 then CommandEnds s t (plainReport .cmdCsumOdd) true 0 0
      else CommandEnds s t (plainReport .ok) false (BitVec.ofNat 32 (0xFFFF - sum16p (argRange s)))
        (BitVec.ofNat 32 (sum16p (argRange s))) := by
  refine rangeCommand_completes hl ?_
  have hlen : (argRange s).length = argLen s := bytesAt_length _ _ _ _
  by_cases hodd : argLen s % 2 = 1
  · simp only [csum16, hlen, hodd, if_true]
    exact commandError_completes s .cmdCsumOdd
  · have heven : argLen s % 2 = 0 := by omega
    simp only [csum16, hlen, heven, if_true]
    exact csumResult_completes s (argRange s)

/-- The segment's length is the length argument (R146). -/
theorem csumPseudo_result_completes (s : State) (b : List Byte)
    (hb : b = pseudoHeader (argIp s) (argDst s) (argLen s) ++ argRange s) :
    Completes s (csumResult s (tcpsum (argIp s) (argDst s) (argRange s))
        (sum16p (pseudoHeader (argIp s) (argDst s) (argLen s) ++ argRange s))) fun t =>
      CommandEnds s t (plainReport .ok) false (BitVec.ofNat 32 (0xFFFF - sum16p b)) (BitVec.ofNat 32 (sum16p b)) := by
  have hlen : (argRange s).length = argLen s := bytesAt_length _ _ _ _
  rw [tcpsum, hlen, ← hb]
  exact csumResult_completes s b

end Sys2Proof.Machine
end

section
/-! PROOFS. The Checksum Engine: the sum and its laws (O14, O15, O16), and its three commands (O17, O18, O19). -/

namespace Sys2Proof.Machine

/-- Settles O14: both ways of folding fold the same sum, and a sum has only one fold. -/
theorem sum16pFoldsTheWords : Obligations.Sum16pFoldsTheWords := by
  intro b words hwords
  obtain rfl : words = sumWords b := hwords
  have hsum := wordSum_eq_sum_sumWords b
  refine ⟨hsum, hsum ▸ foldCarry_eq_iterate _ _, sum16p_le b,
    isFold_unique (isFold_sum16p b) (isFold_foldl_sumWords b), fun hlen => ?_⟩
  have hacc := foldl_word_toNat (sumWords b) 0#32 (by simpa using sumWords_sum_lt hlen)
  rwa [BitVec.toNat_zero, Nat.zero_add] at hacc

/-- Settles O15: the five sequences evaluate; a turn of the loop is a sum of a remainder and a quotient. -/
theorem sumCornerCases : Obligations.SumCornerCases := by
  refine ⟨by decide, by decide, by decide, by decide, by decide, fun s hs => ?_⟩
  rw [fold_turn s, fold_turn]
  omega

/-- Settles O16: each law is one about the raw sum, which adds up the parts of a sequence. -/
theorem checksumLaws : Obligations.ChecksumLaws := by
  refine ⟨fun b k hk hlen hstored => ?_, fun ws ws' tail hperm => ?_, fun src dst seg => ?_,
    fun h a b hh ha hb => ?_, fun b => ⟨?_, fun hz => ?_, fun hnz => ?_, csum16p_eq_zero_iff b⟩⟩
  · have hverify := csum16p_patch_csum16p hk hlen
    rwa [← hstored, patch_slice hlen] at hverify
  · apply sum16p_congr
    rw [wordSum_flatMap_be16, wordSum_flatMap_be16, (hperm.map _).sum_eq]
  · apply csum16p_congr
    rw [wordSum_pseudoHeader, wordSum_pseudoHeader, Nat.add_comm (wordSum (be32 src))]
  · apply csum16p_congr
    have hha : (h ++ a).length % 2 = 0 := by rw [List.length_append, hh, ha]
    have hhb : (h ++ b).length % 2 = 0 := by rw [List.length_append, hh, hb]
    have hheven : h.length % 2 = 0 := by rw [hh]
    rw [wordSum_append _ _ hha, wordSum_append _ _ hhb, wordSum_append _ _ hheven, wordSum_append _ _ hheven,
      Nat.add_right_comm]
  · rw [sum16p_eq_zero, wordSum_eq_zero_iff]
  · rw [csum16p, hz]
    rfl
  · exact ⟨Nat.pos_of_ne_zero hnz, sum16p_le b⟩

/-- Settles O17: the range check, then the parity of the length. -/
theorem csum16Result : Obligations.Csum16Result := by
  refine ⟨rfl, ?_⟩
  rintro s _ _ _ _ hl rfl rfl rfl rfl
  rw [← validLen_argSpace]
  exact execCsum16_completes hl

/-- Settles O18: after the range check the results are those of the range. -/
theorem csum16pResult : Obligations.Csum16pResult := by
  refine ⟨rfl, ?_⟩
  rintro s _ _ _ _ hl rfl rfl rfl rfl
  rw [← validLen_argSpace]
  exact rangeCommand_completes hl (csumResult_completes s (argRange s))

/-- Settles O19: after the range check the results are those of the pseudo-header and the range. -/
theorem csumPseudoResult : Obligations.CsumPseudoResult := by
  refine ⟨rfl, ?_⟩
  rintro s _ _ _ _ b hl rfl rfl rfl rfl hb
  rw [← validLen_argSpace]
  exact rangeCommand_completes hl (csumPseudo_result_completes s b hb)

end Sys2Proof.Machine
end

section
/-! PROOFS. The Ethernet Codec's round trip (41_ethernet.md R162): the builder's three fields are read back one by one
at the offsets 0, 6 and 12. -/

namespace Sys2Proof.Machine

/-! ## The fields of the header built in reply -/

section Reply

variable (p : Params) (h : EthHeader) (r : List Byte)

@[simp] theorem ethBuildReply_length : (ethBuildReply p h).length = 14 := rfl

theorem rdMac_ethBuildReply_dst : rdMac (ethBuildReply p h ++ r) 0 = h.src := by
  rw [ethBuildReply, List.append_assoc, List.append_assoc, rdMac_macBytes]

theorem rdMac_ethBuildReply_src : rdMac (ethBuildReply p h ++ r) 6 = p.localMac := by
  rw [ethBuildReply, List.append_assoc, List.append_assoc, rdMac_append_right _ _ 6 (by simp), macBytes_length,
    rdMac_macBytes]

theorem rd16_ethBuildReply_ethertype : rd16 (ethBuildReply p h ++ r) 12 = h.ethertype := by
  rw [ethBuildReply, List.append_assoc, rd16_append_right _ _ 12 (by simp), List.length_append, macBytes_length,
    macBytes_length, rd16_be16]

/-- The reply's header decodes whatever payload follows it. -/
theorem ethDecode_ethBuildReply :
    ethDecode (ethBuildReply p h ++ r) = .ok { dst := h.src, src := p.localMac, ethertype := h.ethertype } := by
  rw [ethDecode_of_length _ (by simp), rdMac_ethBuildReply_dst, rdMac_ethBuildReply_src, rd16_ethBuildReply_ethertype]

end Reply

/-! ## The round trip -/

/-- Settles O45: the frame is long enough to decode, and the reply's header, with no payload, decodes to its fields. -/
theorem ethernetRoundTrip : Obligations.EthernetRoundTrip := by
  intro p f hlen
  refine ⟨ethOf f, ethDecode_of_length f hlen, rfl, ?_⟩
  have hreply := ethDecode_ethBuildReply p (ethOf f) []
  rwa [List.append_nil] at hreply

end Sys2Proof.Machine
end

section
/-! SUPPORT. What each outcome of a cache update needs and leaves (42_arp_cache.md R172), and how the two cache commands
end. -/

namespace Sys2Proof.Machine

/-! ## The outcomes of an update (R172) -/

theorem cacheIsFull_iff (cap : Option Nat) (c : Cache) : cacheIsFull cap c = true ↔ cap = some c.length := by
  cases cap with
  | none => simp [cacheIsFull]
  | some n => simp [cacheIsFull]

section Update

variable {cap : Option Nat} {c : Cache} {ip : Ip} {mac : Mac}

theorem cacheUpdate_absent_full (h : cacheLookup c ip = none) (hfull : cap = some c.length) :
    cacheUpdate cap c ip mac = (c, .full) := by
  simp [cacheUpdate, h, (cacheIsFull_iff cap c).2 hfull]

theorem cacheUpdate_absent_room (h : cacheLookup c ip = none) (hroom : cap ≠ some c.length) :
    cacheUpdate cap c ip mac = (cacheBind c ip mac, .inserted) := by
  simp [cacheUpdate, h, mt (cacheIsFull_iff cap c).1 hroom]

theorem cacheUpdate_bound_other {m : Mac} (h : cacheLookup c ip = some m) (hm : m ≠ mac) :
    cacheUpdate cap c ip mac = (cacheBind c ip mac, .changed) := by
  simp [cacheUpdate, h, hm]

theorem cacheUpdate_bound_same (h : cacheLookup c ip = some mac) : cacheUpdate cap c ip mac = (c, .unchanged) := by
  simp [cacheUpdate, h]

end Update

theorem cacheUpdate_other_key (cap : Option Nat) (c : Cache) (ip : Ip) (mac : Mac) {k : Ip} (h : k ≠ ip) :
    cacheLookup (cacheUpdate cap c ip mac).1 k = cacheLookup c k := by
  rcases cacheUpdate_cases cap c ip mac with ⟨-, -, e⟩ | ⟨-, -, e⟩ | ⟨_, -, -, e⟩ | ⟨-, e⟩ <;> rw [e]
  · exact cacheLookup_cacheBind_other c ip mac k h
  · exact cacheLookup_cacheBind_other c ip mac k h

/-- An update finds its own result in place: either it had found no room, and there is still none, or the key is now
bound to its MAC (R177). -/
theorem cacheUpdate_again (cap : Option Nat) (c : Cache) (ip : Ip) (mac : Mac) :
    ((cacheUpdate cap c ip mac).2 = .full ∧
      cacheUpdate cap (cacheUpdate cap c ip mac).1 ip mac = ((cacheUpdate cap c ip mac).1, .full)) ∨
    cacheUpdate cap (cacheUpdate cap c ip mac).1 ip mac = ((cacheUpdate cap c ip mac).1, .unchanged) := by
  rcases cacheUpdate_cases cap c ip mac with ⟨-, -, e⟩ | ⟨-, -, e⟩ | ⟨_, -, -, e⟩ | ⟨-, e⟩
  · exact .inl (by simp only [e, and_self])
  · exact .inr (by rw [e, cacheUpdate_bound_same (cacheLookup_cacheBind_same c ip mac)])
  · exact .inr (by rw [e, cacheUpdate_bound_same (cacheLookup_cacheBind_same c ip mac)])
  · exact .inr (by simp only [e])

/-! ## The cache commands (R175, R176) -/

/-- A found MAC in `RES0`: the flag `FOUND` above the first two bytes (30_encoding.md R96). -/
theorem macResHigh_eq_or (m : Mac) : macResHigh m = 0x00010000 ||| (m.extractLsb' 32 16).setWidth 32 := by
  rw [macResHigh, BitVec.append_def, BitVec.setWidth'_eq]
  rfl

theorem cacheLookup_completes (s : State) :
    Completes s (exec .cacheLookup s) fun t =>
      CommandEnds s t (plainReport .ok) false (lookupRes0 (cacheLookup s.cache s.arg2))
        (lookupRes1 (cacheLookup s.cache s.arg2)) :=
  ⟨_, rfl, endCommand_outKept _ _ _ _ _, rfl, endCommand_commandEnds _ _ _ _ _⟩

/-- The update that `CACHE_UPDATE` makes of the arguments (30_encoding.md R95). -/
def argUpdate (s : State) : Cache × CacheOutcome := cacheUpdate s.cfg.cacheCapacity s.cache (argIp s) (argMac s)

/-- `CACHE_UPDATE` ends with the cache and the report of its update. -/
theorem cacheUpdate_ends (s : State) :
    ∃ t, exec .cacheUpdate s = .next t ∧ OutKept s t ∧ t.cache = (argUpdate s).1 ∧
      CommandEnds s t (updateReport (argUpdate s).2) false 0 0 := by
  have hends := endCommand_commandEnds { s with cache := (argUpdate s).1 } (updateReport (argUpdate s).2) 0 0 false
  exact ⟨_, rfl, ⟨rfl, fun _ => rfl⟩, rfl, { hends with }⟩

/-- What the next state of a `CACHE_UPDATE` holds. -/
theorem cacheUpdate_next {s t : State} (ht : exec .cacheUpdate s = .next t) :
    t.cache = (argUpdate s).1 ∧ CommandEnds s t (updateReport (argUpdate s).2) false 0 0 := by
  obtain ⟨t', e, -, hcache, hends⟩ := cacheUpdate_ends s
  cases e.symm.trans ht
  exact ⟨hcache, hends⟩

/-- After `CACHE_UPDATE` the arguments are what they were, so the same command updates the cache it left. -/
theorem argUpdate_next {s t : State} (ht : exec .cacheUpdate s = .next t) :
    argUpdate t = cacheUpdate s.cfg.cacheCapacity (argUpdate s).1 (argIp s) (argMac s) := by
  obtain ⟨hcache, hends⟩ := cacheUpdate_next ht
  rw [argUpdate, argIp, argMac, hcache, hends.cfg, hends.arg0, hends.arg1, hends.arg2, argIp, argMac]

end Sys2Proof.Machine
end

section
/-! PROOFS. The cache commands: lookup (O21), update and its four outcomes (O22), the same update twice (O23), and an
update that replaces a MAC (O24). -/

namespace Sys2Proof.Machine

/-- Settles O21: the results are those of the lookup, found or not. -/
theorem cacheLookupResult : Obligations.CacheLookupResult := by
  refine ⟨rfl, fun s => ?_⟩
  obtain ⟨t, e, hout, hcache, hends⟩ := cacheLookup_completes s
  refine ⟨t, e, hout, hcache, fun m hfound => ?_, fun habsent => ?_⟩
  · rw [hfound] at hends
    exact macResHigh_eq_or m ▸ hends
  · rwa [habsent] at hends

/-- Settles O22: each clause's hypotheses single out one outcome of the update. -/
theorem cacheUpdateResult : Obligations.CacheUpdateResult := by
  refine ⟨rfl, ?_⟩
  rintro s _ _ hwf rfl rfl
  obtain ⟨t, e, hout, hcache, hends⟩ := cacheUpdate_ends s
  refine ⟨t, e, hout, fun k hk => ?_, fun habsent hfull => ?_, fun habsent hroom => ?_, fun m hbound hm => ?_,
    fun hbound => ?_⟩
  · rw [hcache]
    exact cacheUpdate_other_key _ _ _ _ hk
  · have hupd : argUpdate s = (s.cache, .full) := cacheUpdate_absent_full habsent hfull
    rw [hupd] at hcache hends
    exact ⟨hends, hcache⟩
  · have hupd : argUpdate s = (cacheBind s.cache (argIp s) (argMac s), .inserted) :=
      cacheUpdate_absent_room habsent hroom
    rw [hupd] at hcache hends
    refine ⟨hends, hcache ▸ cacheLookup_cacheBind_same _ _ _, ?_⟩
    rw [hcache, cacheBind_length _ _ _ hwf, if_pos (show cacheLookup s.cache (argIp s) = none from habsent)]
  · have hupd : argUpdate s = (cacheBind s.cache (argIp s) (argMac s), .changed) := cacheUpdate_bound_other hbound hm
    rw [hupd] at hcache hends
    refine ⟨hends, hcache ▸ cacheLookup_cacheBind_same _ _ _, ?_⟩
    rw [hcache, cacheBind_length _ _ _ hwf, if_neg (by simp [argIp, hbound])]
  · have hupd : argUpdate s = (s.cache, .unchanged) := cacheUpdate_bound_same hbound
    rw [hupd] at hcache hends
    exact ⟨hends, hcache⟩

/-- Settles O23: the second command makes the first one's update again. -/
theorem cacheUpdateIsIdempotent : Obligations.CacheUpdateIsIdempotent := by
  intro s t ht
  obtain ⟨hcache, hends⟩ := cacheUpdate_next ht
  obtain ⟨u, e, -, hcache', hends'⟩ := cacheUpdate_ends t
  rw [argUpdate_next ht] at hcache' hends'
  refine ⟨u, e, ?_⟩
  rcases cacheUpdate_again s.cfg.cacheCapacity s.cache (argIp s) (argMac s) with ⟨hfull, hupd⟩ | hupd
  · rw [argUpdate, hupd] at hcache' hends'
    have hreport := hends.report
    rw [argUpdate, hfull] at hreport
    exact ⟨hcache'.trans hcache.symm, .inr ⟨hreport, hends'.report⟩⟩
  · rw [argUpdate, hupd] at hcache' hends'
    exact ⟨hcache'.trans hcache.symm, .inl hends'.report⟩

/-- Settles O24: the update is a binding of the key, and the lookup's two results put the MAC together again. -/
theorem cacheUpdateSupersedes : Obligations.CacheUpdateSupersedes := by
  intro s t m1 hbound hm ht
  obtain ⟨hcache, hends⟩ := cacheUpdate_next ht
  have hnew : cacheLookup t.cache s.arg2 = some (s.arg0.extractLsb' 0 16 ++ s.arg1) := by
    have hupd : argUpdate s = (cacheBind s.cache (argIp s) (argMac s), .changed) := cacheUpdate_bound_other hbound hm
    rw [hcache, hupd]
    exact cacheLookup_cacheBind_same _ _ _
  obtain ⟨u, e, -, -, hu⟩ := cacheLookup_completes t
  rw [hends.arg2, hnew] at hu
  refine ⟨hnew, u, e, ?_, ?_⟩
  · rw [hu.res0, lookupRes0, macResHigh_eq_or, extract_append_high]
  · rw [hu.res1, lookupRes1, macResLow, extract_append_low]

end Sys2Proof.Machine
end

section
/-! PROOFS. Who writes the cache (O27): a run over the frame leaves the cache as the run has it, and outside the ARP path
that is the cache it started from. -/

namespace Sys2Proof.Machine

/-! ## The cache after a run -/

theorem endProcess_cache {s t : State} {r : Run} (ht : endProcess s r = .next t) : t.cache = r.cache := by
  rcases endProcess_cases s r with
    ⟨d, x, -, -, e⟩ | ⟨d, x, t', -, -, e, rfl⟩ | ⟨d, t', -, e, -, hcache, -⟩ | ⟨d, t', -, e, -, hcache, -⟩
  · cases e.symm.trans ht
  · cases e.symm.trans ht
    rfl
  · cases e.symm.trans ht
    exact hcache
  · cases e.symm.trans ht
    exact hcache

/-- A meaning over the frame leaves the cache of its run. -/
theorem onFrame_cache {s t : State} {k : EthHeader → List Byte → Run} (ht : onFrame s k = .next t) :
    t.cache = (orMalformed (ethDecode (handedOver s)) s.cache fun eth => k eth (handedOver s)).cache := by
  rcases onFrame_cases s k with ⟨-, e⟩ | e
  · cases e.symm.trans ht
  · exact endProcess_cache (e ▸ ht)

/-- A decode that fails leaves the cache, so the run leaves it when what follows the decode does. -/
theorem orMalformed_cache {α : Type} (d : Except Disposition α) {c : Cache} {k : α → Run} (hk : ∀ a, (k a).cache = c) :
    (orMalformed d c k).cache = c := by
  cases d with
  | error _ => rfl
  | ok a => exact hk a

/-! ## Every instruction -/

/-- A command that processes no frame writes the cache only if it is `CACHE_UPDATE`. -/
theorem exec_other_cache {s t : State} {i : Instr} (hi : processesFrame i = false) (hne : i ≠ .cacheUpdate)
    (ht : exec i s = .next t) : t.cache = s.cache := by
  obtain ⟨-, -, hcache, -⟩ := exec_other s t i hi ht
  exact hcache hne

/-- The instructions that can write the cache: the update, `PROCESS` and the ARP classes that merge. -/
def cacheWriters : List Instr :=
  [.cacheUpdate, .process, .ethArp, .arpRequest, .arpReply, .arpRarpRequest, .arpRarpReply]

/-- Every other frame class makes one or two decodes, and then a run that has the cache it was given. -/
theorem exec_cache_of_not_writer {s t : State} {i : Instr} (ht : exec i s = .next t) (hi : i ∉ cacheWriters) :
    t.cache = s.cache := by
  cases i with
  | cacheUpdate | process | ethArp | arpRequest | arpReply | arpRarpRequest | arpRarpReply =>
    exact absurd hi (by decide)
  | csum16 | csum16p | csumPseudo | cacheLookup => exact exec_other_cache rfl Instr.noConfusion ht
  | ethOther key => exact (onFrame_cache ht).trans <| orMalformed_cache _ fun _ => rfl
  | arpBadOpcode key | ethIpv4 | ipIcmp | ipIgmp | ipTcp | ipUdp | ipOther key | icmpEchoRequest | icmpEchoReply
  | icmpType3 | icmpType4 | icmpType5 | icmpType9 | icmpType10 | icmpType11 | icmpType12 | icmpOther key
  | tcpPureSyn | tcpOther key =>
    exact (onFrame_cache ht).trans <| orMalformed_cache _ fun _ => orMalformed_cache _ fun _ => rfl

/-- Settles O27: no other instruction writes the cache, and `PROCESS` leaves it when its run is not on the ARP path. -/
theorem onlyArpAndUpdateWriteTheCache : Obligations.OnlyArpAndUpdateWriteTheCache :=
  ⟨fun _ _ _ => exec_cache_of_not_writer, fun _ _ ht htype => (onFrame_cache ht).trans (processRun_cache _ _ _ htype)⟩

end Sys2Proof.Machine
end

section
/-! PROOFS. The ARP frame classes (43_arp.md R191 to R198): requests (O30), replies and the RARP messages (O31), and the
opcodes that are malformed (O32). `PROCESS` runs the class of the frame's opcode, so each class is looked at alone. -/

namespace Sys2Proof.Machine

/-! ## The ends of a merge -/

/-- A merge with an informational ending drops the frame (R196 to R198). -/
theorem arpMerge_finish (s : State) (f : List Byte) (d : Disposition) :
    ∃ t, endProcess s (arpMerge s.cfg s.cache (arpOf f) (.finish d)) = .next t ∧
      Dropped s t (arpReport s f d) false ∧ t.cache = (senderMerge s f).1 :=
  endProcess_finish s _ d rfl

/-- A merge with a reply that fits in `OUT` emits it (R194). -/
theorem arpMerge_emit (s : State) (f : List Byte) (d : Disposition) {reply : List Byte}
    (hfits : reply.length ≤ s.cfg.maxFrameLen) (h16 : reply.length < 65536) :
    ∃ t, endProcess s (arpMerge s.cfg s.cache (arpOf f) (.emit d reply)) = .next t ∧
      Replied s t (arpReport s f d) reply ∧ t.cache = (senderMerge s f).1 :=
  endProcess_emit s _ d reply rfl hfits h16

/-! ## The runs of the classes -/

section Classes

variable {s : State} (hf : isArpFrame (handedOver s))
include hf

/-- The key `ARPOP` of an ARP frame selects the class that `PROCESS` runs (30_encoding.md R108). -/
theorem exec_process_arpOp {op : Half} (hop : rd16 (handedOver s) 20 = op) :
    exec .process s = exec (decodeArpOp op) s :=
  hop ▸ exec_process_class (decodeArpOp_mem_frameClasses hf)

/-- The class `ARP_REQUEST` in the frame's own terms (R194 to R196). -/
theorem exec_arpRequest_frame (hl : LegalLengths s) :
    exec .arpRequest s = endProcess s (arpMerge s.cfg s.cache (arpOf (handedOver s))
      (if rd32 (handedOver s) 38 = s.cfg.localIp then .emit .arpReply (arpReplyBytes s.cfg (handedOver s))
       else .finish .arpRequestNotLocal)) := by
  have hreply : ethBuildReply s.cfg (ethOf (handedOver s)) ++ arpReplyMessage s.cfg (arpOf (handedOver s)) =
      arpReplyBytes s.cfg (handedOver s) := arpReply_frame s.cfg _ hf.1
  rw [← hreply]
  exact onArp_ok s _ hl hf

end Classes

/-! ## The obligations -/

/-- Settles O30: the request's run is a merge, whose ending is chosen by the target address. -/
theorem arpRequestsAreMergedAndAnswered : Obligations.ArpRequestsAreMergedAndAnswered := by
  rintro s _ hl rfl hf hop
  have hprocess : exec .process s = exec .arpRequest s := exec_process_arpOp hf hop
  have hlen : (arpReplyBytes s.cfg (handedOver s)).length = 42 := arpReplyBytes_length _ _ hf.1
  have hroom := hl.room
  rw [hprocess, exec_arpRequest_frame hf hl]
  by_cases htarget : rd32 (handedOver s) 38 = s.cfg.localIp
  · simp only [if_pos htarget]
    obtain ⟨t, e, hreplied, hcache⟩ := arpMerge_emit s (handedOver s) .arpReply (hlen.trans_le (by omega)) (by omega)
    exact ⟨t, e, e, hcache, hreplied, hlen⟩
  · simp only [if_neg htarget]
    obtain ⟨t, e, hdropped, hcache⟩ := arpMerge_finish s (handedOver s) .arpRequestNotLocal
    exact ⟨t, e, e, hcache, hdropped⟩

/-- Settles O31: the run of each of the three classes is a merge with an informational ending. -/
theorem arpRepliesAndRarpAreMerged : Obligations.ArpRepliesAndRarpAreMerged := by
  rintro s _ hl rfl hf op i d hmem hop
  have hclass : exec .process s = exec i s ∧
      exec i s = endProcess s (arpMerge s.cfg s.cache (arpOf (handedOver s)) (.finish d)) := by
    have hprocess := exec_process_arpOp hf hop
    simp only [List.mem_cons, Prod.mk.injEq, List.not_mem_nil, or_false] at hmem
    rcases hmem with ⟨rfl, rfl, rfl⟩ | ⟨rfl, rfl, rfl⟩ | ⟨rfl, rfl, rfl⟩ <;> exact ⟨hprocess, onArp_ok s _ hl hf⟩
  obtain ⟨hprocess, hrun⟩ := hclass
  obtain ⟨t, e, hdropped, hcache⟩ := arpMerge_finish s (handedOver s) d
  exact ⟨t, hprocess.trans (hrun.trans e), hrun.trans e, hdropped, hcache⟩

/-- Settles O32: the default class of the opcode makes no merge and raises. -/
theorem badArpOpcodesAreMalformed : Obligations.BadArpOpcodesAreMalformed := by
  rintro s _ hl rfl hf h1 h2 h3 h4
  have hbad : decodeArpOp (rd16 (handedOver s) 20) = .arpBadOpcode (rd16 (handedOver s) 20) := by
    rw [decodeArpOp, if_neg h1, if_neg h2, if_neg h3, if_neg h4]
  have hprocess := exec_process_arpOp hf rfl
  rw [hbad] at hprocess
  have hrun : exec (.arpBadOpcode (rd16 (handedOver s) 20)) s = endProcess s (arpBadOpcodeRun s.cache) :=
    onArp_ok s _ hl hf
  obtain ⟨t, e, hdropped, hcache⟩ := endProcess_raise s (arpBadOpcodeRun s.cache) .arpBadOpcode rfl
  exact ⟨t, hprocess.trans (hrun.trans e), hrun.trans e, hdropped, hcache⟩

end Sys2Proof.Machine
end

section
/-! SUPPORT. `PROCESS` as the end of its run (47_dispatcher.md R270, R274): what its next state says of the run, and what
another cache would change in it. -/

namespace Sys2Proof.Machine

/-! ## From the run to the next state -/

/-- `PROCESS` on a frame view that is defined ends the run of that frame. -/
theorem exec_process_of_frameView {s : State} {f : List Byte} (hf : frameView s = some f) :
    exec .process s = endProcess s (processRun s.cfg s.cache f) := by
  change withView (frameView s) (fun f => endProcess s (processRun s.cfg s.cache f)) = _
  rw [hf]
  rfl

/-- A `PROCESS` that has a next state had its frame view, and ended the run of the frame handed over. -/
theorem exec_process_next {s t : State} (ht : exec .process s = .next t) :
    frameView s = some (handedOver s) ∧ endProcess s (processRun s.cfg s.cache (handedOver s)) = .next t := by
  cases hf : frameView s with
  | none =>
    change withView (frameView s) _ = _ at ht
    rw [hf] at ht
    cases ht
  | some f =>
    obtain rfl := frameView_some s f hf
    exact ⟨rfl, exec_process_of_frameView hf ▸ ht⟩

theorem endProcess_report {s t : State} {r : Run} (ht : endProcess s r = .next t) : t.report = runReport r := by
  rcases endProcess_cases s r with
    ⟨d, x, -, -, e⟩ | ⟨d, x, t', -, -, e, rfl⟩ | ⟨d, t', -, e, -, -, rfl⟩ | ⟨d, t', -, e, -, -, rfl⟩ <;>
  cases e.symm.trans ht <;> rfl

/-- The disposition reported is the frame's first one (60_exceptions.md R309). -/
theorem process_disposition {s t : State} (ht : exec .process s = .next t) :
    t.report.disp = firstDisposition s.cfg.localIp (handedOver s) := by
  obtain ⟨-, hrun⟩ := exec_process_next ht
  rw [endProcess_report hrun, runReport, processRun_ending, endingFor_code]

/-- A disposition that stands for a reply puts the bytes of that reply in the valid part of `OUT`. -/
theorem process_reply {s t : State} (hl : LegalLengths s) (ht : exec .process s = .next t) {d : Disposition}
    {reply : List Byte} (hdisp : t.report.disp = d) (hd : endingFor s.cfg (handedOver s) d = .emit d reply) :
    bytesAt t .outbound 0 t.outLen.toNat = reply := by
  obtain ⟨-, hrun⟩ := exec_process_next ht
  have hending : (processRun s.cfg s.cache (handedOver s)).ending = .emit d reply := by
    rw [processRun_ending, ← process_disposition ht, hdisp, hd]
  have hgood := (processRun_good s hl).ending
  rw [hending] at hgood
  obtain ⟨hfits, h16, -⟩ := hgood
  obtain ⟨t', e, hreplied, -⟩ := endProcess_emit s _ d reply hending hfits h16
  cases e.symm.trans hrun
  rw [hreplied.outLen, hreplied.outBytes]

/-! ## With another cache -/

/-- Outside the ARP path a run only carries the cache along. -/
theorem processRun_withCache (p : Params) (c c' : Cache) {f : List Byte} (htype : rd16 f 12 ≠ 0x0806) :
    processRun p c' f = { processRun p c f with cache := c' } := by
  by_cases h4 : isIpv4Frame f
  · rw [processRun_ipv4 p c f h4, processRun_ipv4 p c' f h4]
    rfl
  · have harp : ¬ (isArpFrame f ∧ (rd16 f 20 = 1 ∨ rd16 f 20 = 2 ∨ rd16 f 20 = 3 ∨ rd16 f 20 = 4)) :=
      fun h => htype h.1.2
    rw [processRun_other p c f h4 harp, processRun_other p c' f h4 harp]
    rfl

/-- The end of a run writes the run's cache and reads none. -/
theorem endProcess_withCache {s t : State} {r : Run} (c : Cache) (ht : endProcess s r = .next t) :
    endProcess { s with cache := c } { r with cache := c } = .next { t with cache := c } := by
  obtain ⟨ending, _, _, _, _⟩ := r
  cases ending with
  | emit d reply =>
    simp only [endProcess, emitReply] at ht ⊢
    split at ht
    · cases ht
    · next hfits =>
      cases ht
      exact if_neg hfits
  | finish d =>
    cases ht
    rfl
  | raise d =>
    cases ht
    rfl

/-- Outside the ARP path `PROCESS` does the same with any other cache, and leaves that cache. -/
theorem exec_process_withCache {s t : State} (c : Cache) (htype : rd16 (handedOver s) 12 ≠ 0x0806)
    (ht : exec .process s = .next t) : exec .process { s with cache := c } = .next { t with cache := c } := by
  obtain ⟨hview, hrun⟩ := exec_process_next ht
  have hview' : frameView { s with cache := c } = some (handedOver s) := hview
  rw [exec_process_of_frameView hview', processRun_withCache s.cfg s.cache c htype]
  exact endProcess_withCache c hrun

end Sys2Proof.Machine
end

section
/-! PROOFS. The IPv4 path of `PROCESS`: the cache it does not touch (O28) and its dispatch on the protocol (O33). -/

namespace Sys2Proof.Machine

/-- Settles O28: the ether-type keeps the frame off the ARP path, the only one that reads or writes the cache. -/
theorem ipv4PathIgnoresTheCache : Obligations.Ipv4PathIgnoresTheCache := by
  intro s t c htype ht
  have harp : rd16 (handedOver s) 12 ≠ 0x0806 := by
    rw [htype]
    decide
  exact ⟨onlyArpAndUpdateWriteTheCache.2 s t ht harp, exec_process_withCache c harp ht⟩

/-! ## The dispatch on the protocol -/

section Protocol

variable {s : State} (hf : isIpv4Frame (handedOver s))
include hf

/-- The key `IPPROTO` of an IPv4 frame selects the class that `PROCESS` runs (30_encoding.md R108). -/
theorem exec_process_ipProto {i : Instr} (hi : decodeIpProto (rd8 (handedOver s) 23) = i) :
    exec .process s = exec i s :=
  hi ▸ exec_process_class (decodeIpProto_mem_frameClasses hf)

/-- A class of the protocol with an informational ending drops the frame with the checksum flag (R213, R214). -/
theorem ipProto_dropped (hl : LegalLengths s) {i : Instr} {d : Disposition}
    (hi : decodeIpProto (rd8 (handedOver s) 23) = i) (hclass : exec i s = onIpv4 s fun _ _ _ => .finish d) :
    ∃ t, exec .process s = .next t ∧ exec i s = .next t ∧ Dropped s t (ipv4Report (handedOver s) d) false ∧
      t.cache = s.cache := by
  obtain ⟨t, e, hdropped, hcache⟩ := ipv4_finish s (ipv4Header ((handedOver s).drop 14)) (.finish d) d rfl
  rw [ipv4Run_report _ _ _ hf.1] at hdropped
  have hrun : exec i s = .next t := by rw [hclass, onIpv4_ok s _ hl hf, e]
  exact ⟨t, (exec_process_ipProto hf hi).trans hrun, hrun, hdropped, hcache⟩

end Protocol

/-- Settles O33: the protocol's class is what `PROCESS` runs, and three of the five classes have an informational end. -/
theorem ipv4ProtocolDispatch : Obligations.Ipv4ProtocolDispatch := by
  rintro s _ hl rfl hf
  refine ⟨fun h1 => ?_, fun h6 => ?_, fun h17 => ?_, fun h2 => ?_, fun h1 h6 h17 h2 => ?_⟩
  · exact exec_process_ipProto hf (by rw [h1]; rfl)
  · exact exec_process_ipProto hf (by rw [h6]; rfl)
  · exact ipProto_dropped hf hl (by rw [h17]; rfl) rfl
  · exact ipProto_dropped hf hl (by rw [h2]; rfl) rfl
  · have hother : decodeIpProto (rd8 (handedOver s) 23) = .ipOther (rd8 (handedOver s) 23) := by
      rw [decodeIpProto, if_neg h1, if_neg h2, if_neg h6, if_neg h17]
    exact ipProto_dropped hf hl hother rfl

end Sys2Proof.Machine
end

section
/-! SUPPORT. Ranges with a checksum field at an even place: a field that was filled in verifies, and a field that
verifies holds what filling in writes (40_checksum.md R148). -/

namespace Sys2Proof.Machine

theorem csum16_of_even {b : List Byte} (h : b.length % 2 = 0) : csum16 b = some (csum16p b) := if_pos h

/-- A range around a checksum field that holds the checksum of the range with the field 0 verifies. -/
theorem csum16p_filled {a : List Byte} (ha : a.length % 2 = 0) (b : List Byte) :
    csum16p (a ++ be16 (csum16p (a ++ be16 0 ++ b)) ++ b) = 0 := by
  have hlen : a.length + 2 ≤ (a ++ be16 0 ++ b).length := by simp
  have hpatch (x : List Byte) (hx : x.length = 2) : patch (a ++ be16 0 ++ b) a.length x = a ++ x ++ b :=
    patch_append a (be16 0) b x hx.symm
  have hverify := csum16p_patch_csum16p ha hlen
  rwa [hpatch _ rfl, hpatch _ rfl] at hverify

/-- In a range that verifies the field holds the checksum of the range with the field 0, unless it holds 0xFFFF: the
other words then sum to a multiple of 0xFFFF, and their checksum is 0. -/
theorem csum16p_blanked {b : List Byte} {k : Nat} (hk : k % 2 = 0) (hlen : k + 2 ≤ b.length) (hverify : csum16p b = 0)
    (hnz : wordSum (patch b k (zeros 2)) ≠ 0) :
    csum16p (patch b k (zeros 2)) = if rd16 b k = 0xFFFF then 0 else rd16 b k := by
  have hwhole : wordSum b = wordSum (patch b k (zeros 2)) + (rd16 b k).toNat := by
    conv_lhs => rw [← patch_slice hlen, slice_two b k hlen]
    rw [wordSum_patch hk (by simp) (by simpa using hlen), wordSum_patch hk (by simp) (by simpa using hlen),
      wordSum_be16, wordSum_zeros, be16_length, zeros_length]
    omega
  have hsum := (csum16p_eq_zero_iff b).1 hverify
  have hfield := (rd16 b k).isLt
  obtain ⟨-, hmod, -⟩ := isFold_sum16p b
  obtain ⟨hle, hmod', hzero⟩ := isFold_sum16p (patch b k (zeros 2))
  apply BitVec.eq_of_toNat_eq
  rw [csum16p_toNat]
  split
  · next h =>
    have : (rd16 b k).toNat = 0xFFFF := by rw [h]; rfl
    change _ = 0
    omega
  · next h =>
    have : (rd16 b k).toNat ≠ 0xFFFF := fun e => h (BitVec.eq_of_toNat_eq e)
    omega

end Sys2Proof.Machine
end

section
/-! PROOFS. The IPv4 header built in reply (44_ipv4.md R215 to R217): its bytes in terms of the header's, the fields read
back from them, and the checksum, which the exchange of the addresses leaves alone (O46). -/

namespace Sys2Proof.Machine

/-! ## The header of a view of at least 20 bytes -/

theorem ipv4Decode_ok_inv {p : List Byte} {h : Ipv4Header} (hdec : ipv4Decode p = .ok h) :
    20 ≤ p.length ∧ h = ipv4Header p ∧ h.version = 4 := by
  unfold ipv4Decode at hdec
  split_ifs at hdec with hlen hversion
  cases hdec
  exact ⟨by omega, rfl, not_not.1 hversion⟩

theorem ipv4Header_raw20_take (p : List Byte) : (ipv4Header p).raw20.take 10 = p.take 10 := by
  change (p.take 20).take 10 = p.take 10
  rw [List.take_take]
  rfl

theorem ipv4Header_raw20_checksum (p : List Byte) : rd16 (ipv4Header p).raw20 10 = (ipv4Header p).headerChecksum := by
  change rd16 (p.take 20) 10 = rd16 p 10
  rw [rd16, rd16, rd8_take p 20 10 (by decide), rd8_take p 20 (10 + 1) (by decide)]

section Header

variable {p : List Byte} (hlen : 20 ≤ p.length)
include hlen

theorem ipv4Header_raw20_length : (ipv4Header p).raw20.length = 20 := by
  change (slice p 0 20).length = 20
  rw [slice_length]
  omega

/-- The raw header ends with the source and the destination (30_encoding.md R103). -/
theorem ipv4Header_raw20_drop :
    (ipv4Header p).raw20.drop 12 = be32 (ipv4Header p).sourceIp ++ be32 (ipv4Header p).destIp := by
  have hdrop : (p.take 20).drop 12 = slice p 12 20 := List.drop_take
  change (p.take 20).drop 12 = be32 (rd32 p 12) ++ be32 (rd32 p 16)
  rw [hdrop, ← slice_four p 12 (by omega), ← slice_four p 16 (by omega),
    slice_eq_append p 12 16 20 (by omega) (by omega)]

end Header

/-! ## Rebuilding a header -/

/-- A header with the first ten bytes of `p` and another checksum, source and destination. -/
def rebuiltHeader (p : List Byte) (checksum : Half) (src dst : Ip) : List Byte :=
  p.take 10 ++ be16 checksum ++ (be32 src ++ be32 dst)

section Rebuilt

variable {p : List Byte} (hlen : 20 ≤ p.length) (c : Half) (src dst : Ip)
include hlen

theorem rebuiltHeader_length : (rebuiltHeader p c src dst).length = 20 := by
  simp [rebuiltHeader]
  omega

theorem rd8_rebuiltHeader {i : Nat} (hi : i < 10) : rd8 (rebuiltHeader p c src dst) i = rd8 p i := by
  rw [rebuiltHeader, List.append_assoc, rd8_append_left _ _ i (by rw [List.length_take]; omega), rd8_take p 10 i hi]

theorem rd16_rebuiltHeader {i : Nat} (hi : i + 1 < 10) : rd16 (rebuiltHeader p c src dst) i = rd16 p i := by
  rw [rd16, rd16, rd8_rebuiltHeader hlen c src dst (by omega), rd8_rebuiltHeader hlen c src dst hi]

theorem rd16_rebuiltHeader_checksum : rd16 (rebuiltHeader p c src dst) 10 = c := by
  have htake : (p.take 10).length = 10 := by rw [List.length_take]; omega
  rw [rebuiltHeader, List.append_assoc, rd16_append_right _ _ 10 htake.le, htake, rd16_be16]

theorem rd32_rebuiltHeader_source : rd32 (rebuiltHeader p c src dst) 12 = src := by
  have hfront : (p.take 10 ++ be16 c).length = 12 := by simp; omega
  rw [rebuiltHeader, rd32_append_right _ _ 12 hfront.le, hfront, rd32_be32]

theorem rd32_rebuiltHeader_dest : rd32 (rebuiltHeader p c src dst) 16 = dst := by
  have hfront : (p.take 10 ++ be16 c ++ be32 src).length = 16 := by simp; omega
  have hread := rd32_append_right (p.take 10 ++ be16 c ++ be32 src) (be32 dst ++ []) 16 hfront.le
  rw [hfront, rd32_be32, List.append_nil, List.append_assoc] at hread
  exact hread

theorem wordSum_rebuiltHeader :
    wordSum (rebuiltHeader p c src dst) =
      wordSum (p.take 10) + c.toNat + (wordSum (be32 src) + wordSum (be32 dst)) := by
  have htake : (p.take 10).length = 10 := by rw [List.length_take]; omega
  rw [rebuiltHeader, wordSum_append _ _ (by rw [List.length_append, htake, be16_length]),
    wordSum_append _ _ (by rw [htake]), wordSum_append (be32 src) _ (by simp), wordSum_be16]

/-- Every field but the four that were given is read from the first ten bytes (R211). -/
theorem ipv4Header_rebuiltHeader :
    ipv4Header (rebuiltHeader p c src dst) =
      { ipv4Header p with
        sourceIp := src, destIp := dst, headerChecksum := c, raw20 := rebuiltHeader p c src dst } := by
  have hraw : slice (rebuiltHeader p c src dst) 0 20 = rebuiltHeader p c src dst :=
    List.take_of_length_le (rebuiltHeader_length hlen c src dst).le
  simp only [ipv4Header, hraw, rd32_rebuiltHeader_source hlen, rd32_rebuiltHeader_dest hlen,
    rd16_rebuiltHeader_checksum hlen, rd16_rebuiltHeader hlen, rd8_rebuiltHeader hlen, Nat.reduceAdd, Nat.reduceLT]

end Rebuilt

/-! ## The checksum of the reply -/

section Checksum

variable {p : List Byte} (hlen : 20 ≤ p.length)
include hlen

/-- The sum of the header with its checksum field 0, in either order of the addresses (40_checksum.md R148). -/
theorem wordSum_blanked_header :
    wordSum (patch (ipv4Header p).raw20 10 (zeros 2)) =
      wordSum (rebuiltHeader p 0 (ipv4Header p).destIp (ipv4Header p).sourceIp) := by
  have hraw := ipv4Header_raw20_length hlen
  rw [wordSum_patch (by decide) (by simp) (by rw [hraw, zeros_length]; omega), ipv4Header_raw20_take, zeros_length,
    ipv4Header_raw20_drop hlen, wordSum_append (be32 _) _ (by simp), wordSum_rebuiltHeader hlen, wordSum_zeros,
    Nat.add_comm (wordSum (be32 (ipv4Header p).destIp))]
  rfl

/-- The header built in reply is the header with the addresses exchanged and the checksum recomputed (R215). -/
theorem ipv4BuildReplyHeader_eq_rebuiltHeader :
    ipv4BuildReplyHeader (ipv4Header p) =
      rebuiltHeader p (csum16p (patch (ipv4Header p).raw20 10 (zeros 2))) (ipv4Header p).destIp
        (ipv4Header p).sourceIp := by
  rw [ipv4BuildReplyHeader_eq _ (ipv4Header_raw20_length hlen), ipv4Header_raw20_take,
    csum16p_congr (wordSum_blanked_header hlen)]
  rfl

/-- A version other than 0 is a word other than 0, whatever else the header holds. -/
theorem wordSum_blanked_header_ne_zero (hversion : (ipv4Header p).version ≠ 0) :
    wordSum (patch (ipv4Header p).raw20 10 (zeros 2)) ≠ 0 := by
  intro hzero
  have hbyte : rd8 p 0 = 0 := by
    have hmem : rd8 p 0 ∈ patch (ipv4Header p).raw20 10 (zeros 2) := by
      rw [patch, ipv4Header_raw20_take]
      obtain ⟨x, q, rfl⟩ := List.exists_cons_of_length_pos (show 0 < p.length by omega)
      exact List.mem_cons_self
    exact (wordSum_eq_zero_iff _).1 hzero _ hmem
  refine hversion ?_
  change (rd8 p 0).extractLsb' 4 4 = 0
  rw [hbyte]
  rfl

end Checksum

/-! ## The round trip -/

/-- Settles O46: the reply is the header rebuilt with the addresses exchanged, whose sum is that of the header; and a
version of 4 keeps that sum from being 0. -/
theorem ipv4RoundTrip : Obligations.Ipv4RoundTrip := by
  intro p h hdec
  obtain ⟨hlen, rfl, hversion⟩ := ipv4Decode_ok_inv hdec
  have hraw := ipv4Header_raw20_length hlen
  refine ⟨?_, ?_, fun hverify => ?_⟩
  · rw [ipv4BuildReplyHeader_eq_rebuiltHeader hlen, rebuiltHeader_length hlen]
  · rw [ipv4BuildReplyHeader_eq_rebuiltHeader hlen, ipv4Header_rebuiltHeader hlen]
  · rw [csum16_of_even (by rw [hraw]), Option.some.injEq] at hverify
    rw [csum16p_blanked (by decide) (by omega) hverify
      (wordSum_blanked_header_ne_zero hlen (by rw [hversion]; decide)), ipv4Header_raw20_checksum]

end Sys2Proof.Machine
end

section
/-! PROOFS. The replies in `OUT` verify (O43): each of the three checksums of a reply was filled into a field at an even
place of the range it covers (44_ipv4.md R215, 45_icmp.md R233, 46_tcp.md R255). -/

namespace Sys2Proof.Machine

/-! ## The parts of a reply frame -/

section Parts

variable {e h : List Byte} (he : e.length = 14) (hh : h.length = 20) (m : List Byte)
include he hh

theorem slice_header_of_reply : slice (e ++ h ++ m) 14 34 = h := by
  rw [slice, List.append_assoc, List.drop_left' he, List.take_left' hh]

theorem drop_headers_of_reply : (e ++ h ++ m).drop 34 = m :=
  List.drop_left' (by rw [List.length_append, he, hh])

theorem rd32_header_of_reply {i : Nat} (hi : i + 3 < 20) : rd32 (e ++ h ++ m) (14 + i) = rd32 h i := by
  have hoff : 14 + i - e.length = i := by omega
  rw [List.append_assoc, rd32_append_right _ _ _ (by omega), hoff, rd32_append_left _ _ _ (by omega)]

end Parts

/-! ## The checksum of each part -/

/-- The IPv4 header of a reply verifies (R215). -/
theorem csum16_replyIpv4 {f : List Byte} (hf : 34 ≤ f.length) : csum16 (replyIpv4 f) = some 0 := by
  have hfront : (slice f 14 24).length % 2 = 0 := by rw [slice_length]; omega
  have hwith (c : Half) : replyIpv4With f c = slice f 14 24 ++ be16 c ++ (slice f 30 34 ++ slice f 26 30) := by
    rw [replyIpv4With, List.append_assoc]
  rw [csum16_of_even (by rw [replyIpv4_length f hf]), replyIpv4, hwith, hwith, csum16p_filled hfront]

/-- The message of an echo reply verifies (R233). -/
theorem csum16p_echoReplyWith (u : List Byte) : csum16p (echoReplyWith u (csum16p (echoReplyWith u 0))) = 0 :=
  csum16p_filled (a := [0x00, 0x00]) rfl (u.drop 4)

theorem synAckPseudo_eq_pseudoHeader {f : List Byte} (hf : 34 ≤ f.length) :
    synAckPseudo f = pseudoHeader (rd32 f 30) (rd32 f 26) 40 := by
  rw [synAckPseudo, pseudoHeader, ← slice_four f 30 (by omega), ← slice_four f 26 (by omega), List.append_assoc _ [0, 6]]
  rfl

theorem synAckWith_length (p : Params) {u : List Byte} (hu : 20 ≤ u.length) (c : Half) :
    (synAckWith p u c).length = 40 := by
  simp only [synAckWith, List.length_append, slice_length, be16_length, be32_length, zeros_length, List.length_cons,
    List.length_nil]
  omega

/-- The checksum field of a SYN-ACK stands between the 16 bytes before it and the rest (30_encoding.md R105). -/
theorem synAckWith_eq_append (p : Params) {u : List Byte} (hu : 20 ≤ u.length) :
    ∃ front rest : List Byte, front.length = 16 ∧ ∀ c, synAckWith p u c = front ++ be16 c ++ rest := by
  refine ⟨_, slice u 18 20 ++ zeros 20, ?_, fun c => List.append_assoc _ _ _⟩
  simp only [List.length_append, slice_length, be32_length, List.length_cons, List.length_nil]
  omega

/-- The segment of a SYN-ACK verifies under the reply's pseudo-header (R255, R258). -/
theorem tcpsum_synAckWith (p : Params) {f u : List Byte} (hf : 34 ≤ f.length) (hu : 20 ≤ u.length) :
    tcpsum (rd32 f 30) (rd32 f 26) (synAckWith p u (csum16p (synAckPseudo f ++ synAckWith p u 0))) = 0 := by
  obtain ⟨front, rest, hfront, hwith⟩ := synAckWith_eq_append p hu
  have heven : (synAckPseudo f ++ front).length % 2 = 0 := by
    rw [synAckPseudo_eq_pseudoHeader hf, List.length_append, pseudoHeader_length, hfront]
  have hfilled := csum16p_filled heven rest
  rw [tcpsum, synAckWith_length p hu, ← synAckPseudo_eq_pseudoHeader hf, hwith, hwith]
  simpa only [List.append_assoc] using hfilled

/-- The reply's header carries the addresses exchanged (R215). -/
theorem replyIpv4_addresses {f : List Byte} (hf : 34 ≤ f.length) :
    rd32 (replyIpv4 f) 12 = rd32 f 30 ∧ rd32 (replyIpv4 f) 16 = rd32 f 26 := by
  have hlen : 20 ≤ (f.drop 14).length := by rw [List.length_drop]; omega
  obtain ⟨hs, hd⟩ := ipv4Header_addresses f
  rw [← ipv4BuildReplyHeader_frame f hf, ipv4BuildReplyHeader_eq_rebuiltHeader hlen, rd32_rebuiltHeader_source hlen,
    rd32_rebuiltHeader_dest hlen]
  exact ⟨hd, hs⟩

/-! ## The obligation -/

/-- Settles O43: a disposition that stands for a reply has put that reply in `OUT`, and each of its parts verifies. -/
theorem repliesVerify : Obligations.RepliesVerify := by
  rintro s t _ hl ht rfl
  refine ⟨fun hdisp => ?_, fun hdisp => ?_⟩
  · obtain ⟨⟨hlen, -⟩, -⟩ := firstDisposition_echo _ _ ((process_disposition ht).symm.trans hdisp)
    have he := replyEthernet_length s.cfg (handedOver s) (by omega)
    have hh := replyIpv4_length (handedOver s) hlen
    rw [process_reply hl ht hdisp rfl, echoReplyBytes, slice_header_of_reply he hh, drop_headers_of_reply he hh]
    exact ⟨csum16_replyIpv4 hlen, csum16p_echoReplyWith _⟩
  · obtain ⟨⟨hlen, -⟩, -, ⟨hseg, -⟩, -⟩ := firstDisposition_synAck _ _ ((process_disposition ht).symm.trans hdisp)
    have he := replyEthernet_length s.cfg (handedOver s) (by omega)
    have hh := replyIpv4_length (handedOver s) hlen
    obtain ⟨hs, hd⟩ := replyIpv4_addresses hlen
    rw [process_reply hl ht hdisp rfl, synAckBytes, slice_header_of_reply he hh, drop_headers_of_reply he hh,
      rd32_header_of_reply he hh _ (i := 12) (by decide), rd32_header_of_reply he hh _ (i := 16) (by decide), hs, hd]
    exact ⟨csum16_replyIpv4 hlen, tcpsum_synAckWith _ hlen hseg⟩

end Sys2Proof.Machine
end

section
/-! PROOFS. The ICMP frame classes (45_icmp.md R233 to R236): the echo request and its reply (O34), and the types that
are observed or unhandled (O35). `PROCESS` runs the class of the message's type, so each class is looked at alone. -/

namespace Sys2Proof.Machine

/-- An upper layer is at least an Ethernet and a least IPv4 header shorter than its frame (44_ipv4.md R212). -/
theorem upperOf_length_le {f : List Byte} (hf : isIpv4Frame f) : 34 + (upperOf f).length ≤ f.length := by
  obtain ⟨-, -, -, hihl, hlen⟩ := hf
  rw [upperOf_length]
  omega

/-- The message of an echo reply frame verifies (R233). -/
theorem csum16p_echoReplyBytes (p : Params) {f : List Byte} (hf : 34 ≤ f.length) :
    csum16p ((echoReplyBytes p f).drop 34) = 0 := by
  rw [echoReplyBytes, drop_headers_of_reply (replyEthernet_length p f (by omega)) (replyIpv4_length f hf)]
  exact csum16p_echoReplyWith _

/-! ## The runs of the classes -/

/-- An IPv4 class with a reply that fits in `OUT` emits it with the checksum flag (47_dispatcher.md R274, R275). -/
theorem ipv4_emit (s : State) {f : List Byte} (hf : 34 ≤ f.length) (d : Disposition) {reply : List Byte}
    (hfits : reply.length ≤ s.cfg.maxFrameLen) (h16 : reply.length < 65536) :
    ∃ t, endProcess s (ipv4Run s.cache (ipv4Header (f.drop 14)) (.emit d reply)) = .next t ∧
      Replied s t (ipv4Report f d) reply ∧ t.cache = s.cache := by
  have hreport : runReport (ipv4Run s.cache (ipv4Header (f.drop 14)) (.emit d reply)) = ipv4Report f d :=
    ipv4Run_report f _ _ hf
  rw [← hreport]
  exact endProcess_emit s _ d reply rfl hfits h16

section Message

variable {s : State} (hf : isIpv4Frame (handedOver s)) (hu : 8 ≤ (upperOf (handedOver s)).length)
include hf hu

/-- The key `ICMPTYPE` of a whole message selects the class that `PROCESS` runs (30_encoding.md R108). -/
theorem exec_process_icmpType (hproto : rd8 (handedOver s) 23 = 1) {k : Byte} {i : Instr}
    (hkey : rd8 (upperOf (handedOver s)) 0 = k) (hi : decodeIcmpType k = i) : exec .process s = exec i s := by
  subst hkey hi
  exact exec_process_class (decodeIcmpType_mem_frameClasses hf hproto hu)

variable (hl : LegalLengths s)
include hl

/-- A class of the type is the end of the IPv4 run with the class's own ending (R230). -/
theorem onIcmp_ok (ending : EthHeader → Ipv4Header → List Byte → Ending) :
    onIcmp s ending = endProcess s (ipv4Run s.cache (ipv4Header ((handedOver s).drop 14))
      (ending (ethOf (handedOver s)) (ipv4Header ((handedOver s).drop 14)) (upperOf (handedOver s)))) := by
  rw [onIcmp, onIpv4_ok s _ hl hf, icmpDecode_ok _ hu]
  rfl

/-- The class `ICMP_ECHO_REQUEST` emits the reply frame, which fits in `OUT` (R234, 47_dispatcher.md R276). -/
theorem exec_icmpEchoRequest_replied :
    ∃ t, exec .icmpEchoRequest s = .next t ∧
      Replied s t (ipv4Report (handedOver s) .icmpEchoReply) (echoReplyBytes s.cfg (handedOver s)) ∧
      t.cache = s.cache := by
  have hreply : echoReplyFrame s.cfg (ethOf (handedOver s)) (ipv4Header ((handedOver s).drop 14))
      (upperOf (handedOver s)) = echoReplyBytes s.cfg (handedOver s) := echoReplyFrame_frame s.cfg _ hf.1
  have hrun : exec .icmpEchoRequest s = endProcess s (ipv4Run s.cache (ipv4Header ((handedOver s).drop 14))
      (.emit .icmpEchoReply (echoReplyBytes s.cfg (handedOver s)))) := by
    rw [← hreply]
    exact onIcmp_ok hf hu hl fun eth h u => echoRequestEnding s.cfg eth h u
  have hlen := echoReplyBytes_length s.cfg (handedOver s) hf.1 hu
  have hupper := upperOf_length_le hf
  have hframe := handedOver_length s
  have hin := hl.inLen
  have h16 := s.inLen.isLt
  rw [hrun]
  exact ipv4_emit s hf.1 .icmpEchoReply (by omega) (by omega)

/-- A class of the type with an informational ending drops the frame with the checksum flag (R235, R236). -/
theorem icmpType_dropped (hproto : rd8 (handedOver s) 23 = 1) {k : Byte} {i : Instr} {d : Disposition}
    (hkey : rd8 (upperOf (handedOver s)) 0 = k) (hi : decodeIcmpType k = i)
    (hclass : exec i s = onIcmp s fun _ _ _ => .finish d) :
    ∃ t, exec .process s = .next t ∧ exec i s = .next t ∧ Dropped s t (ipv4Report (handedOver s) d) false ∧
      t.cache = s.cache := by
  obtain ⟨t, e, hdropped, hcache⟩ := ipv4_finish s (ipv4Header ((handedOver s).drop 14)) (.finish d) d rfl
  rw [ipv4Run_report _ _ _ hf.1] at hdropped
  have hrun : exec i s = .next t := by rw [hclass, onIcmp_ok hf hu hl, e]
  exact ⟨t, (exec_process_icmpType hf hu hproto hkey hi).trans hrun, hrun, hdropped, hcache⟩

end Message

/-! ## The obligations -/

/-- Settles O34: the class of type 8 emits the reply frame, whose message had its checksum filled in. -/
theorem echoRequestIsAnswered : Obligations.EchoRequestIsAnswered := by
  rintro s _ hl rfl hf hproto hu hkey
  have hprocess : exec .process s = exec .icmpEchoRequest s := exec_process_icmpType hf hu hproto hkey rfl
  have hlen := echoReplyBytes_length s.cfg (handedOver s) hf.1 hu
  obtain ⟨t, e, hreplied, hcache⟩ := exec_icmpEchoRequest_replied hf hu hl
  exact ⟨t, hprocess.trans e, e, hreplied, hcache, hlen, hlen.trans_le (upperOf_length_le hf),
    csum16p_echoReplyBytes s.cfg hf.1⟩

/-- Settles O35: every other type's class has an informational ending, and a type with no row of its own selects the
default class. -/
theorem otherIcmpTypesAreDropped : Obligations.OtherIcmpTypesAreDropped := by
  rintro s _ hl rfl hf hproto hu
  refine ⟨fun k i d hmem hkey => ?_, fun hother => ?_⟩
  · have hclass : decodeIcmpType k = i ∧ exec i s = onIcmp s fun _ _ _ => .finish d := by
      simp only [List.mem_cons, Prod.mk.injEq, List.not_mem_nil, or_false] at hmem
      rcases hmem with ⟨rfl, rfl, rfl⟩ | ⟨rfl, rfl, rfl⟩ | ⟨rfl, rfl, rfl⟩ | ⟨rfl, rfl, rfl⟩ | ⟨rfl, rfl, rfl⟩ |
        ⟨rfl, rfl, rfl⟩ | ⟨rfl, rfl, rfl⟩ | ⟨rfl, rfl, rfl⟩ <;> exact ⟨rfl, rfl⟩
    obtain ⟨hi, hrun⟩ := hclass
    exact icmpType_dropped hf hu hl hproto hkey hi hrun
  · have hdefault : decodeIcmpType (rd8 (upperOf (handedOver s)) 0) = .icmpOther (rd8 (upperOf (handedOver s)) 0) :=
      decodeIcmpType_default (by simpa [wellFormed, icmptypeKeys] using hother)
    exact icmpType_dropped hf hu hl hproto rfl hdefault rfl

end Sys2Proof.Machine
end

section
/-! PROOFS. The TCP frame classes (46_tcp.md R250 to R258): the pure SYN and its SYN-ACK (O36), any other flags (O37),
and the options that the data offset sizes (O47). `PROCESS` runs the class of the segment's flags. -/

namespace Sys2Proof.Machine

/-! ## The options of a segment -/

theorem doffOf_le (u : List Byte) : doffOf u ≤ 15 :=
  Nat.le_of_lt_succ ((rd16 u 12).extractLsb' 12 4).isLt

/-- The options of a whole segment fill the header that its data offset sizes (R252). -/
theorem tcpHeader_options_length {u : List Byte} (h : isTcpSegment u) :
    (tcpHeader u).options.length = doffOf u * 4 - 20 := by
  obtain ⟨-, -, hwhole⟩ := h
  have hslice : (tcpHeader u).options = slice u 20 (doffOf u * 4) := rfl
  rw [hslice, slice_length]
  omega

/-! ## The frame and the runs of the classes -/

/-- The segment of a SYN-ACK frame verifies under the reply's pseudo-header (R258). -/
theorem tcpsum_synAckBytes (p : Params) {f : List Byte} (hf : 34 ≤ f.length) (hu : 20 ≤ (upperOf f).length) :
    tcpsum (rd32 f 30) (rd32 f 26) ((synAckBytes p f).drop 34) = 0 := by
  rw [synAckBytes, drop_headers_of_reply (replyEthernet_length p f (by omega)) (replyIpv4_length f hf)]
  exact tcpsum_synAckWith p hf hu

section Segment

variable {s : State} (hf : isIpv4Frame (handedOver s)) (hseg : isTcpSegment (upperOf (handedOver s)))
include hf hseg

/-- The key `TCPFLAGS` of a whole segment selects the class that `PROCESS` runs (30_encoding.md R108). -/
theorem exec_process_tcpFlags (hproto : rd8 (handedOver s) 23 = 6) {i : Instr}
    (hi : decodeTcpFlags (flagsOf (upperOf (handedOver s))) = i) : exec .process s = exec i s :=
  hi ▸ exec_process_class (decodeTcpFlags_mem_frameClasses hf hproto hseg)

variable (hl : LegalLengths s)
include hl

/-- A class of the flags is the end of the IPv4 run with the class's own ending (R250, R253). -/
theorem onTcp_ok (ending : EthHeader → Ipv4Header → TcpHeader → Ending) :
    onTcp s ending = endProcess s (ipv4Run s.cache (ipv4Header ((handedOver s).drop 14))
      (ending (ethOf (handedOver s)) (ipv4Header ((handedOver s).drop 14)) (tcpHeader (upperOf (handedOver s))))) := by
  rw [onTcp, onIpv4_ok s _ hl hf, tcpDecode_ok _ hseg]
  rfl

/-- The class `TCP_PURE_SYN` emits the SYN-ACK frame, for which `OUT` always has room (R255, 20_memory.md R61). -/
theorem exec_tcpPureSyn_replied :
    ∃ t, exec .tcpPureSyn s = .next t ∧
      Replied s t (ipv4Report (handedOver s) .tcpSynAck) (synAckBytes s.cfg (handedOver s)) ∧ t.cache = s.cache := by
  have hreply : synAckFrame s.cfg (ethOf (handedOver s)) (ipv4Header ((handedOver s).drop 14))
      (tcpHeader (upperOf (handedOver s))) = synAckBytes s.cfg (handedOver s) :=
    synAckFrame_frame s.cfg _ hf.1 hseg.1
  have hrun : exec .tcpPureSyn s = endProcess s (ipv4Run s.cache (ipv4Header ((handedOver s).drop 14))
      (.emit .tcpSynAck (synAckBytes s.cfg (handedOver s)))) := by
    rw [← hreply]
    exact onTcp_ok hf hseg hl fun eth h t => pureSynEnding s.cfg eth h t
  have hlen := synAckBytes_length s.cfg (handedOver s) hf.1 hseg.1
  rw [hrun]
  exact ipv4_emit s hf.1 .tcpSynAck (hlen.trans_le hl.room) (by omega)

/-- The class `TCP_OTHER` drops the frame with the checksum flag, whichever flags it is read with (R254). -/
theorem exec_tcpOther_dropped (k : BitVec 9) :
    ∃ t, exec (.tcpOther k) s = .next t ∧ Dropped s t (ipv4Report (handedOver s) .tcpUnhandled) false ∧
      t.cache = s.cache := by
  have hrun : exec (.tcpOther k) s =
      endProcess s (ipv4Run s.cache (ipv4Header ((handedOver s).drop 14)) (.finish .tcpUnhandled)) :=
    onTcp_ok hf hseg hl fun _ _ _ => tcpOtherEnding
  have hreport : runReport (ipv4Run s.cache (ipv4Header ((handedOver s).drop 14)) (.finish .tcpUnhandled)) =
      ipv4Report (handedOver s) .tcpUnhandled := ipv4Run_report _ _ _ hf.1
  rw [hrun, ← hreport]
  exact ipv4_finish s _ _ .tcpUnhandled rfl

end Segment

/-! ## The obligations -/

/-- Settles O36: the flags select the class that emits the SYN-ACK frame, whose segment had its checksum filled in. -/
theorem pureSynIsAnswered : Obligations.PureSynIsAnswered := by
  rintro s _ hl rfl hf hproto hseg hflags
  have hprocess : exec .process s = exec .tcpPureSyn s := exec_process_tcpFlags hf hseg hproto (if_pos hflags)
  obtain ⟨t, e, hreplied, hcache⟩ := exec_tcpPureSyn_replied hf hseg hl
  exact ⟨t, hprocess.trans e, e, hreplied, synAckBytes_length s.cfg _ hf.1 hseg.1, hcache,
    tcpsum_synAckBytes s.cfg hf.1 hseg.1⟩

/-- Settles O37: any other flags select the default class, whose ending is informational. -/
theorem otherTcpFlagsAreDropped : Obligations.OtherTcpFlagsAreDropped := by
  rintro s _ hl rfl hf hproto hseg hflags
  have hprocess := exec_process_tcpFlags hf hseg hproto (if_neg hflags)
  obtain ⟨t, e, hdropped, hcache⟩ := exec_tcpOther_dropped hf hseg hl (flagsOf (upperOf (handedOver s)))
  exact ⟨t, hprocess.trans e, e, hdropped, hcache⟩

/-- Settles O47: what decodes is a whole segment, and the check of the data offset is the second of the decoder. -/
theorem tcpOptionSizing : Obligations.TcpOptionSizing := by
  refine fun u hlen => ⟨fun t ht => ?_, fun hsmall => ?_⟩
  · obtain ⟨hseg, rfl⟩ := tcpDecode_inv u t ht
    have hoptions := tcpHeader_options_length hseg
    have hmax := doffOf_le u
    obtain ⟨-, hmin, -⟩ := hseg
    exact ⟨rfl, hmin, hmax, hoptions, by omega⟩
  · rw [tcpDecode_checks, if_neg (by omega), if_pos hsmall]

end Sys2Proof.Machine
end

section
/-! PROOFS. The Packet Dispatcher (47_dispatcher.md R270 to R279): the ether-types that are dropped (O29), the classes
that complete as the class of the next key (O38, O39), the lengths of the replies (O42), and what `PROCESS` reads
(O44). Each of them looks at the run of `PROCESS` and at what its next state says of that run. -/

namespace Sys2Proof.Machine

/-! ## What the next state says of the run -/

/-- A `PROCESS` has ended as its run says: with the run's report and cache, and with its reply or none (R274). -/
structure EndsRun (s t : State) (r : Run) : Prop where
  report : t.report = runReport r
  cache : t.cache = r.cache
  err : t.err = dispIsError (endingCode r.ending)
  out : (∃ d reply, r.ending = .emit d reply ∧ Replied s t (runReport r) reply) ∨
    ((∀ d reply, r.ending ≠ .emit d reply) ∧ Dropped s t (runReport r) (dispIsError (endingCode r.ending)))

/-- With legal lengths `PROCESS` completes, and ends the run of the frame handed over (R270). -/
theorem exec_process_endsRun {s : State} (hl : LegalLengths s) :
    ∃ t, exec .process s = .next t ∧ EndsRun s t (processRun s.cfg s.cache (handedOver s)) := by
  obtain ⟨t, e, hreport, hcache, herr, hout⟩ := endProcess_good s _ (processRun_good s hl)
  exact ⟨t, (execProcess_run s hl).trans e, hreport, hcache, herr, hout⟩

theorem endsRun_of_next {s t : State} (hl : LegalLengths s) (ht : exec .process s = .next t) :
    EndsRun s t (processRun s.cfg s.cache (handedOver s)) := by
  obtain ⟨t', e, hends⟩ := exec_process_endsRun hl
  cases e.symm.trans ht
  exact hends

/-- The error bit is that of the frame's first disposition (60_exceptions.md R309). -/
theorem process_err {s t : State} (hl : LegalLengths s) (ht : exec .process s = .next t) :
    t.err = dispIsError (firstDisposition s.cfg.localIp (handedOver s)) := by
  rw [(endsRun_of_next hl ht).err, processRun_ending, endingFor_code]

/-- Every instruction leaves what no command changes. -/
theorem exec_commandEnds {s t : State} {i : Instr} (ht : exec i s = .next t) :
    CommandEnds s t t.report t.err t.res0 t.res1 := by
  obtain ⟨_, _, _, _, hends⟩ := exec_kept s t i ht
  exact { hends with report := rfl, err := rfl, res0 := rfl, res1 := rfl }

/-! ## Other ether-types -/

/-- Settles O29: the ether-type selects the default class, whose run has an informational ending and carries the cache
along. -/
theorem otherEtherTypesAreDropped : Obligations.OtherEtherTypesAreDropped := by
  rintro s _ hl rfl hlen harp hip
  have hclass : decodeEtype (rd16 (handedOver s) 12) = .ethOther (rd16 (handedOver s) 12) := by
    rw [decodeEtype, if_neg harp, if_neg hip]
  have hprocess : exec .process s = exec (.ethOther (rd16 (handedOver s) 12)) s :=
    hclass ▸ exec_process_class (decodeEtype_mem_frameClasses hlen)
  have hrun : exec (.ethOther (rd16 (handedOver s) 12)) s = endProcess s (ethOtherRun s.cache) :=
    onFrame_ok s _ hl hlen
  obtain ⟨t, e, hdropped, hcache⟩ := endProcess_finish s (ethOtherRun s.cache) .ethUnsupportedType rfl
  have ht : exec .process s = .next t := hprocess.trans (hrun.trans e)
  exact ⟨t, ht, hrun.trans e, hdropped, hcache, fun c => exec_process_withCache c harp ht⟩

/-! ## The first disposition of a frame whose keys are read -/

/-- A merged message is no error, whatever its target (43_arp.md R194 to R198). -/
theorem firstDisposition_arp_noError (ip : Ip) {f : List Byte} (hf : isArpFrame f)
    (hop : rd16 f 20 = 1 ∨ rd16 f 20 = 2 ∨ rd16 f 20 = 3 ∨ rd16 f 20 = 4) :
    dispIsError (firstDisposition ip f) = false := by
  obtain ⟨hlen, htype⟩ := hf
  rw [firstDisposition, if_neg (by omega), if_pos htype, if_neg (by omega)]
  rcases hop with h | h | h | h
  · rw [h, if_pos rfl]
    split <;> rfl
  all_goals
    rw [h]
    rfl

/-- A whole ICMP message or TCP segment is no error (45_icmp.md R233 to R236, 46_tcp.md R254, R255). -/
theorem firstDisposition_upper_noError (ip : Ip) {f : List Byte} (hf : isIpv4Frame f)
    (hu : (rd8 f 23 = 1 ∧ 8 ≤ (upperOf f).length) ∨ (rd8 f 23 = 6 ∧ isTcpSegment (upperOf f))) :
    dispIsError (firstDisposition ip f) = false := by
  obtain ⟨hlen, htype, hversion, hihl, hheader⟩ := hf
  rw [firstDisposition, if_neg (by omega), if_neg (by rw [htype]; decide), if_pos htype, if_neg (by omega),
    if_neg (not_not.2 hversion), if_neg (by omega), if_neg (by omega)]
  rcases hu with ⟨hproto, hmessage⟩ | ⟨hproto, hmin, hdoff, hwhole⟩
  · rw [if_pos hproto, if_neg (by omega)]
    split_ifs <;> rfl
  · rw [if_neg (by rw [hproto]; decide), if_pos hproto, if_neg (by omega), if_neg (by omega), if_neg (by omega)]
    split_ifs <;> rfl

/-! ## The class of the next key -/

/-- Settles O38: `PROCESS` runs the class of the ether-type and of the opcode, and the run of an opcode from 1 to 4 is a
merge. -/
theorem ethArpMergesAndRunsTheOpcodesClass : Obligations.EthArpMergesAndRunsTheOpcodesClass := by
  rintro s _ hl rfl hf
  obtain ⟨t, ht, hends⟩ := exec_process_endsRun hl
  have hethArp : exec .process s = exec .ethArp s := execProcess_arp s hl hf
  refine ⟨t, hethArp.symm.trans ht, ht, (exec_process_arpOp hf rfl).symm.trans ht, exec_commandEnds ht,
    fun hop => ⟨?_, ?_, ?_⟩⟩
  · rw [hends.cache, processRun_arp _ _ _ hf hop, arpMerge_cache]
  · rw [process_disposition ht, hends.report, processRun_arp _ _ _ hf hop, arpMerge_report, endingFor_code]
  · rw [process_err hl ht, firstDisposition_arp_noError _ hf hop]

/-- Settles O39: `PROCESS` runs the class of each key that is read, and a whole message or segment is no error. -/
theorem ipv4ClassesRunTheNextKeysClass : Obligations.Ipv4ClassesRunTheNextKeysClass := by
  rintro s _ hl rfl hf
  obtain ⟨t, ht, hends⟩ := exec_process_endsRun hl
  have hethIpv4 : exec .ethIpv4 s = .next t := (execProcess_ipv4 s hl hf).symm.trans ht
  refine ⟨⟨t, hethIpv4, ht, (exec_process_ipProto hf rfl).symm.trans ht, exec_commandEnds ht, ?_, ?_⟩,
    fun hproto hu => ⟨t, ?_, hethIpv4, ?_, ?_⟩, fun hproto hseg => ⟨t, ?_, hethIpv4, ?_, ?_⟩⟩
  · rw [process_disposition ht, hends.report, processRun_ipv4 _ _ _ hf, ipv4Run_report _ _ _ hf.1, endingFor_code]
  · rw [hends.cache, processRun_ipv4 _ _ _ hf, ipv4Run]
  · exact (exec_process_ipProto hf (by rw [hproto]; rfl)).symm.trans ht
  · exact (exec_process_icmpType hf hu hproto rfl rfl).symm.trans ht
  · rw [process_err hl ht, firstDisposition_upper_noError _ hf (.inl ⟨hproto, hu⟩)]
  · exact (exec_process_ipProto hf (by rw [hproto]; rfl)).symm.trans ht
  · exact (exec_process_tcpFlags hf hseg hproto rfl).symm.trans ht
  · rw [process_err hl ht, firstDisposition_upper_noError _ hf (.inr ⟨hproto, hseg⟩)]

/-! ## The lengths of the replies -/

/-- The length of the reply a disposition sends, 0 where it sends none (R276). -/
def replyLength (f : List Byte) : Disposition → Nat
  | .arpReply => 42
  | .icmpEchoReply => 34 + (upperOf f).length
  | .tcpSynAck => 74
  | _ => 0

/-- A disposition stands for a reply of its length, which is not empty, or for no reply. -/
def HasReplyLength (p : Params) (f : List Byte) (d : Disposition) : Prop :=
  (∃ reply, endingFor p f d = .emit d reply ∧ reply.length = replyLength f d ∧ 0 < reply.length) ∨
    ((∀ d' reply, endingFor p f d ≠ .emit d' reply) ∧ replyLength f d = 0)

/-- Three dispositions send (60_exceptions.md R303). -/
theorem hasReplyLength_of_quiet (p : Params) (f : List Byte) {d : Disposition}
    (hd : d ∉ [Disposition.arpReply, .icmpEchoReply, .tcpSynAck]) : HasReplyLength p f d := by
  simp only [List.mem_cons, List.not_mem_nil, or_false, not_or] at hd
  obtain ⟨harp, hecho, hsyn⟩ := hd
  refine .inr ⟨fun d' reply => ?_, ?_⟩
  · rw [endingFor, if_neg harp, if_neg hecho, if_neg hsyn]
    split_ifs <;> exact Ending.noConfusion
  · cases d with
    | arpReply => exact absurd rfl harp
    | icmpEchoReply => exact absurd rfl hecho
    | tcpSynAck => exact absurd rfl hsyn
    | _ => rfl

theorem firstDisposition_hasReplyLength (p : Params) (f : List Byte) :
    HasReplyLength p f (firstDisposition p.localIp f) := by
  refine firstDisposition_cases _ f (HasReplyLength p f) (fun _ d hd => ?_) (fun harp _ _ => ?_) (fun _ d hd => ?_)
    (fun hf _ hu _ => ?_) (fun hf _ hseg _ => ?_)
  · exact hasReplyLength_of_quiet p f (by revert d; decide)
  · have hlen := arpReplyBytes_length p f harp.1
    exact .inl ⟨_, rfl, hlen, by omega⟩
  · exact hasReplyLength_of_quiet p f (by revert d; decide)
  · have hlen := echoReplyBytes_length p f hf.1 hu
    exact .inl ⟨_, rfl, hlen, by omega⟩
  · have hlen := synAckBytes_length p f hf.1 hseg.1
    exact .inl ⟨_, rfl, hlen, by omega⟩

section Next

variable {s t : State} (hl : LegalLengths s) (ht : exec .process s = .next t)
include hl ht

/-- `PROCESS` sends the reply of its disposition, or it sends none. -/
theorem process_replied_or_dropped :
    (∃ reply, Replied s t t.report reply ∧ reply.length = replyLength (handedOver s) t.report.disp ∧
      0 < reply.length ∧ reply.length ≤ s.cfg.maxFrameLen) ∨
    (Dropped s t t.report t.err ∧ replyLength (handedOver s) t.report.disp = 0) := by
  obtain ⟨hreport, -, herr, hout⟩ := endsRun_of_next hl ht
  have hgood := (processRun_good s hl).ending
  have hlength := firstDisposition_hasReplyLength s.cfg (handedOver s)
  rw [HasReplyLength, ← processRun_ending s.cfg s.cache, ← process_disposition ht] at hlength
  rw [← hreport, ← herr] at hout
  rcases hout with ⟨d, reply, hemit, hreplied⟩ | ⟨hquiet, hdropped⟩
  · rw [hemit] at hlength hgood
    rcases hlength with ⟨_, hreply, hlen, hpos⟩ | ⟨hnone, -⟩
    · cases hreply
      exact .inl ⟨reply, hreplied, hlen, hpos, hgood.1⟩
    · exact absurd rfl (hnone d reply)
  · rcases hlength with ⟨reply, hreply, -⟩ | ⟨-, hzero⟩
    · exact absurd hreply (hquiet _ reply)
    · exact .inr ⟨hdropped, hzero⟩

/-- `OUT_LEN` and the results of `PROCESS`: whether it sends, and how much (R274, R276). -/
theorem process_lengths :
    t.outLen.toNat = replyLength (handedOver s) t.report.disp ∧ t.outLen.toNat ≤ s.cfg.maxFrameLen ∧
      t.res1 = t.outLen.setWidth 32 ∧ t.res0 = if t.outLen = 0 then 0 else 1 := by
  rcases process_replied_or_dropped hl ht with ⟨reply, ⟨hends, hout, -⟩, hlen, hpos, hfits⟩ | ⟨⟨hends, hout⟩, hzero⟩
  · have hne : t.outLen ≠ 0 := by
      intro hz
      rw [hz] at hout
      exact absurd hout hpos.ne
    refine ⟨hout.trans hlen, hout.trans_le hfits, ?_, ?_⟩
    · rw [hends.res1, ← hout, BitVec.ofNat_toNat]
    · rw [hends.res0, if_neg hne]
  · rw [hends.res0, hends.res1, hout, hzero]
    exact ⟨rfl, Nat.zero_le _, rfl, rfl⟩

end Next

/-- Settles O42: the next state has the length of the reply of its disposition, and an echo reply's upper layer is that
of its request. -/
theorem replyLengths : Obligations.ReplyLengths := by
  intro s t hl ht
  obtain ⟨hlength, hfits, hres1, hres0⟩ := process_lengths hl ht
  refine ⟨hlength, hfits, fun hdisp => ?_, hres1, hres0⟩
  obtain ⟨hf, -⟩ := firstDisposition_echo _ _ ((process_disposition ht).symm.trans hdisp)
  rw [hlength, hdisp]
  exact upperOf_length_le hf

/-! ## What `PROCESS` reads -/

/-- Two states hold the same report, results, cache and reply: all that a command leaves for the host to read. -/
structure SameOutcome (t₁ t₂ : State) : Prop where
  report : t₁.report = t₂.report
  err : t₁.err = t₂.err
  res0 : t₁.res0 = t₂.res0
  res1 : t₁.res1 = t₂.res1
  outLen : t₁.outLen = t₂.outLen
  cache : t₁.cache = t₂.cache
  outBytes : ∀ a, a < t₁.outLen.toNat → byteAt t₁ .outbound a = byteAt t₂ .outbound a

/-- The bytes of a reply in `OUT`, one by one. -/
theorem byteAt_of_replied {s t : State} {rep : Report} {reply : List Byte} (h : Replied s t rep reply) {a : Nat}
    (ha : a < t.outLen.toNat) : some (byteAt t .outbound a) = reply[a]? := by
  have hread := bytesAt_getElem? t .outbound 0 reply.length a (h.outLen ▸ ha)
  rw [h.outBytes, Nat.zero_add] at hread
  exact hread.symm

/-- The run alone decides the outcome, whatever states it ends in. -/
theorem sameOutcome_of_endsRun {s₁ s₂ t₁ t₂ : State} {r : Run} (h₁ : EndsRun s₁ t₁ r) (h₂ : EndsRun s₂ t₂ r) :
    SameOutcome t₁ t₂ := by
  have hreport := h₁.report.trans h₂.report.symm
  have herr := h₁.err.trans h₂.err.symm
  have hcache := h₁.cache.trans h₂.cache.symm
  rcases h₁.out with ⟨d, reply, hemit, hr₁⟩ | ⟨hquiet, hd₁⟩ <;>
    rcases h₂.out with ⟨d', reply', hemit', hr₂⟩ | ⟨hquiet', hd₂⟩
  · cases hemit.symm.trans hemit'
    have hlen : t₁.outLen = t₂.outLen := BitVec.eq_of_toNat_eq (hr₁.outLen.trans hr₂.outLen.symm)
    refine ⟨hreport, herr, hr₁.ends.res0.trans hr₂.ends.res0.symm, hr₁.ends.res1.trans hr₂.ends.res1.symm, hlen, hcache,
      fun a ha => Option.some.inj ?_⟩
    rw [byteAt_of_replied hr₁ ha, byteAt_of_replied hr₂ (hlen ▸ ha)]
  · exact absurd hemit (hquiet' d reply)
  · exact absurd hemit' (hquiet d' reply')
  · refine ⟨hreport, herr, hd₁.ends.res0.trans hd₂.ends.res0.symm, hd₁.ends.res1.trans hd₂.ends.res1.symm,
      hd₁.outLen.trans hd₂.outLen.symm, hcache, fun a ha => ?_⟩
    rw [hd₁.outLen] at ha
    exact absurd ha (Nat.not_lt_zero a)

/-- Settles O44: both states run the same frame with the same parameters and cache, and the run decides the outcome. -/
theorem processReadsOnlyTheFrame : Obligations.ProcessReadsOnlyTheFrame := by
  intro s₁ s₂ t₁ t₂ hl₁ hl₂ hcfg hcache hframe ht₁ ht₂
  have hends₁ := endsRun_of_next hl₁ ht₁
  rw [hcfg, hcache, hframe] at hends₁
  obtain ⟨hreport, herr, hres0, hres1, hlen, hcache', hbytes⟩ :=
    sameOutcome_of_endsRun hends₁ (endsRun_of_next hl₂ ht₂)
  exact ⟨hreport, herr, hres0, hres1, hlen, hcache', hbytes⟩

end Sys2Proof.Machine
end

section
/-! PROOFS. No command faults, sticks or hangs (60_exceptions.md R308, R320): from lengths the block can hold every
instruction and every opcode completes in its one step (O11), so a step is stopped by a host access without a move and
by nothing else (O12). -/

namespace Sys2Proof.Machine

/-! ## Every command completes -/

/-- Legal lengths keep every buffer access inside its space, so no instruction faults (20_memory.md R66). -/
theorem exec_completes {s : State} (hl : LegalLengths s) (i : Instr) : ∃ t, exec i s = .next t := by
  cases hi : processesFrame i with
  | true =>
    obtain ⟨r, e, hgood⟩ := exec_good s i hl hi
    exact e ▸ endProcess_next s r hgood
  | false =>
    obtain ⟨_, _, _, _, e, -⟩ := exec_other_form s i hi hl
    exact ⟨_, e⟩

/-- The engine's step completes for every opcode, legal or not (30_encoding.md R93, 60_exceptions.md R308). -/
theorem engineStep_completes {s : State} (hl : LegalLengths s) : ∃ t, engineStep s = .next t := by
  cases hopc : decodeCommand s.opc with
  | ok i => exact engineStep_legal hopc ▸ exec_completes hl i
  | error e => exact ⟨_, engineStep_illegal hopc⟩

/-- The engine's step ends the command: idle and done (10_state.md R46). -/
theorem engineStep_handshake {s t : State} (ht : engineStep s = .next t) : t.busy = false ∧ t.done = true := by
  rcases engineStep_cases ht with ⟨i, hi⟩ | rfl
  · have hends := exec_commandEnds hi
    exact ⟨hends.busy, hends.done⟩
  · exact ⟨rfl, rfl⟩

/-- Settles O11: every step completes and sets the handshake, and the invariant it keeps says the error bit of a state
that is done. -/
theorem everyCommandEndsInOneStep : Obligations.EveryCommandEndsInOneStep := by
  intro s h
  have hl := legalLengths_of_inv s h
  refine ⟨fun i => ?_, ?_⟩
  · obtain ⟨t, ht⟩ := exec_completes hl i
    have hends := exec_commandEnds ht
    exact ⟨t, ht, hends.busy, hends.done, (inv_exec h i ht).errClass hends.done⟩
  · obtain ⟨t, ht⟩ := engineStep_completes hl
    obtain ⟨hbusy, hdone⟩ := engineStep_handshake ht
    exact ⟨t, ht, hbusy, hdone, (inv_engineStep h ht).errClass hdone⟩

/-! ## What can stop a step -/

theorem step_of_engineTurn {s : State} (hturn : engineTurn s = true) : step s = engineStep s := if_pos hturn

section HostTurn

variable {s : State} (hturn : engineTurn s = false)
include hturn

theorem step_of_hostNext {m : HostMove} (hm : hostNext s = some m) : step s = hostMove m s := by
  rw [step, if_neg (Bool.eq_false_iff.1 hturn), hm]

theorem step_of_no_hostNext (hnone : hostNext s = none) : step s = .next s := by
  rw [step, if_neg (Bool.eq_false_iff.1 hturn), hnone]

end HostTurn

/-- Settles O12: the engine's step completes, the host's next access has its move or is refused, and a host that has no
next access is waited for. -/
theorem onlyMovelessAccessesStop : Obligations.OnlyMovelessAccessesStop := by
  intro s h
  cases hturn : engineTurn s with
  | true => exact .inl (step_of_engineTurn hturn ▸ engineStep_completes (legalLengths_of_inv s h))
  | false =>
    cases hnext : hostNext s with
    | none => exact .inl ⟨s, step_of_no_hostNext hturn hnext⟩
    | some m =>
      have hstep := step_of_hostNext hturn hnext
      rcases hostMove_next_or_refused s m with ⟨-, t, ht⟩ | ⟨hmoveless, hrefused⟩
      · exact .inl ⟨t, hstep.trans ht⟩
      · exact .inr ⟨hstep.trans hrefused, rfl, m, rfl, hmoveless⟩

end Sys2Proof.Machine
end

section
/-! PROOFS. Reset and the hazards of the host interface (70_reset_and_hazards.md): reset sets every piece of state
(O57); while a command is latched every other move leaves the block as it is, so a write is lost (O49), and brings the
engine's step one move nearer, so the command gets its step within the delay (O13). -/

namespace Sys2Proof.Machine

/-! ## Reset -/

theorem hostMove_reset (s : State) : hostMove .reset s = .next (hostAdvance (hostReset s)) := rfl

theorem reportWord_zero : reportWord Report.zero = 0 := by decide

/-- After reset every byte of `IN` is the unspecified one of a fresh draw (10_state.md R49). -/
theorem byteAt_hostReset_inbound (s : State) (a : Nat) :
    byteAt (hostReset s) .inbound a = Config.freeIn (s.inDraw + 1) a := rfl

/-- After reset every byte of `OUT` is the unspecified one of a fresh draw (10_state.md R49). -/
theorem byteAt_hostReset_outbound (s : State) (a : Nat) :
    byteAt (hostReset s) .outbound a = Config.freeOut (s.outDraw + 1) a := rfl

/-- Settles O57: the registers and the cache are those of `State.resetWith`, and the buffers hold no written byte. -/
theorem resetMove : Obligations.ResetMove := fun s =>
  ⟨_, hostMove_reset s, rfl, rfl, rfl, rfl, rfl, rfl, rfl, rfl, rfl, rfl, reportWord_zero, rfl, rfl, rfl, rfl,
    byteAt_hostReset_inbound s, byteAt_hostReset_outbound s⟩

/-! ## The host's moves while busy -/

section BlockAlike

variable {s t : State} (h : blockAlike s t)
include h

theorem busy_of_blockAlike : t.busy = s.busy := by
  have hbusy := congrArg State.busy h
  exact hbusy

theorem opc_of_blockAlike : t.opc = s.opc := by
  have hopc := congrArg State.opc h
  exact hopc

end BlockAlike

theorem inWrite_busy {s : State} (h : s.busy = true) (a : Nat) (b : Byte) : inWrite s a b = s := if_pos h

/-- While a command is latched a move of the host is a reset, or it leaves the block as it is and brings the engine's
step nearer (70_reset_and_hazards.md R331, R341, R347). -/
theorem hostMove_busy {s t : State} {m : HostMove} (hbusy : s.busy = true) (ht : hostMove m s = .next t) :
    (m = .reset ∧ t = hostAdvance (hostReset s)) ∨ (blockAlike s t ∧ t.delay = s.delay - 1) := by
  rcases hostMove_cases s t m ht with
    ⟨o, v, -, rfl⟩ | ⟨a, b, -, -, rfl⟩ | ⟨v, rfl⟩ | rfl | ⟨v, bit, target, rfl⟩ | hreset
  · rw [regWrite_busy (s := hostAdvance s) hbusy]
    exact .inr ⟨blockAlike_hostAdvance s, rfl⟩
  · rw [inWrite_busy (s := hostAdvance s) hbusy]
    exact .inr ⟨blockAlike_hostAdvance s, rfl⟩
  · exact .inr ⟨blockAlike_hostSees s v, rfl⟩
  · exact .inr ⟨blockAlike_hostAdvance s, rfl⟩
  · exact .inr ⟨blockAlike_hostBranch s v bit target, rfl⟩
  · exact .inl hreset

/-- Settles O49: a write is no reset, so it leaves the block as it is. -/
theorem writesWhileBusyAreLost : Obligations.WritesWhileBusyAreLost := by
  intro s t m hbusy ht hwrite
  rcases hostMove_busy hbusy ht with ⟨rfl, -⟩ | ⟨halike, -⟩
  · rcases hwrite with ⟨_, _, _, hm⟩ | ⟨_, _, hm⟩ <;> cases hm
  · exact halike

/-! ## The wait of a latched command -/

theorem runSteps_of_next {s t : State} (ht : step s = .next t) (n : Nat) : runSteps (n + 1) s = runSteps n t := by
  rw [runSteps, ht]

theorem runSteps_of_refused {s : State} {r : Refusal} (hr : step s = .refused r) (n : Nat) :
    runSteps (n + 1) s = .refused r := by
  rw [runSteps, hr]

/-- A step taken while the command waits is a move of the host: a reset, or one that leaves the block as it is and
brings the engine's step nearer. -/
theorem step_waiting {s t : State} (hbusy : s.busy = true) (hturn : engineTurn s = false) (ht : step s = .next t) :
    t = hostAdvance (hostReset s) ∨ (blockAlike s t ∧ t.delay = s.delay - 1) := by
  rcases step_cases ht with ⟨hturn', -⟩ | ⟨-, m, -, hm⟩ | ⟨-, hnone, -⟩
  · exact absurd (hturn.symm.trans hturn') Bool.false_ne_true
  · exact (hostMove_busy hbusy hm).imp_left And.right
  · exact absurd ((engineTurn_iff s).2 ⟨hbusy, .inl hnone⟩) (Bool.eq_false_iff.1 hturn)

/-- How the wait of the latched opcode ends: in a reset, in the engine's turn for it, or at a host access that has no
move (70_reset_and_hazards.md R331, R347). -/
def WaitEnds (opc : BitVec 8) (r : Result) : Prop :=
  (∃ t, r = .next t ∧ Inv t ∧ (t.busy = false ∨ (engineTurn t = true ∧ t.opc = opc))) ∨ r = .refused .hostAccess

/-- By induction on the delay, which every step of the wait but the last lowers by one. -/
theorem waitEnds_within_delay (d : Nat) {s : State} (h : Inv s) (hbusy : s.busy = true) (hd : s.delay = d) :
    ∃ n, n ≤ d ∧ WaitEnds s.opc (runSteps n s) := by
  induction d generalizing s with
  | zero =>
    have hturn : engineTurn s = true := (engineTurn_iff s).2 ⟨hbusy, .inr hd⟩
    exact ⟨0, le_rfl, .inl ⟨s, rfl, h, .inr ⟨hturn, rfl⟩⟩⟩
  | succ d ih =>
    cases hturn : engineTurn s with
    | true => exact ⟨0, Nat.zero_le _, .inl ⟨s, rfl, h, .inr ⟨hturn, rfl⟩⟩⟩
    | false =>
      rcases onlyMovelessAccessesStop s h with ⟨t, ht⟩ | ⟨hrefused, -⟩
      · have hinv := stepKeepsTheInvariant s t h ht
        rcases step_waiting hbusy hturn ht with rfl | ⟨halike, hdelay⟩
        · exact ⟨1, Nat.le_add_left 1 d, .inl ⟨_, runSteps_of_next ht 0, hinv, .inl rfl⟩⟩
        · obtain ⟨n, hn, hends⟩ := ih hinv ((busy_of_blockAlike halike).trans hbusy) (by omega)
          refine ⟨n + 1, Nat.succ_le_succ hn, ?_⟩
          rw [runSteps_of_next ht, ← opc_of_blockAlike halike]
          exact hends
      · exact ⟨1, Nat.le_add_left 1 d, .inr (runSteps_of_refused hrefused 0)⟩

/-- Settles O13: the wait ends within the delay of the state it begins in. -/
theorem latchedCommandGetsItsStep : Obligations.LatchedCommandGetsItsStep :=
  fun s h hbusy => waitEnds_within_delay s.delay h hbusy rfl

end Sys2Proof.Machine
end

section
/-! PROOFS. The dispositions (60_exceptions.md): their codes (O59), the first check that `PROCESS` reports (O40), and
what a malformed frame leaves (O41). -/

namespace Sys2Proof.Machine

/-! ## The codes -/

/-- The dispositions in the order of the table of R303. -/
def dispositionTable : List Disposition :=
  [.ok, .arpReply, .icmpEchoReply, .tcpSynAck, .arpReplySeen, .arpRequestNotLocal, .arpUnsupported,
    .icmpEchoReplySeen, .icmpUnhandled, .tcpUnhandled, .ipv4Udp, .ipv4Igmp, .ipv4UnknownProto, .ethUnsupportedType,
    .ethTooShort, .arpTooShort, .arpBadOpcode, .ipv4TooShort, .ipv4BadVersion, .ipv4BadIhl, .icmpTooShort,
    .tcpTooShort, .tcpBadDataOffset, .cmdIllegal, .cmdRange, .cmdCsumOdd]

theorem mem_dispositionTable (d : Disposition) : d ∈ dispositionTable := by
  cases d <;> decide

theorem dispCode_injective : Function.Injective dispCode := by
  have hcodes : (dispositionTable.map dispCode).Nodup := by decide
  exact fun d e => List.inj_on_of_nodup_map hcodes (mem_dispositionTable d) (mem_dispositionTable e)

/-- Settles O59: the table's codes are read off, and no code stands in it twice. -/
theorem dispositionCodes : Obligations.DispositionCodes := ⟨rfl, fun _ _ h => dispCode_injective h⟩

/-! ## The first check -/

/-- Below the command errors the error class is that of the malformed frames (R303). -/
theorem dispIsError_eq_malformed {d : Disposition}
    (hd : d ∉ [Disposition.ok, .cmdIllegal, .cmdRange, .cmdCsumOdd]) :
    dispIsError d = (decide (0x20 ≤ (dispCode d).toNat) && decide ((dispCode d).toNat ≤ 0x28)) := by
  cases d with
  | cmdIllegal | cmdRange | cmdCsumOdd => exact absurd hd (by decide)
  | _ => rfl

/-- Settles O40: the report and the error bit are those of the first disposition, which is never a command error. -/
theorem processReportsTheFirstCheck : Obligations.ProcessReportsTheFirstCheck := by
  intro s hl
  obtain ⟨t, ht⟩ := exec_completes hl .process
  have hdisp := process_disposition ht
  refine ⟨t, ht, hdisp, ?_⟩
  rw [hdisp, process_err hl ht, dispIsError_eq_malformed (firstDisposition_ne _ _)]

/-! ## Malformed frames -/

/-- An error sends no reply: it stands for `raise Malformed` (60_exceptions.md R301). -/
theorem endingFor_of_error (p : Params) (f : List Byte) {d : Disposition} (hd : dispIsError d = true) :
    endingFor p f d = .raise d := by
  have hne : ∀ d', dispIsError d' = false → d ≠ d' := by
    rintro _ hquiet rfl
    exact absurd (hquiet.symm.trans hd) Bool.false_ne_true
  rw [endingFor, if_neg (hne _ rfl), if_neg (hne _ rfl), if_neg (hne _ rfl), if_pos hd]

/-- On a malformed frame `PROCESS` raises the first disposition with the flags and the cache of its run. -/
theorem process_malformed {s : State} (hl : LegalLengths s)
    (hd : dispIsError (firstDisposition s.cfg.localIp (handedOver s)) = true) :
    ∃ t, exec .process s = .next t ∧
      Dropped s t (runReport (processRun s.cfg s.cache (handedOver s))) true ∧
      t.cache = (processRun s.cfg s.cache (handedOver s)).cache := by
  have hraise := (processRun_ending s.cfg s.cache (handedOver s)).trans (endingFor_of_error _ _ hd)
  obtain ⟨t, e, hdropped, hcache⟩ := endProcess_raise s _ _ hraise
  exact ⟨t, (execProcess_run s hl).trans e, hdropped, hcache⟩

/-- Settles O41: the run of a malformed frame merged nothing, and wrote the checksum flag on the IPv4 path alone. -/
theorem malformedFramesChangeNothingElse : Obligations.MalformedFramesChangeNothingElse := by
  rintro s _ _ hl rfl rfl hd
  obtain ⟨t, ht, hdropped, hcache⟩ := process_malformed hl hd
  refine ⟨t, ht, ?_⟩
  by_cases hip : isIpv4Frame (handedOver s)
  · rw [processRun_ipv4 _ _ _ hip] at hdropped hcache
    rw [ipv4Run_report _ _ _ hip.1, endingFor_code] at hdropped
    exact ⟨hcache, .inl ⟨hip, hdropped⟩⟩
  · have hmerge : ¬ (isArpFrame (handedOver s) ∧ (rd16 (handedOver s) 20 = 1 ∨ rd16 (handedOver s) 20 = 2 ∨
        rd16 (handedOver s) 20 = 3 ∨ rd16 (handedOver s) 20 = 4)) := fun ⟨harp, hop⟩ =>
      absurd ((firstDisposition_arp_noError _ harp hop).symm.trans hd) Bool.false_ne_true
    rw [processRun_other _ _ _ hip hmerge] at hdropped hcache
    rw [endingFor_of_error _ _ hd] at hdropped
    exact ⟨hcache, .inr ⟨hip, hdropped⟩⟩

end Sys2Proof.Machine
end
